-- ==== Sys2Proof/Word.lean ====
section
/-! DEFINITION. The word types of NTTE (00_scope.md rule R14) and the table builder the reset state uses. -/

namespace Sys2Proof

/-- A word is 32 bits (R14). It also holds an int32, read with `BitVec.toInt`. -/
abbrev Word := BitVec 32

/-- A halfword is 16 bits (R14): one u16 coefficient of BUF_B. -/
abbrev Half := BitVec 16

/-- The vector whose entry `i` is `f i`. Built from a list so that Lean's kernel evaluates it quickly, and irreducible so that
no unifier unrolls a thousand entries. -/
@[irreducible] def tabulate {α : Type} (n : Nat) (f : Nat → α) : Vector α n :=
  ⟨((List.range n).map f).toArray, by simp⟩

end Sys2Proof
end

