-- ==== Sys2Proof/Syntax.lean ====
section
/-! DEFINITION. The fifteen commands of 30_encoding.md rule R93, their opcodes and the five formats of rule R92. -/

namespace Sys2Proof

/-- The two units of NTTE (R2): ENG_A (Ring-A) and ENG_B (Ring-B). -/
inductive Eng where
  | a
  | b
  deriving DecidableEq, Repr

/-- The commands (R93). `j` is a coefficient index (field IDX), `lg` the base-2 logarithm of a butterfly's distance
or `logn` the base-2 logarithm of a transform's size (field LG), `k` or `x` a twiddle index (field TW): R91, R95. -/
inductive Instr where
  /-- `nop.a` (R200) -/
  | nopA
  /-- `ntt.a` (R150) -/
  | nttA
  /-- `intt.a.mont` (R151) -/
  | inttAMont
  /-- `intt.a` (R153) -/
  | inttA
  /-- `bfct.a j, lg, k` (R141) -/
  | bfctA (j : BitVec 10) (lg : BitVec 4) (k : BitVec 10)
  /-- `bfgs.a j, lg, k` (R142) -/
  | bfgsA (j : BitVec 10) (lg : BitVec 4) (k : BitVec 10)
  /-- `fscale.a j` (R143) -/
  | fscaleA (j : BitVec 10)
  /-- `redc.a j` (R144) -/
  | redcA (j : BitVec 10)
  /-- `freeze.a j` (R145) -/
  | freezeA (j : BitVec 10)
  /-- `nop.b` (R201) -/
  | nopB
  /-- `ntt.b logn` (R180) -/
  | nttB (logn : BitVec 4)
  /-- `intt.b logn` (R181) -/
  | inttB (logn : BitVec 4)
  /-- `bfct.b j, lg, x` (R171) -/
  | bfctB (j : BitVec 10) (lg : BitVec 4) (x : BitVec 10)
  /-- `bfgs.b j, lg, x` (R172) -/
  | bfgsB (j : BitVec 10) (lg : BitVec 4) (x : BitVec 10)
  /-- `nscale.b j, logn` (R173) -/
  | nscaleB (j : BitVec 10) (logn : BitVec 4)
  deriving DecidableEq, Repr

/-- The assigned opcodes, one per row of R93. -/
inductive Opcode where
  | nopA
  | nttA
  | inttAMont
  | inttA
  | bfctA
  | bfgsA
  | fscaleA
  | redcA
  | freezeA
  | nopB
  | nttB
  | inttB
  | bfctB
  | bfgsB
  | nscaleB
  deriving DecidableEq, Repr

/-- The five formats (R92): which of the fields IDX, LG and TW a command uses. -/
inductive Format where
  | z
  | l
  | i
  | il
  | p
  deriving DecidableEq, Repr

/-- Why a word is no command (R98, R99). -/
inductive DecodeError where
  /-- The opcode is not one of R93 (R99). -/
  | illegalOpcode
  /-- A field the format fixes to zero is not zero (R98). -/
  | illegalField
  deriving DecidableEq, Repr

end Sys2Proof
end

