-- ==== Sys2Proof/Machine/Operands.lean ====
section
/-! DEFINITION. Operand forms: 30_encoding.md rules R93 to R97. -/

namespace Sys2Proof.Machine

/-- The distance of a butterfly (R95): `d = 2^lg`. -/
def distance (lg : Nat) : Nat := 2 ^ lg

/-- The index of a butterfly's second coefficient (R95): `j + d`. -/
def partner (j lg : Nat) : Nat := j + distance lg

/-- The sizes a Ring-B transform is defined for (R9, R97, 90_conflicts.md C1): `1 ≤ logn ≤ 10`. -/
def legalLogn (logn : Nat) : Bool := decide (1 ≤ logn) && decide (logn ≤ 10)

/-- The operand range of `bfct.a` and `bfgs.a` (R93, R96). -/
def butterflyRangeA (j lg k : Nat) : Bool :=
  decide (j ≤ 255) && decide (lg ≤ 7) && decide (partner j lg ≤ 255) && decide (1 ≤ k) && decide (k ≤ 255)

/-- The operand range of `bfct.b` and `bfgs.b` (R93, R96): every `j` and `x` of ten bits. -/
def butterflyRangeB (j lg : Nat) : Bool :=
  decide (lg ≤ 9) && decide (partner j lg ≤ 1023)

/-- The operand range of `fscale.a`, `redc.a` and `freeze.a` (R93). -/
def indexRangeA (j : Nat) : Bool := decide (j ≤ 255)

/-- The ranges of R93 that acceptance checks (R96). `ntt.b` and `intt.b` are not checked (R97). -/
def operandsInRange : Instr → Bool
  | .nopA => true
  | .nttA => true
  | .inttAMont => true
  | .inttA => true
  | .bfctA j lg k => butterflyRangeA j.toNat lg.toNat k.toNat
  | .bfgsA j lg k => butterflyRangeA j.toNat lg.toNat k.toNat
  | .fscaleA j => indexRangeA j.toNat
  | .redcA j => indexRangeA j.toNat
  | .freezeA j => indexRangeA j.toNat
  | .nopB => true
  | .nttB _ => true
  | .inttB _ => true
  | .bfctB j lg _ => butterflyRangeB j.toNat lg.toNat
  | .bfgsB j lg _ => butterflyRangeB j.toNat lg.toNat
  | .nscaleB _ logn => legalLogn logn.toNat

/-- The unit a command belongs to (R93): the opcode's bit 7 (R94). -/
def unitOf : Instr → Eng
  | .nopA => .a
  | .nttA => .a
  | .inttAMont => .a
  | .inttA => .a
  | .bfctA _ _ _ => .a
  | .bfgsA _ _ _ => .a
  | .fscaleA _ => .a
  | .redcA _ => .a
  | .freezeA _ => .a
  | .nopB => .b
  | .nttB _ => .b
  | .inttB _ => .b
  | .bfctB _ _ _ => .b
  | .bfgsB _ _ _ => .b
  | .nscaleB _ _ => .b

end Sys2Proof.Machine
end

