-- ==== Sys2Proof/WellFormed.lean ====
section
/-! DEFINITION. Well-formed commands: the operands lie in the ranges of 30_encoding.md rule R93 that acceptance
checks (rule R96). An ill-formed command decodes and is then rejected with cause 3 (rule R104). -/

namespace Sys2Proof

/-- The command passes every operand check of R96. -/
abbrev Instr.WellFormed (i : Instr) : Prop := Machine.operandsInRange i = true

end Sys2Proof
end

