-- ==== Sys2Proof/Decode.lean ====
section
/-! DEFINITION. The decoder and the encoder of command words: 30_encoding.md rules R90 to R104. -/

namespace Sys2Proof

/-- The opcode map (R93). -/
def Opcode.code : Opcode → BitVec 8
  | .nopA => 0x00
  | .nttA => 0x01
  | .inttAMont => 0x02
  | .inttA => 0x03
  | .bfctA => 0x10
  | .bfgsA => 0x11
  | .fscaleA => 0x12
  | .redcA => 0x13
  | .freezeA => 0x14
  | .nopB => 0x80
  | .nttB => 0x81
  | .inttB => 0x82
  | .bfctB => 0x90
  | .bfgsB => 0x91
  | .nscaleB => 0x92

/-- The format column of R93. -/
def Opcode.format : Opcode → Format
  | .nopA => .z
  | .nttA => .z
  | .inttAMont => .z
  | .inttA => .z
  | .bfctA => .p
  | .bfgsA => .p
  | .fscaleA => .i
  | .redcA => .i
  | .freezeA => .i
  | .nopB => .z
  | .nttB => .l
  | .inttB => .l
  | .bfctB => .p
  | .bfgsB => .p
  | .nscaleB => .il

/-- The mask column of R92: the bits that must match. -/
def Format.mask : Format → Word
  | .z => 0xFFFFFFFF
  | .l => 0xFFC3FFFF
  | .i => 0xFFFC00FF
  | .il => 0xFFC000FF
  | .p => 0x000000FF

/-- The rows of R93, in its order. -/
def opcodes : List Opcode :=
  [.nopA, .nttA, .inttAMont, .inttA, .bfctA, .bfgsA, .fscaleA, .redcA, .freezeA,
   .nopB, .nttB, .inttB, .bfctB, .bfgsB, .nscaleB]

/-- The row of R93 with opcode `c`, if `c` is assigned (R99). -/
def opcodeOf (c : BitVec 8) : Option Opcode := opcodes.find? fun o => o.code == c

/-- Field OPC, bits 7:0 (R91). -/
def opcField (w : Word) : BitVec 8 := w.extractLsb' 0 8

/-- Field IDX, bits 17:8 (R91). -/
def idxField (w : Word) : BitVec 10 := w.extractLsb' 8 10

/-- Field LG, bits 21:18 (R91). -/
def lgField (w : Word) : BitVec 4 := w.extractLsb' 18 4

/-- Field TW, bits 31:22 (R91). -/
def twField (w : Word) : BitVec 10 := w.extractLsb' 22 10

/-- The unit a command word goes to: bit 7 alone (R94). -/
def unitField (w : Word) : Eng := if w.getLsbD 7 then .b else .a

/-- The command of a row, its operands taken from the fields (R93, R95). -/
def Opcode.command (o : Opcode) (idx : BitVec 10) (lg : BitVec 4) (tw : BitVec 10) : Instr :=
  match o with
  | .nopA => .nopA
  | .nttA => .nttA
  | .inttAMont => .inttAMont
  | .inttA => .inttA
  | .bfctA => .bfctA idx lg tw
  | .bfgsA => .bfgsA idx lg tw
  | .fscaleA => .fscaleA idx
  | .redcA => .redcA idx
  | .freezeA => .freezeA idx
  | .nopB => .nopB
  | .nttB => .nttB lg
  | .inttB => .inttB lg
  | .bfctB => .bfctB idx lg tw
  | .bfgsB => .bfgsB idx lg tw
  | .nscaleB => .nscaleB idx lg

/-- The decoder (R104, second and third check): the opcode first, then the must-be-zero fields. Operand ranges are
not its business: an out-of-range operand decodes and is rejected at acceptance with cause 3. -/
def decode (w : Word) : Except DecodeError Instr :=
  match opcodeOf (opcField w) with
  | none => .error .illegalOpcode
  | some o =>
    if w &&& o.format.mask = o.code.setWidth 32 then
      .ok (o.command (idxField w) (lgField w) (twField w))
    else .error .illegalField

/-- A command word assembled from its fields (R91): `OPC + IDX·2^8 + LG·2^18 + TW·2^22`. -/
def assemble (o : Opcode) (idx : BitVec 10) (lg : BitVec 4) (tw : BitVec 10) : Word :=
  tw ++ lg ++ idx ++ o.code

/-- The encoder (R91 to R93): a field the command does not use is 0. -/
def encode : Instr → Word
  | .nopA => assemble .nopA 0 0 0
  | .nttA => assemble .nttA 0 0 0
  | .inttAMont => assemble .inttAMont 0 0 0
  | .inttA => assemble .inttA 0 0 0
  | .bfctA j lg k => assemble .bfctA j lg k
  | .bfgsA j lg k => assemble .bfgsA j lg k
  | .fscaleA j => assemble .fscaleA j 0 0
  | .redcA j => assemble .redcA j 0 0
  | .freezeA j => assemble .freezeA j 0 0
  | .nopB => assemble .nopB 0 0 0
  | .nttB logn => assemble .nttB 0 logn 0
  | .inttB logn => assemble .inttB 0 logn 0
  | .bfctB j lg x => assemble .bfctB j lg x
  | .bfgsB j lg x => assemble .bfgsB j lg x
  | .nscaleB j logn => assemble .nscaleB j logn 0

/-- The command the decoder reads from an opcode-table word: every command is one 32-bit word handed over whole
(R90), so there is no byte order to undo (R65). A row wider than a word would be no command. -/
def decodeTableWord (nbits w : Nat) : Option Instr :=
  if nbits ≤ 32 then
    match decode (BitVec.ofNat 32 (w % 2 ^ nbits)) with
    | .ok i => some i
    | .error _ => none
  else none

end Sys2Proof
end

