-- ==== Sys2Proof/Config.lean ====
section
/-! DEFINITION. What the spec leaves open: the parameters of 00_scope.md rule R10 and the free values of
93_implementation_defined.md. Every constant here has no body, so nothing in Lean can evaluate it: a claim about
it holds for every value. -/

namespace Sys2Proof

/-- The agents that act on the state (R12). -/
inductive Agent where
  | host
  | engA
  | engB
  deriving DecidableEq, Repr, Inhabited

/-- BASE: the host address of the first byte of the window (R10). -/
opaque Config.base : Nat

/-- SCHED: the turns of round `n`, once State's own list of turns is used up (R10, R70, U12). Each round is closed by a turn
of a unit (`Machine.scheduleRound`), so that the schedule is fair whatever this constant is. -/
opaque Config.sched : Nat → List Agent

/-- INIT_A: `initA r i` is entry `i` of BUF_A after the `r`-th reset (R10, R45, R46, U9). -/
opaque Config.initA : Nat → Nat → Word

/-- INIT_B: `initB r i` is entry `i` of BUF_B after the `r`-th reset (R10, R45, R46, U9). -/
opaque Config.initB : Nat → Nat → Half

/-- CUR_A after the `r`-th reset (R45: unspecified, not observable; U7). -/
opaque Config.initCurA : Nat → Word

/-- CUR_B after the `r`-th reset (R45, U7). -/
opaque Config.initCurB : Nat → Word

/-- SEQ_A.step after the `r`-th reset (R45, U7). -/
opaque Config.initSeqA : Nat → BitVec 11

/-- SEQ_B.step after the `r`-th reset (R45, U7). -/
opaque Config.initSeqB : Nat → BitVec 13

/-- CUR_A once the `n`-th command of ENG_A has completed (R40: meaningful only while busy; U7). -/
opaque Config.idleCurA : Nat → Word

/-- CUR_B once the `n`-th command of ENG_B has completed (R40, U7). -/
opaque Config.idleCurB : Nat → Word

/-- SEQ_A.step once the `n`-th command of ENG_A has completed (R41: unspecified; U7). -/
opaque Config.idleSeqA : Nat → BitVec 11

/-- SEQ_B.step once the `n`-th command of ENG_B has completed (R41, U7). -/
opaque Config.idleSeqB : Nat → BitVec 13

/-- The `n`-th free int32: a store into BUF_A that the spec calls undefined (U2, U3). -/
opaque Config.freeA : Nat → Word

/-- The `n`-th free u16: a store into BUF_B that the spec calls undefined (U1, U3, U4). It may be 12289 or more. -/
opaque Config.freeB : Nat → Half

/-- The `n`-th free read: what a host read of a busy unit's buffer returns (U3, R73). -/
opaque Config.freeRead : Nat → Word

/-- Whether the `n`-th engine step of a Ring-B transform with out-of-range `logn` completes it (U1, R187). -/
opaque Config.freeDone : Nat → Bool

/-- SEQ_B.step after the `n`-th engine step of a Ring-B transform with out-of-range `logn` (U1, R187). -/
opaque Config.freeSeqB : Nat → BitVec 13

end Sys2Proof
end

