-- ==== Sys2Proof/Machine/State.lean ====
section
/-! DEFINITION. The architectural state of NTTE (10_state.md), the host's queue and reply, and the state after reset.
Fields that are the model's own, not the spec's, say so. -/

namespace Sys2Proof.Machine

/-- The cause of a rejected command (60_exceptions.md rule R221). Codes 5 to 15 never appear (10_state.md rule R33),
so they have no constructor. -/
inductive Cause where
  /-- 0: `X_ERR = 0` -/
  | none
  /-- 1: ILLEGAL_OPCODE (R99) -/
  | illegalOpcode
  /-- 2: ILLEGAL_FIELD (R98) -/
  | illegalField
  /-- 3: OPERAND_RANGE (R96) -/
  | operandRange
  /-- 4: UNIT_BUSY (R104) -/
  | unitBusy
  deriving DecidableEq, Repr

/-- The run state and status flags of one unit (R33, R40); `w` is the width of its schedule counter. -/
structure Engine (w : Nat) where
  /-- X_BUSY, which is BUSY_X -/
  busy : Bool
  /-- X_DONE -/
  done : Bool
  /-- X_ERR -/
  err : Bool
  /-- X_CAUSE -/
  cause : Cause
  /-- CUR_X, the accepted command word -/
  cur : Word
  /-- SEQ_X.step, the schedule counter that stands where a program counter would (R41) -/
  seq : BitVec w
  /-- The model's own: how many commands X has completed, the index of the free values that CUR_X and SEQ_X.step take then
  (R41, 93_implementation_defined.md U7). -/
  completions : Nat
  deriving DecidableEq, Repr

/-- A host bus transaction (R61): its kind, byte offset, size and, for a write, its data. Only the data of a legal
transaction has an effect, and that is one word (R66). -/
inductive Txn where
  | read (off size : Nat)
  | write (off size : Nat) (data : Word)
  deriving DecidableEq, Repr

/-- What stands in the host's queue: a transaction, or `wait.a` / `wait.b` (30_encoding.md rule R102), the polling loop
that reads STATUS until the unit's BUSY bit reads 0. -/
inductive HostOp where
  | txn (t : Txn)
  | wait (x : Eng)
  deriving DecidableEq, Repr

/-- The response to a transaction (R61, R63, R64, R66). -/
inductive Reply where
  /-- response ok to a read, with its data -/
  | data (w : Word)
  /-- response ok to a write -/
  | written
  /-- response error: no data, no state change (R66, R222) -/
  | error
  deriving DecidableEq, Repr

/-- One turn of an execution: a step of an agent (R70), or a pulse of the reset input (R250). -/
inductive Turn where
  | agent (a : Agent)
  | reset
  deriving DecidableEq, Repr

/-- The whole state. -/
structure State where
  /-- ENG_A; SEQ_A.step has 11 bits (R40) -/
  a : Engine 11
  /-- ENG_B; SEQ_B.step has 13 bits (R40) -/
  b : Engine 13
  /-- BUF_A: 256 int32 (R20) -/
  bufA : Vector Word 256
  /-- BUF_B: 1024 u16 (R21) -/
  bufB : Vector Half 1024
  /-- The model's own: the entries of BUF_A, in rising order, that are undefined because the host wrote BUF_A while ENG_A
  was busy. Each stays so, whatever commands write to it, until the host rewrites it with ENG_A idle (20_memory.md rule
  R73, U3). -/
  undefA : List Nat
  /-- The model's own: the same entries of BUF_B. -/
  undefB : List Nat
  /-- The host's pending operations in port order (R62). -/
  port : List HostOp
  /-- The response to the transaction performed last (R61); none before the first since reset. -/
  reply : Option Reply
  /-- The model's own: the coming turns (SCHED, R70). Any list is allowed; a round of `Config.sched` follows it. -/
  sched : List Turn
  /-- The model's own: how many rounds have been begun. -/
  turn : Nat
  /-- The model's own: how many free values have been drawn (93_implementation_defined.md U1 to U4). -/
  draws : Nat
  /-- The model's own: how many times the reset input has been pulsed; the index of INIT_A and INIT_B. -/
  resets : Nat
  deriving DecidableEq, Repr

/-- Why the machine stops with a fault. No command's meaning raises one. -/
inductive Fault where
  /-- Raised by the host's turn for a transaction at or above offset 0x4000, outside the window: "not NTTE's to answer"
  (R36). Safe: the model stops where the platform goes on. -/
  | outsideWindow
  /-- Raised by a unit's turn when the unit is busy and CUR_X is no command word of that unit. Acceptance never lets
  that happen (R104), so no run from reset reaches it. Safe. -/
  | notACommand
  deriving DecidableEq, Repr

/-- Why a step is refused. Nothing raises it: every command has its meaning. -/
inductive Refusal where
  /-- The named command would have no meaning yet. Raised only by an arm of `exec`, and no arm does. Safe. -/
  | notModelled (mnemonic : String)
  deriving DecidableEq, Repr

/-- A unit after the `r`-th reset (R45): idle, no completion, no error; the rest unspecified. -/
def Engine.atReset {w : Nat} (cur : Word) (seq : BitVec w) : Engine w :=
  { busy := false, done := false, err := false, cause := .none, cur := cur, seq := seq, completions := 0 }

/-- The machine after the `r`-th reset (R45, R250): both units idle, STATUS 0, the buffers unspecified (INIT_A and
INIT_B). The host has made no transaction. -/
def State.atReset (r : Nat) : State :=
  { a := Engine.atReset (Config.initCurA r) (Config.initSeqA r)
    b := Engine.atReset (Config.initCurB r) (Config.initSeqB r)
    bufA := tabulate 256 (Config.initA r)
    bufB := tabulate 1024 (Config.initB r)
    undefA := []
    undefB := []
    port := []
    reply := none
    sched := []
    turn := 0
    draws := 0
    resets := r }

/-- The machine right after the first reset (R45). -/
def State.reset : State := State.atReset 0

end Sys2Proof.Machine
end

