-- ==== Sys2Proof/Machine/Flags.lean ====
section
/-! DEFINITION. The STATUS register: its fields (10_state.md rule R33), the write-one-to-clear action (R34), and what sets
each flag (R42). There is no other flag: no arithmetic condition code exists (R42). -/

namespace Sys2Proof.Machine

/-- The four-bit code of a cause (R221). -/
def Cause.code : Cause → BitVec 4
  | .none => 0
  | .illegalOpcode => 1
  | .illegalField => 2
  | .operandRange => 3
  | .unitBusy => 4

/-- The cause a decode error is rejected with (R98, R99, R104). -/
def causeOf : DecodeError → Cause
  | .illegalOpcode => .illegalOpcode
  | .illegalField => .illegalField

/-- The eight STATUS bits of one unit (R33), from bit 7: CAUSE, a reserved 0, ERR, DONE, BUSY. -/
def Engine.statusByte {w : Nat} (e : Engine w) : BitVec 8 :=
  e.cause.code ++ 0#1 ++ BitVec.ofBool e.err ++ BitVec.ofBool e.done ++ BitVec.ofBool e.busy

/-- The STATUS word (R33): ENG_A in bits 7:0, ENG_B in bits 15:8, the rest 0. -/
def State.status (s : State) : Word := 0#16 ++ s.b.statusByte ++ s.a.statusByte

/-- The write-one-to-clear action on one unit (R34): clearing ERR clears CAUSE with it (R225). -/
def Engine.clearFlags {w : Nat} (clearDone clearErr : Bool) (e : Engine w) : Engine w :=
  { e with
    done := e.done && !clearDone
    err := e.err && !clearErr
    cause := if clearErr then .none else e.cause }

/-- A write of `w` to STATUS (R34): bits 1 and 2 clear for ENG_A, bits 9 and 10 for ENG_B. -/
def State.writeStatus (w : Word) (s : State) : State :=
  { s with
    a := s.a.clearFlags (w.getLsbD 1) (w.getLsbD 2)
    b := s.b.clearFlags (w.getLsbD 9) (w.getLsbD 10) }

end Sys2Proof.Machine
end

