-- ==== Sys2Proof/Machine/Constants.lean ====
section
/-! DEFINITION. The fixed parameters of the two units: 00_scope.md rules R8, R9 and R11, and 46_twiddle_rom.md
rule R215. Constants that enter signed arithmetic are integers, those of Ring-B naturals. -/

namespace Sys2Proof.Machine

/-- QA = 2^23 − 2^13 + 1 (R8). -/
def QA : Int := 8380417

/-- NA, the ring degree of ENG_A (R8). -/
def NA : Nat := 256

/-- RA, the Montgomery radix of ENG_A (R8). -/
def RA : Int := 2 ^ 32

/-- RMODQ_A = 2^32 mod QA (R8). -/
def RMODQ_A : Int := 4193792

/-- NQINV_A = (−QA⁻¹) mod 2^32 (R8). -/
def NQINV_A : Int := 4236238847

/-- ROOT_A, the primitive 512-th root of unity (R8, K1). PRESUMED by the spec itself: "from general knowledge, not in
source" (log 15). -/
def ROOT_A : Int := 1753

/-- F_A = RA² × 256⁻¹ mod QA (R8, R152). -/
def F_A : Int := 41978

/-- QB = 3 × 2^12 + 1 (R9). -/
def QB : Nat := 12289

/-- NMAX_B, the largest ring degree of ENG_B (R9). -/
def NMAX_B : Nat := 1024

/-- ROOT_B, the primitive 2048-th root of unity (R9, K2). PRESUMED by the spec itself: "from general knowledge, not in
source" (log 15). -/
def ROOT_B : Nat := 7

/-- The ID register's value, the ASCII letters "NTTE" (R31). -/
def ID_VALUE : Word := 0x4E545445

/-- The window's size in bytes (R30). -/
def WINDOW_SIZE : Nat := 0x4000

end Sys2Proof.Machine
end

