-- ==== Sys2Proof/Machine/Arith.lean ====
section
/-! DEFINITION. The arithmetic primitives: 40_arith_primitives.md rules R120 to R130, with the notation of 00_scope.md
rules R13 and R14. `Int` division and remainder by a positive number are the spec's `div` and `mod` (R13). -/

namespace Sys2Proof.Machine

/-- `low32(x) = x mod 2^32` (R14). -/
def low32 (x : Int) : Int := x % 2 ^ 32

/-- `sint32(u)`, the two's-complement reading of `0 ≤ u < 2^32` (R14). -/
def sint32 (u : Int) : Int := if u < 2 ^ 31 then u else u - 2 ^ 32

/-- The Montgomery multiplier `m` of R120, taken signed. -/
def redcFactor (t : Int) : Int := sint32 ((low32 t * NQINV_A) % 2 ^ 32)

/-- `REDC_A(T)` (R120): the form with `−QA⁻¹` (90_conflicts.md C6). -/
def redcA (t : Int) : Int := (t + redcFactor t * QA) / 2 ^ 32

/-- `FREEZE_A(v) = v mod QA` (R123). -/
def freezeA (v : Int) : Int := v % QA

/-- The set int32 (R14): where `st32` is defined (R124). -/
abbrev FitsInt32 (v : Int) : Prop := -2 ^ 31 ≤ v ∧ v ≤ 2 ^ 31 - 1

/-- The 32-bit two's-complement encoding of an integer (R14, R20). -/
def int32 (v : Int) : Word := BitVec.ofInt 32 v

/-- `MQ_ADD(x, y)` (R126). -/
def mqAdd (x y : Nat) : Nat := (x + y) % QB

/-- `MQ_SUB(x, y)` (R126): the Euclidean remainder of the signed difference (R13). -/
def mqSub (x y : Nat) : Nat := (((x : Int) - (y : Int)) % (QB : Int)).toNat

/-- `MQ_MUL(x, y)` (R127). -/
def mqMul (x y : Nat) : Nat := (x * y) % QB

/-- The 16-bit encoding of a Ring-B result (R21). -/
def u16 (v : Nat) : Half := BitVec.ofNat 16 v

end Sys2Proof.Machine
end

