-- ==== Sys2Proof/Machine/Rom.lean ====
section
/-! DEFINITION. The twiddle ROMs and NINV_B: 46_twiddle_rom.md rules R210, R212 and R215. The ROMs are configuration,
not state (10_state.md rule R44); the tests check them against the listings R211 and R213. -/

namespace Sys2Proof.Machine

/-- `brv_b(x)` (R16): the `b`-bit reversal of `x`. -/
def brv : Nat → Nat → Nat
  | 0, _ => 0
  | b + 1, x => x % 2 * 2 ^ b + brv b (x / 2)

/-- `centred(x, q)` (R17). -/
def centred (x q : Int) : Int := if x % q > (q - 1) / 2 then x % q - q else x % q

/-- `ZETA_A[k]` (R210): entry 0 is 0, the others are centred Montgomery-scaled powers of ROOT_A. -/
def zetaA (k : Nat) : Int := if k = 0 then 0 else centred (RMODQ_A * ROOT_A ^ brv 8 k) QA

/-- `W_B[x]` (R212): plain powers of ROOT_B in bit-reversed order. -/
def wB (x : Nat) : Nat := ROOT_B ^ brv 10 x % QB

/-- The ROM NINV_B for `logn` = 0 to 10 (R9, R215). -/
def ninvTable : List Nat := [1, 6145, 9217, 10753, 11521, 11905, 12097, 12193, 12241, 12265, 12277]

/-- `NINV_B(logn)` (R215). No command reads it outside 0 to 10 (R96). -/
def ninvB (logn : Nat) : Nat := ninvTable.getD logn 0

/-- The negated twiddle of `bfgs.b` (R172): `(QB − W_B[x]) mod QB`. -/
def negW (x : Nat) : Nat := (QB - wB x) % QB

end Sys2Proof.Machine
end

