-- ==== Sys2Proof/Machine/Ops.lean ====
section
/-! DEFINITION. The shared operations: buffer entries, free values, the command fault and its clearing, acceptance and the
advance of the schedule counter. -/

namespace Sys2Proof.Machine

/-- The outcome of a step of this machine. -/
abbrev Outcome := Host.Outcome State Fault Refusal

/-! ### Buffer entries (00_scope.md rule R15, 10_state.md rules R20 to R22) -/

/-- The word in entry `i` of BUF_A. No command or host access names an entry outside 0 to 255 (R60, R96). -/
def State.entryA (s : State) (i : Nat) : Word := s.bufA[i]?.getD 0

/-- `A[i]`, read as an int32 (R15). -/
def State.coefA (s : State) (i : Nat) : Int := (s.entryA i).toInt

/-- `A[i] <- v` (R15). -/
def State.putA (i : Nat) (v : Word) (s : State) : State := { s with bufA := s.bufA.setIfInBounds i v }

/-- The halfword in entry `i` of BUF_B. No command or host access names an entry outside 0 to 1023 (R60, R96). -/
def State.entryB (s : State) (i : Nat) : Half := s.bufB[i]?.getD 0

/-- `B[i]`, read as a u16 (R15). -/
def State.coefB (s : State) (i : Nat) : Nat := (s.entryB i).toNat

/-- `B[i] <- v` (R15). -/
def State.putB (i : Nat) (v : Half) (s : State) : State := { s with bufB := s.bufB.setIfInBounds i v }

/-! ### Free values (93_implementation_defined.md) -/

/-- `st32(v)` (40_arith_primitives.md rule R124): the int32 `v`, or the `n`-th free int32 when `v` does not fit (U2).
Also answers the number of values drawn so far. -/
def st32 (v : Int) (n : Nat) : Word × Nat :=
  if FitsInt32 v then (int32 v, n) else (Config.freeA n, n + 1)

/-- Every entry of BUF_A takes a free int32 (U3). -/
def State.scrambleA (s : State) : State :=
  { s with bufA := tabulate 256 (fun i => Config.freeA (s.draws + i)), draws := s.draws + 256 }

/-- Every entry of BUF_B takes a free u16 (U1, U3). -/
def State.scrambleB (s : State) : State :=
  { s with bufB := tabulate 1024 (fun i => Config.freeB (s.draws + i)), draws := s.draws + 1024 }

/-- The indices of a buffer of `n` entries, in rising order. Irreducible so that no unifier unrolls a thousand of them. -/
@[irreducible] def indices (n : Nat) : List Nat := List.range n

/-- Every undefined entry of BUF_A takes a fresh free int32 (R73, U3): no value that a command stored there is kept. -/
def State.refreshA (s : State) : State :=
  if s.undefA = [] then s
  else
    { s with
      bufA := tabulate 256 (fun i => if i ∈ s.undefA then Config.freeA (s.draws + i) else s.entryA i)
      draws := s.draws + 256 }

/-- Every undefined entry of BUF_B takes a fresh free u16 (R73, U3). -/
def State.refreshB (s : State) : State :=
  if s.undefB = [] then s
  else
    { s with
      bufB := tabulate 1024 (fun i => if i ∈ s.undefB then Config.freeB (s.draws + i) else s.entryB i)
      draws := s.draws + 1024 }

/-! ### Taking a command fault, and clearing it (60_exceptions.md rules R224 to R226) -/

/-- `raise Fault_X(c)` on one unit (R224): the oldest uncleared cause is kept (R226). -/
def Engine.raise {w : Nat} (c : Cause) (e : Engine w) : Engine w :=
  { e with cause := if e.err then e.cause else c, err := true }

/-- `raise Fault_X(c)` (R224): taking a command fault. Nothing else changes. -/
def State.raise (x : Eng) (c : Cause) (s : State) : State :=
  match x with
  | .a => { s with a := s.a.raise c }
  | .b => { s with b := s.b.raise c }

/-- The return from a command fault (R225): the STATUS write whose bit for unit X is set, and no other bit. -/
def State.clearFault (x : Eng) (s : State) : State :=
  match x with
  | .a => s.writeStatus 0x00000004
  | .b => s.writeStatus 0x00000400

/-! ### Acceptance, advance and completion (10_state.md rules R40 to R42, 30_encoding.md rule R104) -/

/-- Acceptance of the command word `w` by an idle unit (R104). -/
def Engine.accept {n : Nat} (w : Word) (e : Engine n) : Engine n :=
  { e with cur := w, seq := 0, busy := true, done := false }

/-- Completion (R40, R42). CUR_X and SEQ_X.step are unspecified from then on (R40, R41, U7): they take the values handed
over. -/
def Engine.complete {w : Nat} (cur : Word) (seq : BitVec w) (e : Engine w) : Engine w :=
  { e with busy := false, done := true, cur := cur, seq := seq, completions := e.completions + 1 }

/-- The advance after a micro-operation of a command of `n` steps (R40, R41): the counter goes up by one, and when it
reaches `n` the unit completes, which makes it `fin`. -/
def Engine.advance {w : Nat} (n : Nat) (e fin : Engine w) : Engine w :=
  if e.seq.toNat + 1 = n then fin else { e with seq := e.seq + 1 }

/-- ENG_A once its command has completed, CUR_A and SEQ_A.step free (U7). -/
def State.completedA (s : State) : Engine 11 :=
  s.a.complete (Config.idleCurA s.a.completions) (Config.idleSeqA s.a.completions)

/-- ENG_B once its command has completed, CUR_B and SEQ_B.step free (U7). -/
def State.completedB (s : State) : Engine 13 :=
  s.b.complete (Config.idleCurB s.b.completions) (Config.idleSeqB s.b.completions)

/-- Whether unit X is busy. -/
def State.busy (x : Eng) (s : State) : Bool :=
  match x with
  | .a => s.a.busy
  | .b => s.b.busy

/-- CUR_X. -/
def State.cur (x : Eng) (s : State) : Word :=
  match x with
  | .a => s.a.cur
  | .b => s.b.cur

/-- The last check of R104 and the acceptance, on ENG_A: an operand out of range is rejected with cause 3 (R96). -/
def State.presentA (i : Instr) (s : State) : State :=
  if operandsInRange i then { s with a := s.a.accept (encode i) } else s.raise .a .operandRange

/-- The last check of R104 and the acceptance, on ENG_B. -/
def State.presentB (i : Instr) (s : State) : State :=
  if operandsInRange i then { s with b := s.b.accept (encode i) } else s.raise .b .operandRange

/-- One step in the life of an ENG_A command (R40, R104): presented to an idle unit it is accepted or rejected; on a busy
unit it is the running command, and `run` is its next engine step, after which the undefined entries are undefined as before
(R73). (A CMD write to a busy unit is rejected before the word is decoded, so it never comes here.) -/
def commandA (i : Instr) (run : State → State) (s : State) : Outcome :=
  .next (if s.a.busy then (run s).refreshA else s.presentA i)

/-- One step in the life of an ENG_B command (R40, R104). -/
def commandB (i : Instr) (run : State → State) (s : State) : Outcome :=
  .next (if s.b.busy then (run s).refreshB else s.presentB i)

end Sys2Proof.Machine
end

