-- ==== Sys2Proof/Machine/RingA.lean ====
section
/-! DEFINITION. ENG_A: its five micro-operations, its engine step, and the single-step commands that issue one
micro-operation each (41_ring_a_butterflies.md rules R140 to R145). -/

namespace Sys2Proof.Machine

/-- The micro-operations of ENG_A (R140, R158), with the operands the rules name. -/
inductive MicroA where
  | nothing
  | bfct (j lg k : Nat)
  | bfgs (j lg k : Nat)
  | fscale (j : Nat)
  | redc (j : Nat)
  | freeze (j : Nat)
  deriving DecidableEq, Repr

/-- One Cooley–Tukey butterfly (R141). The two stores draw their free values apart (U2). -/
def bfctAOp (j lg k : Nat) (s : State) : State :=
  let t := redcA (zetaA k * s.coefA (partner j lg))
  let lo := st32 (s.coefA j - t) s.draws
  let hi := st32 (s.coefA j + t) lo.2
  { ((s.putA (partner j lg) lo.1).putA j hi.1) with draws := hi.2 }

/-- One Gentleman–Sande butterfly (R142). Where the difference overflows, the entry written from it is free (U2). -/
def bfgsAOp (j lg k : Nat) (s : State) : State :=
  let t := s.coefA j
  let u := t - s.coefA (partner j lg)
  let sum := st32 (t + s.coefA (partner j lg)) s.draws
  let diff :=
    if FitsInt32 u then (int32 (redcA (-zetaA k * u)), sum.2) else (Config.freeA sum.2, sum.2 + 1)
  { ((s.putA j sum.1).putA (partner j lg) diff.1) with draws := diff.2 }

/-- The final scaling of one coefficient (R143). -/
def fscaleAOp (j : Nat) (s : State) : State := s.putA j (int32 (redcA (F_A * s.coefA j)))

/-- The Montgomery reduction of one coefficient (R144). -/
def redcAOp (j : Nat) (s : State) : State := s.putA j (int32 (redcA (s.coefA j)))

/-- The canonical representative of one coefficient (R145). -/
def freezeAOp (j : Nat) (s : State) : State := s.putA j (int32 (freezeA (s.coefA j)))

/-- The effect of a micro-operation on BUF_A. -/
def microA : MicroA → State → State
  | .nothing, s => s
  | .bfct j lg k, s => bfctAOp j lg k s
  | .bfgs j lg k, s => bfgsAOp j lg k s
  | .fscale j, s => fscaleAOp j s
  | .redc j, s => redcAOp j s
  | .freeze j, s => freezeAOp j s

/-- One engine step of ENG_A (R40): the micro-operation `uop (SEQ_A.step)` of a command of `n` steps, then the advance. -/
def engineStepA (n : Nat) (uop : Nat → MicroA) (s : State) : State :=
  { microA (uop s.a.seq.toNat) s with a := s.a.advance n s.completedA }

/-- `bfct.a j, lg, k` (R141). -/
def execBfctA (j : BitVec 10) (lg : BitVec 4) (k : BitVec 10) (s : State) : Outcome :=
  commandA (.bfctA j lg k) (engineStepA 1 fun _ => .bfct j.toNat lg.toNat k.toNat) s

/-- `bfgs.a j, lg, k` (R142). -/
def execBfgsA (j : BitVec 10) (lg : BitVec 4) (k : BitVec 10) (s : State) : Outcome :=
  commandA (.bfgsA j lg k) (engineStepA 1 fun _ => .bfgs j.toNat lg.toNat k.toNat) s

/-- `fscale.a j` (R143). -/
def execFscaleA (j : BitVec 10) (s : State) : Outcome :=
  commandA (.fscaleA j) (engineStepA 1 fun _ => .fscale j.toNat) s

/-- `redc.a j` (R144). -/
def execRedcA (j : BitVec 10) (s : State) : Outcome :=
  commandA (.redcA j) (engineStepA 1 fun _ => .redc j.toNat) s

/-- `freeze.a j` (R145). -/
def execFreezeA (j : BitVec 10) (s : State) : Outcome :=
  commandA (.freezeA j) (engineStepA 1 fun _ => .freeze j.toNat) s

end Sys2Proof.Machine
end

