-- ==== Sys2Proof/Machine/RingATransforms.lean ====
section
/-! DEFINITION. The whole transforms of ENG_A: the schedule function (42_ring_a_transforms.md rule R158), the loop nests it
enumerates (R150, R151, R153), and the macro commands. -/

namespace Sys2Proof.Machine

/-- `steps_A(ntt.a)` (R158). -/
def stepsNttA : Nat := 1024

/-- `steps_A(intt.a.mont)` (R158). -/
def stepsInttAMont : Nat := 1280

/-- `steps_A(intt.a)` (R158). -/
def stepsInttA : Nat := 1792

/-- `uop_A(ntt.a, s)` (R158). -/
def uopNttA (s : Nat) : MicroA :=
  let layer := s / 128
  let p := s % 128
  let lg := 7 - layer
  let len := 2 ^ lg
  .bfct (2 * len * (p / len) + p % len) lg (2 ^ layer + p / len)

/-- The butterflies of the inverse transforms (R158): `uop_A(intt.a, s)` for `s < 1024`. -/
def uopInverseLayersA (s : Nat) : MicroA :=
  let layer := s / 128
  let p := s % 128
  let len := 2 ^ layer
  .bfgs (2 * len * (p / len) + p % len) layer (2 ^ (8 - layer) - 1 - p / len)

/-- `uop_A(intt.a.mont, s)` (R158). -/
def uopInttAMont (s : Nat) : MicroA :=
  if s < 1024 then uopInverseLayersA s else .fscale (s - 1024)

/-- `uop_A(intt.a, s)` (R158). -/
def uopInttA (s : Nat) : MicroA :=
  if s < 1024 then uopInverseLayersA s
  else if s < 1280 then .fscale (s - 1024)
  else if (s - 1280) % 2 = 0 then .redc ((s - 1280) / 2)
  else .freeze ((s - 1280) / 2)

/-! ### The loop nests as the rules write them -/

/-- The starts `0, 2·len, 4·len, … < 256` of a layer (R150, R151). -/
def startsA (len : Nat) : List Nat := (List.range (256 / (2 * len))).map fun b => b * (2 * len)

/-- One layer of R150: `k` counts up before each block. Answers the last `k` and the micro-operations. -/
def forwardLayerA (k lg : Nat) : Nat × List MicroA :=
  (startsA (2 ^ lg)).foldl
    (fun acc start =>
      (acc.1 + 1, acc.2 ++ (List.range (2 ^ lg)).map fun t => .bfct (start + t) lg (acc.1 + 1)))
    (k, [])

/-- The loop nest of `ntt.a` (R150): `k` from 0, `lg` from 7 down to 0. -/
def loopNttA : List MicroA :=
  ([7, 6, 5, 4, 3, 2, 1, 0].foldl
    (fun acc lg => ((forwardLayerA acc.1 lg).1, acc.2 ++ (forwardLayerA acc.1 lg).2)) (0, [])).2

/-- One layer of R151: `k` counts down before each block. -/
def inverseLayerA (k lg : Nat) : Nat × List MicroA :=
  (startsA (2 ^ lg)).foldl
    (fun acc start =>
      (acc.1 - 1, acc.2 ++ (List.range (2 ^ lg)).map fun t => .bfgs (start + t) lg (acc.1 - 1)))
    (k, [])

/-- The loop nest of `intt.a.mont` (R151): `k` from 256, `lg` from 0 up to 7, then the scalings. -/
def loopInttAMont : List MicroA :=
  ([0, 1, 2, 3, 4, 5, 6, 7].foldl
    (fun acc lg => ((inverseLayerA acc.1 lg).1, acc.2 ++ (inverseLayerA acc.1 lg).2)) (256, [])).2
  ++ (List.range 256).map fun j => .fscale j

/-- The loop nest of `intt.a` (R153): that of `intt.a.mont`, then one reduction and one freeze per coefficient. -/
def loopInttA : List MicroA :=
  loopInttAMont ++ (List.range 256).flatMap fun i => [.redc i, .freeze i]

/-- A list of micro-operations performed one after another on BUF_A. -/
def runMicroA (ms : List MicroA) (s : State) : State := ms.foldl (fun t m => microA m t) s

/-! ### The macro commands -/

/-- `ntt.a` (R150). -/
def execNttA (s : State) : Outcome := commandA .nttA (engineStepA stepsNttA uopNttA) s

/-- `intt.a.mont` (R151). -/
def execInttAMont (s : State) : Outcome := commandA .inttAMont (engineStepA stepsInttAMont uopInttAMont) s

/-- `intt.a` (R153). -/
def execInttA (s : State) : Outcome := commandA .inttA (engineStepA stepsInttA uopInttA) s

end Sys2Proof.Machine
end

