-- ==== Sys2Proof/Machine/RingB.lean ====
section
/-! DEFINITION. ENG_B: its three micro-operations, its engine step, and the single-step commands that issue one
micro-operation each (43_ring_b_butterflies.md rules R170 to R173). -/

namespace Sys2Proof.Machine

/-- The micro-operations of ENG_B (R170, R182), with the operands the rules name. -/
inductive MicroB where
  | nothing
  | bfct (j lg x : Nat)
  | bfgs (j lg x : Nat)
  | nscale (j logn : Nat)
  deriving DecidableEq, Repr

/-- The operand range of Ring-B (40_arith_primitives.md rule R128): `[0, QB)`. -/
abbrev CanonicalB (v : Nat) : Prop := v < QB

/-- The two entries of a Ring-B butterfly written with the results `x` and `y`, if both operands read are in range;
otherwise each entry written is a free u16 (R128, U4). -/
def storePairB (j lg : Nat) (x y : Nat) (s : State) : State :=
  if CanonicalB (s.coefB j) ∧ CanonicalB (s.coefB (partner j lg)) then
    (s.putB j (u16 x)).putB (partner j lg) (u16 y)
  else
    { ((s.putB j (Config.freeB s.draws)).putB (partner j lg) (Config.freeB (s.draws + 1))) with
      draws := s.draws + 2 }

/-- One Cooley–Tukey butterfly (R171). -/
def bfctBOp (j lg x : Nat) (s : State) : State :=
  let u := s.coefB j
  let v := mqMul (s.coefB (partner j lg)) (wB x)
  storePairB j lg (mqAdd u v) (mqSub u v) s

/-- One Gentleman–Sande butterfly (R172). -/
def bfgsBOp (j lg x : Nat) (s : State) : State :=
  let u := s.coefB j
  let v := s.coefB (partner j lg)
  storePairB j lg (mqAdd u v) (mqMul (mqSub u v) (negW x)) s

/-- The multiplication of one coefficient by the inverse of the size (R173); an operand out of range writes a free u16
(R128, U4). -/
def nscaleBOp (j logn : Nat) (s : State) : State :=
  if CanonicalB (s.coefB j) then s.putB j (u16 (mqMul (s.coefB j) (ninvB logn)))
  else { s.putB j (Config.freeB s.draws) with draws := s.draws + 1 }

/-- The effect of a micro-operation on BUF_B. -/
def microB : MicroB → State → State
  | .nothing, s => s
  | .bfct j lg x, s => bfctBOp j lg x s
  | .bfgs j lg x, s => bfgsBOp j lg x s
  | .nscale j logn, s => nscaleBOp j logn s

/-- One engine step of ENG_B (R40): the micro-operation `uop (SEQ_B.step)` of a command of `n` steps, then the advance. -/
def engineStepB (n : Nat) (uop : Nat → MicroB) (s : State) : State :=
  { microB (uop s.b.seq.toNat) s with b := s.b.advance n s.completedB }

/-- One engine step of `ntt.b` or `intt.b` with `logn` outside 1 to 10 (R187, U1). The effect on BUF_B is undefined, and so
is when or whether ENG_B completes: every entry takes a free value, a free bit says whether the unit completes, and the
schedule counter is free. Nothing else changes: no fault is raised. -/
def undefinedStepB (s : State) : State :=
  { s.scrambleB with
    b := if Config.freeDone s.draws then s.completedB else { s.b with seq := Config.freeSeqB s.draws } }

/-- `bfct.b j, lg, x` (R171). -/
def execBfctB (j : BitVec 10) (lg : BitVec 4) (x : BitVec 10) (s : State) : Outcome :=
  commandB (.bfctB j lg x) (engineStepB 1 fun _ => .bfct j.toNat lg.toNat x.toNat) s

/-- `bfgs.b j, lg, x` (R172). -/
def execBfgsB (j : BitVec 10) (lg : BitVec 4) (x : BitVec 10) (s : State) : Outcome :=
  commandB (.bfgsB j lg x) (engineStepB 1 fun _ => .bfgs j.toNat lg.toNat x.toNat) s

/-- `nscale.b j, logn` (R173). -/
def execNscaleB (j : BitVec 10) (logn : BitVec 4) (s : State) : Outcome :=
  commandB (.nscaleB j logn) (engineStepB 1 fun _ => .nscale j.toNat logn.toNat) s

end Sys2Proof.Machine
end

