-- ==== Sys2Proof/Machine/RingBTransforms.lean ====
section
/-! DEFINITION. The whole transforms of ENG_B: the schedule function (44_ring_b_transforms.md rule R182), the loop nests it
enumerates (R180, R181), and the macro commands. -/

namespace Sys2Proof.Machine

/-- `steps_B(ntt.b logn)` (R182): `logn · n/2`. -/
def stepsNttB (logn : Nat) : Nat := logn * (2 ^ logn / 2)

/-- `steps_B(intt.b logn)` (R182): `logn · n/2 + n`. -/
def stepsInttB (logn : Nat) : Nat := logn * (2 ^ logn / 2) + 2 ^ logn

/-- `uop_B(ntt.b logn, s)` (R182). -/
def uopNttB (logn s : Nat) : MicroB :=
  let h := 2 ^ logn / 2
  let d := s / h
  let p := s % h
  let m := 2 ^ d
  let t := 2 ^ logn / m
  let ht := t / 2
  .bfct (p / ht * t + p % ht) (logn - 1 - d) (m + p / ht)

/-- `uop_B(intt.b logn, s)` (R182). -/
def uopInttB (logn s : Nat) : MicroB :=
  let h := 2 ^ logn / 2
  if s < logn * h then
    let d := s / h
    let p := s % h
    let t := 2 ^ d
    let hm := 2 ^ logn / 2 ^ (d + 1)
    .bfgs (p / t * 2 * t + p % t) d (2 * hm - 1 - p / t)
  else .nscale (s - logn * h) logn

/-! ### The loop nests as the rules write them -/

/-- The body of the outer loop of R180 for `m` blocks of length `t` at distance `2^lg`. -/
def forwardLayerB (m t lg : Nat) : List MicroB :=
  (List.range m).flatMap fun i => (List.range (t / 2)).map fun o => .bfct (i * t + o) lg (m + i)

/-- The outer loop of R180 with `k` layers left: `t` halves, `m` doubles, `lg` falls to 0. -/
def forwardLoopB : Nat → Nat → Nat → List MicroB
  | 0, _, _ => []
  | k + 1, t, m => forwardLayerB m t k ++ forwardLoopB k (t / 2) (2 * m)

/-- The loop nest of `ntt.b logn` (R180): `t` from `n`, `m` from 1. -/
def loopNttB (logn : Nat) : List MicroB := forwardLoopB logn (2 ^ logn) 1

/-- The body of the outer loop of R181 for `hm` blocks of length `2·t` at distance `t = 2^lg`. -/
def inverseLayerB (hm t lg : Nat) : List MicroB :=
  (List.range hm).flatMap fun i => (List.range t).map fun o => .bfgs (i * 2 * t + o) lg (2 * hm - 1 - i)

/-- The outer loop of R181 with `k` layers left, `lg` layers done: `t` doubles, `m` halves. -/
def inverseLoopB : Nat → Nat → Nat → Nat → List MicroB
  | 0, _, _, _ => []
  | k + 1, lg, t, m => inverseLayerB (m / 2) t lg ++ inverseLoopB k (lg + 1) (2 * t) (m / 2)

/-- The loop nest of `intt.b logn` (R181): `t` from 1, `m` from `n`, then the scalings. -/
def loopInttB (logn : Nat) : List MicroB :=
  inverseLoopB logn 0 1 (2 ^ logn) ++ (List.range (2 ^ logn)).map fun j => .nscale j logn

/-- A list of micro-operations performed one after another on BUF_B. -/
def runMicroB (ms : List MicroB) (s : State) : State := ms.foldl (fun t m => microB m t) s

/-! ### The macro commands -/

/-- One engine step of a Ring-B transform of size `2^logn`: defined for 1 to 10 (R180, R181), undefined outside (R187). -/
def transformStepB (logn : Nat) (n : Nat) (uop : Nat → MicroB) (s : State) : State :=
  if legalLogn logn then engineStepB n uop s else undefinedStepB s

/-- `ntt.b logn` (R180, R187). -/
def execNttB (logn : BitVec 4) (s : State) : Outcome :=
  commandB (.nttB logn) (transformStepB logn.toNat (stepsNttB logn.toNat) (uopNttB logn.toNat)) s

/-- `intt.b logn` (R181, R187). -/
def execInttB (logn : BitVec 4) (s : State) : Outcome :=
  commandB (.inttB logn) (transformStepB logn.toNat (stepsInttB logn.toNat) (uopInttB logn.toNat)) s

end Sys2Proof.Machine
end

