-- ==== Sys2Proof/Machine/System.lean ====
section
/-! DEFINITION. The system commands `nop.a` and `nop.b` (45_system_commands.md rules R200 and R201), and the step counts of
all commands in one place (R158, R182, 70_reset_and_hazards.md rule R262). -/

namespace Sys2Proof.Machine

/-- `nop.a` (R200): one step that reads and writes nothing, then completion. -/
def execNopA (s : State) : Outcome := commandA .nopA (engineStepA 1 fun _ => .nothing) s

/-- `nop.b` (R201). -/
def execNopB (s : State) : Outcome := commandB .nopB (engineStepB 1 fun _ => .nothing) s

/-- `steps_X(cmd)` (R158, R182); none for a Ring-B transform with out-of-range `logn` (R187). -/
def stepCount : Instr → Option Nat
  | .nopA => some 1
  | .nttA => some stepsNttA
  | .inttAMont => some stepsInttAMont
  | .inttA => some stepsInttA
  | .bfctA _ _ _ => some 1
  | .bfgsA _ _ _ => some 1
  | .fscaleA _ => some 1
  | .redcA _ => some 1
  | .freezeA _ => some 1
  | .nopB => some 1
  | .nttB logn => if legalLogn logn.toNat then some (stepsNttB logn.toNat) else none
  | .inttB logn => if legalLogn logn.toNat then some (stepsInttB logn.toNat) else none
  | .bfctB _ _ _ => some 1
  | .bfgsB _ _ _ => some 1
  | .nscaleB _ _ => some 1

end Sys2Proof.Machine
end

