-- ==== Sys2Proof/Machine/Dispatch.lean ====
section
/-! DEFINITION. The meaning of every command, one arm each. `exec i s` is one step in the life of command `i`: presented
to its idle unit it is accepted or rejected (30_encoding.md rule R104); running on its busy unit it performs the next
micro-operation (10_state.md rule R40). -/

namespace Sys2Proof.Machine

def exec (i : Instr) (s : State) : Host.Outcome State Fault Refusal :=
  match i with
  | .nopA => Sys2Proof.Machine.execNopA s
  | .nttA => Sys2Proof.Machine.execNttA s
  | .inttAMont => Sys2Proof.Machine.execInttAMont s
  | .inttA => Sys2Proof.Machine.execInttA s
  | .bfctA j lg k => Sys2Proof.Machine.execBfctA j lg k s
  | .bfgsA j lg k => Sys2Proof.Machine.execBfgsA j lg k s
  | .fscaleA j => Sys2Proof.Machine.execFscaleA j s
  | .redcA j => Sys2Proof.Machine.execRedcA j s
  | .freezeA j => Sys2Proof.Machine.execFreezeA j s
  | .nopB => Sys2Proof.Machine.execNopB s
  | .nttB logn => Sys2Proof.Machine.execNttB logn s
  | .inttB logn => Sys2Proof.Machine.execInttB logn s
  | .bfctB j lg x => Sys2Proof.Machine.execBfctB j lg x s
  | .bfgsB j lg x => Sys2Proof.Machine.execBfgsB j lg x s
  | .nscaleB j logn => Sys2Proof.Machine.execNscaleB j logn s

end Sys2Proof.Machine
end

