-- ==== Sys2Proof/Machine/Window.lean ====
section
/-! DEFINITION. The host window: the map of 10_state.md rules R30 to R36, legal reads and writes (20_memory.md rules R63 and
R64), and the byte view of R65. The CMD write is in Machine/Agents.lean. -/

namespace Sys2Proof.Machine

/-- The offset of CMD (R30). -/
def offCmd : Nat := 0x0004

/-- The offset of STATUS (R30). -/
def offStatus : Nat := 0x0008

/-- ID and the constant registers (R30, R31, R35); every other offset below 0x1000 but STATUS reads 0: CMD (R32) and the
reserved offsets (R36). -/
def constantRegister (off : Nat) : Word :=
  if off = 0x0000 then ID_VALUE
  else if off = 0x0010 then BitVec.ofInt 32 QA
  else if off = 0x0014 then BitVec.ofNat 32 NA
  else if off = 0x0018 then BitVec.ofInt 32 ROOT_A
  else if off = 0x001C then BitVec.ofInt 32 RMODQ_A
  else if off = 0x0020 then BitVec.ofInt 32 NQINV_A
  else if off = 0x0024 then BitVec.ofInt 32 F_A
  else if off = 0x0030 then BitVec.ofNat 32 QB
  else if off = 0x0034 then BitVec.ofNat 32 NMAX_B
  else if off = 0x0038 then BitVec.ofNat 32 ROOT_B
  else 0

/-- The offset lies in the BUF_A window (R30). -/
abbrev InBufA (off : Nat) : Prop := 0x1000 ≤ off ∧ off < 0x1400

/-- The offset lies in the ZETA_A window (R30). -/
abbrev InZetaA (off : Nat) : Prop := 0x1400 ≤ off ∧ off < 0x1800

/-- The offset lies in the BUF_B window (R30). -/
abbrev InBufB (off : Nat) : Prop := 0x2000 ≤ off ∧ off < 0x3000

/-- The offset lies in the W_B window (R30). -/
abbrev InWB (off : Nat) : Prop := 0x3000 ≤ off ∧ off < 0x4000

/-- What a location holds (R63), the busy buffers and the undefined entries apart. -/
def State.peek (off : Nat) (s : State) : Word :=
  if off = offStatus then s.status
  else if InBufA off then s.entryA ((off - 0x1000) / 4)
  else if InZetaA off then int32 (zetaA ((off - 0x1400) / 4))
  else if InBufB off then (s.entryB ((off - 0x2000) / 4)).setWidth 32
  else if InWB off then BitVec.ofNat 32 (wB ((off - 0x3000) / 4))
  else constantRegister off

/-- The offset is one of the buffer of a busy unit (R73). -/
abbrev State.InBusyBuffer (off : Nat) (s : State) : Prop :=
  (InBufA off ∧ s.a.busy = true) ∨ (InBufB off ∧ s.b.busy = true)

/-- A legal read (R63): the location's value, or a fresh free one from a busy unit's buffer or an entry that is undefined
since the host wrote it then (R73, U3). No read has any other effect. -/
def State.readWindow (off : Nat) (s : State) : State :=
  if s.InBusyBuffer off then { s with reply := some (.data (Config.freeRead s.draws)), draws := s.draws + 1 }
  else if InBufA off ∧ (off - 0x1000) / 4 ∈ s.undefA then
    { s with reply := some (.data (Config.freeA s.draws)), draws := s.draws + 1 }
  else if InBufB off ∧ (off - 0x2000) / 4 ∈ s.undefB then
    { s with reply := some (.data ((Config.freeB s.draws).setWidth 32)), draws := s.draws + 1 }
  else { s with reply := some (.data (s.peek off)) }

/-- A host write into BUF_A: `A[i] <- sint32(v)` (R64), which is then defined; or, while ENG_A is busy, the whole of BUF_A
becomes undefined (R73, U3). -/
def State.hostWriteA (i : Nat) (v : Word) (s : State) : State :=
  if s.a.busy then { s.scrambleA with undefA := indices 256 }
  else { s.putA i v with undefA := s.undefA.filter (· != i) }

/-- A host write into BUF_B: `B[i] <- v[15:0]` (R64), which is then defined; or, while ENG_B is busy, the whole of BUF_B
becomes undefined (R73, U3). -/
def State.hostWriteB (i : Nat) (v : Word) (s : State) : State :=
  if s.b.busy then { s.scrambleB with undefB := indices 1024 }
  else { s.putB i (v.setWidth 16) with undefB := s.undefB.filter (· != i) }

/-- The effect of a legal write anywhere but CMD (R64): constants, ROMs and reserved offsets ignore it. -/
def State.poke (off : Nat) (v : Word) (s : State) : State :=
  if off = offStatus then s.writeStatus v
  else if InBufA off then s.hostWriteA ((off - 0x1000) / 4) v
  else if InBufB off then s.hostWriteB ((off - 0x2000) / 4) v
  else s

/-- A legal transaction (R66): four bytes at a multiple of four. -/
abbrev LegalAccess (off size : Nat) : Prop := size = 4 ∧ off % 4 = 0

/-- The host address of an offset (R10, R30). -/
def hostAddress (off : Nat) : Nat := Config.base + off

/-- The little-endian view (R65): the byte at offset `off` of the word `w` at the multiple of four below it. Byte `k` of a
word is bits `8k+7 : 8k`. -/
def byteOfWord (w : Word) (off : Nat) : BitVec 8 := w.extractLsb' (8 * (off % 4)) 8

end Sys2Proof.Machine
end

