-- ==== Sys2Proof/Machine/Agents.lean ====
section
/-! DEFINITION. What each agent does in its turn (00_scope.md rule R12, 20_memory.md rule R70): the host's next operation, an
engine step, or the reset input (70_reset_and_hazards.md rule R250). -/

namespace Sys2Proof.Machine

/-- The write of `w` to CMD (R104): UNIT_BUSY first, then the decode errors, then the command itself, which checks its
operands and is accepted. -/
def presentCommand (w : Word) (s : State) : Outcome :=
  if s.busy (unitField w) then .next (s.raise (unitField w) .unitBusy)
  else
    match decode w with
    | .error e => .next (s.raise (unitField w) (causeOf e))
    | .ok i => exec i s

/-- One transaction (R61 to R66). A malformed one gets the response error and changes nothing (R66, R222); one outside the
window is not NTTE's to answer (R36). -/
def transact (t : Txn) (s : State) : Outcome :=
  match t with
  | .read off size =>
    if WINDOW_SIZE ≤ off then .fault .outsideWindow
    else if LegalAccess off size then .next (s.readWindow off)
    else .next { s with reply := some .error }
  | .write off size v =>
    if WINDOW_SIZE ≤ off then .fault .outsideWindow
    else if LegalAccess off size then
      if off = offCmd then presentCommand v { s with reply := some .written }
      else .next ({ s with reply := some .written }.poke off v)
    else .next { s with reply := some .error }

/-- The host's turn: the oldest pending operation (R62). `wait.x` reads STATUS once and stays in the queue while the unit's
BUSY bit reads 1 (R102). With nothing pending, nothing happens. -/
def hostTurn (s : State) : Outcome :=
  match s.port with
  | [] => .next s
  | .txn t :: rest => transact t { s with port := rest }
  | .wait x :: rest =>
    .next { s with reply := some (.data s.status), port := if s.busy x then s.port else rest }

/-- A unit's turn (R40): the next engine step of the command in CUR_X; an idle unit does nothing. -/
def engineTurn (x : Eng) (s : State) : Outcome :=
  if s.busy x then
    match decode (s.cur x) with
    | .ok i => if unitOf i = x then exec i s else .fault .notACommand
    | .error _ => .fault .notACommand
  else .next s

/-- A pulse of the reset input (R250): every piece of NTTE's state takes its reset value; the buffers' contents become
unspecified anew. The host's pending operations and the schedule are outside NTTE and stay, and so do the counters that
index the free values. -/
def State.pulseReset (s : State) : State :=
  let t := State.atReset (s.resets + 1)
  { t with
    a := { t.a with completions := s.a.completions }
    b := { t.b with completions := s.b.completions }
    port := s.port
    sched := s.sched
    turn := s.turn
    draws := s.draws }

/-- The unit whose turn closes round `n`: the two alternate. -/
def closingUnit (n : Nat) : Agent := if n % 2 = 0 then .engA else .engB

/-- Round `n` of the schedule (R70): any finite list of turns, then a turn of a unit. So a busy unit is never passed over for
ever (fairness: R70, R262, U12); and every order of turns in which both units keep getting turns is a sequence of such
rounds, cut after a turn of ENG_A and a turn of ENG_B by turns. -/
def scheduleRound (n : Nat) : List Turn := (Config.sched n ++ [closingUnit n]).map Turn.agent

/-- The coming turns: those of the list, or the next round once it is used up. -/
def State.turns (s : State) : List Turn :=
  match s.sched with
  | [] => scheduleRound s.turn
  | t :: rest => t :: rest

/-- Who takes the next turn (R70). There always is one, since no round is empty. -/
def State.nextTurn (s : State) : Turn := s.turns.headD (.agent .host)

/-- The state once its next turn has been taken from the schedule. -/
def State.takeTurn (s : State) : State :=
  { s with
    sched := s.turns.tail
    turn := if s.sched.isEmpty then s.turn + 1 else s.turn }

/-- The turn `t`, taken in `s`. -/
def playTurn (t : Turn) (s : State) : Outcome :=
  match t with
  | .reset => .next s.pulseReset
  | .agent .host => hostTurn s
  | .agent .engA => engineTurn .a s
  | .agent .engB => engineTurn .b s

end Sys2Proof.Machine
end

