-- ==== Sys2Proof/Machine/Step.lean ====
section
/-! DEFINITION. One step of the machine: one whole step of one agent (20_memory.md rule R70), and where a command is
handed to it. -/

namespace Sys2Proof.Machine

/-- One step: the next turn of the schedule. -/
def step (s : State) : Host.Outcome State Fault Refusal := playTurn s.nextTurn s.takeTurn

/-- `s` with the command word `w` about to be written to CMD: NTTE has no instruction memory, a command is a single word
handed over by the host (10_state.md rules R32, R41), so the word stands as the oldest pending transaction of the host, and
the host has the next turn (log 4). -/
def State.withFetchWord (s : State) (nbits w : Nat) : State :=
  { s with
    sched := .agent .host :: s.sched
    port := .txn (.write offCmd 4 (BitVec.ofNat 32 (w % 2 ^ nbits))) :: s.port }

end Sys2Proof.Machine
end

