-- ==== Sys2Proof/Machine/HostProgram.lean ====
section
/-! DEFINITION. What a host writes: the pseudo-operations (30_encoding.md rule R102), the aliases of the dispatch layer
(R103) and the assembler syntax (R101). -/

namespace Sys2Proof.Machine

/-! ### Host pseudo-operations (R102) -/

/-- `wr off, v` -/
def wr (off : Nat) (v : Word) : HostOp := .txn (.write off 4 v)

/-- `rd off` -/
def rd (off : Nat) : HostOp := .txn (.read off 4)

/-- A command on a line of its own: its word written to CMD. -/
def command (i : Instr) : HostOp := wr offCmd (encode i)

/-- `ld.a i, v` -/
def ldA (i : Nat) (v : Int) : HostOp := wr (0x1000 + 4 * i) (int32 v)

/-- `ld.b i, v` -/
def ldB (i v : Nat) : HostOp := wr (0x2000 + 4 * i) (BitVec.ofNat 32 v)

/-- `st.a i` -/
def stA (i : Nat) : HostOp := rd (0x1000 + 4 * i)

/-- `st.b i` -/
def stB (i : Nat) : HostOp := rd (0x2000 + 4 * i)

/-- How `st.a` reads the word of a reply: as a sint32. -/
def replyInt (w : Word) : Int := w.toInt

/-! ### Aliases (R103) -/

/-- The dispatch layer's names, each with the row of R93 it expands to, operands and all. The three ML-DSA prefixes name the
one Ring-A engine. -/
def aliases : List (String × Opcode) :=
  [("mldsa44_ntt", .nttA), ("mldsa65_ntt", .nttA), ("mldsa87_ntt", .nttA),
   ("mldsa44_invntt_tomont", .inttAMont), ("mldsa65_invntt_tomont", .inttAMont), ("mldsa87_invntt_tomont", .inttAMont),
   ("mldsa44_invntt", .inttA), ("mldsa65_invntt", .inttA), ("mldsa87_invntt", .inttA),
   ("falcon_ntt", .nttB), ("falcon_intt", .inttB)]

/-- The Falcon variants (R103). -/
inductive FalconVariant where
  | falcon512
  | falcon1024
  | padded512
  | padded1024
  deriving DecidableEq, Repr

/-- The size a Falcon variant uses: 9 for the 512 variants, 10 for the 1024 variants. -/
def FalconVariant.logn : FalconVariant → BitVec 4
  | .falcon512 => 9
  | .padded512 => 9
  | .falcon1024 => 10
  | .padded1024 => 10

/-! ### Assembler syntax (R101) -/

/-- The mnemonic column of R93. -/
def mnemonicOf : Opcode → String
  | .nopA => "nop.a"
  | .nttA => "ntt.a"
  | .inttAMont => "intt.a.mont"
  | .inttA => "intt.a"
  | .bfctA => "bfct.a"
  | .bfgsA => "bfgs.a"
  | .fscaleA => "fscale.a"
  | .redcA => "redc.a"
  | .freezeA => "freeze.a"
  | .nopB => "nop.b"
  | .nttB => "ntt.b"
  | .inttB => "intt.b"
  | .bfctB => "bfct.b"
  | .bfgsB => "bfgs.b"
  | .nscaleB => "nscale.b"

/-- The value of a digit in the given base, if it is one; `0x` digits are `0` to `9`, `a` to `f` and `A` to `F`. -/
def digitValue (base : Nat) (c : Char) : Option Nat :=
  let v :=
    if '0' ≤ c ∧ c ≤ '9' then some (c.toNat - 48)
    else if 'a' ≤ c ∧ c ≤ 'f' then some (c.toNat - 87)
    else if 'A' ≤ c ∧ c ≤ 'F' then some (c.toNat - 55)
    else none
  v.bind fun d => if d < base then some d else none

/-- The number a nonempty run of digits spells, after the digits that gave `acc`. -/
def digitsValue (base : Nat) : Nat → List Char → Option Nat
  | acc, [] => some acc
  | acc, c :: cs => (digitValue base c).bind fun d => digitsValue base (acc * base + d) cs

/-- A number, decimal or `0x` hexadecimal (R101). -/
def numberValue : List Char → Option Nat
  | [] => none
  | '0' :: 'x' :: c :: cs => digitsValue 16 0 (c :: cs)
  | c :: cs => digitsValue 10 0 (c :: cs)

/-- The blanks an assembler line may hold between its parts. -/
def isBlank (c : Char) : Bool := c == ' ' || c == '\t'

/-- A text without the blanks at its two ends. -/
def trimBlanks (cs : List Char) : List Char :=
  (cs.dropWhile isBlank).reverse.dropWhile isBlank |>.reverse

/-- The pieces of a text between commas. -/
def splitCommas : List Char → List (List Char)
  | [] => [[]]
  | c :: cs =>
    if c == ',' then [] :: splitCommas cs
    else
      match splitCommas cs with
      | [] => [[c]]
      | p :: ps => (c :: p) :: ps

/-- The operands of a line, separated by commas; none for an empty text. -/
def operandValues (cs : List Char) : Option (List Nat) :=
  if (trimBlanks cs).isEmpty then some []
  else (splitCommas cs).mapM fun p => numberValue (trimBlanks p)

/-- The operands of a row of R93 put into the fields of R91; none where their number does not fit the row or a value does
not fit its field. -/
def placeOperands (o : Opcode) (vs : List Nat) : Option Instr :=
  match o.format, vs with
  | .z, [] => some (o.command 0 0 0)
  | .l, [lg] => if lg < 16 then some (o.command 0 (BitVec.ofNat 4 lg) 0) else none
  | .i, [j] => if j < 1024 then some (o.command (BitVec.ofNat 10 j) 0 0) else none
  | .il, [j, lg] =>
    if j < 1024 ∧ lg < 16 then some (o.command (BitVec.ofNat 10 j) (BitVec.ofNat 4 lg) 0) else none
  | .p, [j, lg, tw] =>
    if j < 1024 ∧ lg < 16 ∧ tw < 1024 then
      some (o.command (BitVec.ofNat 10 j) (BitVec.ofNat 4 lg) (BitVec.ofNat 10 tw))
    else none
  | _, _ => none

/-- The names a line may begin with: the mnemonics of R93 and the aliases of R103. -/
def lineNames : List (String × Opcode) := opcodes.map (fun o => (mnemonicOf o, o)) ++ aliases

/-- A line of assembler (R101): the mnemonic or alias, its operands in the order of R93 separated by commas, and a comment
from `#` to the end. Answers the command, none where the line is no command. -/
def parseLine (line : List Char) : Option Instr :=
  let text := trimBlanks (line.takeWhile fun c => c != '#')
  let name := text.takeWhile fun c => !isBlank c
  (lineNames.find? fun n => n.1.toList == name).bind fun n =>
    (operandValues (text.drop name.length)).bind (placeOperands n.2)

end Sys2Proof.Machine
end

