-- ==== Sys2Proof/Safety.lean ====
section
/-! DEFINITION. The terms claims are made in: running units, whole runs of a command, the legal states of the machine, runs
without undefined behaviour, and what a buffer stands for (00_scope.md rule R18). -/

namespace Sys2Proof.Machine

/-! ### Running units -/

/-- ENG_A is running a command, `k` micro-operations of it are done, and no entry of BUF_A is undefined (R40, R73). -/
structure RunningA (k : Nat) (s : State) : Prop where
  busy : s.a.busy = true
  defined : s.undefA = []
  seq : s.a.seq.toNat = k

/-- ENG_B is running a command, `k` micro-operations of it are done, and no entry of BUF_B is undefined (R40, R73). -/
structure RunningB (k : Nat) (s : State) : Prop where
  busy : s.b.busy = true
  defined : s.undefB = []
  seq : s.b.seq.toNat = k

/-- ENG_A of `s` once its command has completed (R40, R42): idle, DONE set, CUR_A and SEQ_A.step free values (R41,
U7; log 2); ERR and CAUSE as before. -/
def finishedA (s : State) : Engine 11 :=
  { s.a with
    busy := false
    done := true
    cur := Config.idleCurA s.a.completions
    seq := Config.idleSeqA s.a.completions
    completions := s.a.completions + 1 }

/-- ENG_B of `s` once its command has completed (R40, R42). -/
def finishedB (s : State) : Engine 13 :=
  { s.b with
    busy := false
    done := true
    cur := Config.idleCurB s.b.completions
    seq := Config.idleSeqB s.b.completions
    completions := s.b.completions + 1 }

/-- ENG_A after micro-operation `k` of a command of `n` steps (R40): one step further, completed when that makes `n`. -/
def advancedA (k n : Nat) (s : State) : Engine 11 :=
  if k + 1 = n then finishedA s else { s.a with seq := BitVec.ofNat 11 (k + 1) }

/-- ENG_B after micro-operation `k` of a command of `n` steps (R40). -/
def advancedB (k n : Nat) (s : State) : Engine 13 :=
  if k + 1 = n then finishedB s else { s.b with seq := BitVec.ofNat 13 (k + 1) }

/-- The state once `k` turns have been taken from the schedule, no agent having acted. -/
def State.afterTurns : Nat → State → State
  | 0, s => s
  | k + 1, s => afterTurns k s.takeTurn

/-- The turn of a unit. -/
def unitTurn : Eng → Turn
  | .a => .agent .engA
  | .b => .agent .engB

/-- Fairness (R70, R262, U12): however many turns have been taken, each unit gets another one. -/
def State.Fair (s : State) : Prop := ∀ (x : Eng) (n : Nat), ∃ k, n ≤ k ∧ (s.afterTurns k).nextTurn = unitTurn x

/-- The transaction lies in the window (R30, R61). -/
abbrev Txn.InWindow : Txn → Prop
  | .read off _ => off < WINDOW_SIZE
  | .write off _ _ => off < WINDOW_SIZE

/-- `k` steps in the life of command `i`, one after another with nothing between them. -/
def execTimes (i : Instr) : Nat → State → Outcome
  | 0, s => .next s
  | k + 1, s =>
    match exec i s with
    | .next t => execTimes i k t
    | o => o

/-! ### Legal states -/

/-- CAUSE is 0 exactly when ERR is 0 (R33), and a busy unit has not completed (R42). -/
structure Engine.Legal {w : Nat} (e : Engine w) : Prop where
  cause : e.cause = .none ↔ e.err = false
  done : e.busy = true → e.done = false

/-- The legal states: each unit's flags are, and a busy unit's CUR_X is a well-formed command word of that unit with
SEQ_X.step below the command's step count (R40, R41, R104); for a Ring-B transform with out-of-range `logn` there is no
step count (R187). The undefined entries are listed in rising order (R73, log 6). -/
structure State.Legal (s : State) : Prop where
  a : s.a.Legal
  b : s.b.Legal
  runA : s.a.busy = true → ∃ i, decode s.a.cur = .ok i ∧ unitOf i = .a ∧ i.WellFormed ∧
    ∀ n, stepCount i = some n → s.a.seq.toNat < n
  runB : s.b.busy = true → ∃ i, decode s.b.cur = .ok i ∧ unitOf i = .b ∧ i.WellFormed ∧
    ∀ n, stepCount i = some n → s.b.seq.toNat < n
  undefA : s.undefA.Sublist (indices 256)
  undefB : s.undefB.Sublist (indices 1024)

/-- No free value was drawn from `s` to `t`: nothing the spec calls undefined happened between them
(93_implementation_defined.md U1 to U4). -/
abbrev NothingUndefined (s t : State) : Prop := t.draws = s.draws

/-- The bound of every entry of BUF_A. -/
abbrev BoundedA (m : Int) (s : State) : Prop := ∀ i, i < 256 → |s.coefA i| ≤ m

/-- The first `n` entries of BUF_B are in `[0, QB)` (R128). -/
abbrev CanonicalBufB (n : Nat) (s : State) : Prop := ∀ i, i < n → s.coefB i < QB

/-! ### What a buffer stands for (R18) -/

/-- The polynomial with coefficients `p 0`, …, `p (n − 1)`, at `x`. -/
def evalPoly (p : Nat → Int) (n : Nat) (x : Int) : Int := ∑ t ∈ Finset.range n, p t * x ^ t

/-- `a ≡ b (mod q)` (R13). -/
abbrev CongruentMod (a b q : Int) : Prop := (a - b) % q = 0

/-- `time-canonical` (R18). -/
def TimeCanonicalA (s : State) (p : Nat → Int) : Prop := ∀ i, i < 256 → s.coefA i = p i % QA

/-- `time-bounded(c)` (R18). -/
def TimeBoundedA (c : Int) (s : State) (p : Nat → Int) : Prop :=
  ∀ i, i < 256 → CongruentMod (s.coefA i) (p i) QA ∧ |s.coefA i| < c

/-- `time-montgomery` (R18). -/
def TimeMontgomeryA (s : State) (p : Nat → Int) : Prop := ∀ i, i < 256 → CongruentMod (s.coefA i) (p i * RA) QA

/-- The exponent of ζ at which entry `i` of a transformed BUF_A evaluates the polynomial (R154). -/
def exponentA (i : Nat) : Nat := 2 * brv 8 i + 1

/-- The residues of `ntt(c)` (R18, R154): entry `i` is congruent to `p(ζ^(2·brv_8(i)+1))`. -/
def NttResiduesA (s : State) (p : Nat → Int) : Prop :=
  ∀ i, i < 256 → CongruentMod (s.coefA i) (evalPoly p 256 (ROOT_A ^ exponentA i)) QA

/-- `ntt(c)` (R18). -/
def NttBoundedA (c : Int) (s : State) (p : Nat → Int) : Prop :=
  NttResiduesA s p ∧ ∀ i, i < 256 → |s.coefA i| < c

/-- `g_n`, the primitive `2n`-th root of unity of size `n = 2^logn` (R183). -/
def rootB (logn : Nat) : Nat := ROOT_B ^ 2 ^ (10 - logn) % QB

/-- `time-canonical` for the first `2^logn` entries of BUF_B (R18). -/
def TimeCanonicalB (logn : Nat) (s : State) (p : Nat → Int) : Prop :=
  ∀ i, i < 2 ^ logn → (s.coefB i : Int) = p i % (QB : Int)

/-- What `ntt.b logn` leaves (R184): entry `i` is exactly `p(g_n^(2·brv_logn(i)+1)) mod QB`. -/
def NttCanonicalB (logn : Nat) (s : State) (p : Nat → Int) : Prop :=
  ∀ i, i < 2 ^ logn →
    (s.coefB i : Int) = evalPoly p (2 ^ logn) ((rootB logn : Int) ^ (2 * brv logn i + 1)) % (QB : Int)

end Sys2Proof.Machine
end

