-- ==== Sys2Proof/Certificates/Slice0/Obligations.lean ====
section
/-! DEFINITION. The statements for the provers, from the numbered rules of spec/. -/

section Statements
open Sys2Proof Sys2Proof.Machine

/-! ### Command words -/

/-- R91 to R93, R95: no bit of an operand is dropped. For every command, in range or not, with every operand at every value
its field admits. -/
def Obligations.DecodeOfEncodeIsTheCommand : Prop :=
  ∀ i : Instr, decode (encode i) = .ok i

/-- R92, R93, R104: a word that decodes is the one encoding of its command, so the word CUR_X keeps is the word written. -/
def Obligations.EncodeOfDecodeIsTheWord : Prop :=
  ∀ (w : Word) (i : Instr), decode w = .ok i → encode i = w

/-- The examples of R101, read by the decoder. -/
def Obligations.ExampleWordsDecode : Prop :=
  decodeTableWord 32 0x00000001 = some .nttA ∧
  decodeTableWord 32 0x00000002 = some .inttAMont ∧
  decodeTableWord 32 0x00000003 = some .inttA ∧
  decodeTableWord 32 0x00240081 = some (.nttB 9) ∧
  decodeTableWord 32 0x00280082 = some (.inttB 10) ∧
  decodeTableWord 32 0x005C0010 = some (.bfctA 0 7 1) ∧
  decodeTableWord 32 0x2000FE11 = some (.bfgsA 254 0 128) ∧
  decodeTableWord 32 0x0000FF12 = some (.fscaleA 255) ∧
  decodeTableWord 32 0x00000313 = some (.redcA 3) ∧
  decodeTableWord 32 0x00000314 = some (.freezeA 3) ∧
  decodeTableWord 32 0x00400090 = some (.bfctB 0 0 1) ∧
  decodeTableWord 32 0x00400091 = some (.bfgsB 0 0 1) ∧
  decodeTableWord 32 0x00040192 = some (.nscaleB 1 1) ∧
  decodeTableWord 32 0x00000000 = some .nopA ∧
  decodeTableWord 32 0x00000080 = some .nopB

/-! ### What a CMD write does -/

/-- R104 in full: the five branches in their order, what acceptance writes, the bus response ok in every branch, and no
command with step count 0. Acceptance does not look at X_ERR. -/
def Obligations.CmdWriteChecksThenAccepts : Prop :=
  ∀ (w : Word) (s : State),
    (s.busy (unitField w) = true → presentCommand w s = .next (s.raise (unitField w) .unitBusy)) ∧
    (s.busy (unitField w) = false → opcodeOf (opcField w) = none →
      presentCommand w s = .next (s.raise (unitField w) .illegalOpcode)) ∧
    (∀ o, s.busy (unitField w) = false → opcodeOf (opcField w) = some o →
      w &&& o.format.mask ≠ o.code.setWidth 32 →
      presentCommand w s = .next (s.raise (unitField w) .illegalField)) ∧
    (∀ i, s.busy (unitField w) = false → decode w = .ok i → ¬ i.WellFormed →
      presentCommand w s = .next (s.raise (unitField w) .operandRange)) ∧
    (∀ i, unitField w = .a → s.a.busy = false → decode w = .ok i → i.WellFormed →
      presentCommand w s =
        .next { s with a := { s.a with cur := w, seq := 0, busy := true, done := false } }) ∧
    (∀ i, unitField w = .b → s.b.busy = false → decode w = .ok i → i.WellFormed →
      presentCommand w s =
        .next { s with b := { s.b with cur := w, seq := 0, busy := true, done := false } }) ∧
    (∃ t, transact (.write 0x0004 4 w) s = .next t ∧ t.reply = some .written) ∧
    (∀ i n, stepCount i = some n → 1 ≤ n)

/-- R99: every opcode value not in the map is rejected with cause 1 by the unit its bit 7 names, and every other value is
in the map. -/
def Obligations.UnassignedOpcodesAreRejected : Prop :=
  ∀ (w : Word) (s : State),
    (((0x04 ≤ (opcField w).toNat ∧ (opcField w).toNat ≤ 0x0F) ∨
        (0x15 ≤ (opcField w).toNat ∧ (opcField w).toNat ≤ 0x7F)) → s.a.busy = false →
      presentCommand w s = .next (s.raise .a .illegalOpcode)) ∧
    (((0x83 ≤ (opcField w).toNat ∧ (opcField w).toNat ≤ 0x8F) ∨ 0x93 ≤ (opcField w).toNat) → s.b.busy = false →
      presentCommand w s = .next (s.raise .b .illegalOpcode)) ∧
    (¬ ((0x04 ≤ (opcField w).toNat ∧ (opcField w).toNat ≤ 0x0F) ∨
        (0x15 ≤ (opcField w).toNat ∧ (opcField w).toNat ≤ 0x7F) ∨
        (0x83 ≤ (opcField w).toNat ∧ (opcField w).toNat ≤ 0x8F) ∨ 0x93 ≤ (opcField w).toNat) →
      ∃ o, opcodeOf (opcField w) = some o)

/-- R98 with the "must be zero" column of R92: an assigned opcode with a nonzero bit in a field its format does not use is
rejected with cause 2. -/
def Obligations.NonzeroUnusedFieldIsRejected : Prop :=
  ∀ (w : Word) (o : Opcode) (s : State), s.busy (unitField w) = false → opcodeOf (opcField w) = some o →
    (match o.format with
      | .z => idxField w ≠ 0 ∨ lgField w ≠ 0 ∨ twField w ≠ 0
      | .l => idxField w ≠ 0 ∨ twField w ≠ 0
      | .i => lgField w ≠ 0 ∨ twField w ≠ 0
      | .il => twField w ≠ 0
      | .p => False) →
    presentCommand w s = .next (s.raise (unitField w) .illegalField)

/-- The operand ranges of R93, R96 and R97, command by command, and the rejection with cause 3 outside them; the other five
commands have no operand. -/
def Obligations.OperandRangesOfTheOpcodeMap : Prop :=
  (∀ (j : BitVec 10) (lg : BitVec 4) (k : BitVec 10),
    ((Instr.bfctA j lg k).WellFormed ↔
      j.toNat ≤ 255 ∧ lg.toNat ≤ 7 ∧ j.toNat + 2 ^ lg.toNat ≤ 255 ∧ 1 ≤ k.toNat ∧ k.toNat ≤ 255) ∧
    ((Instr.bfgsA j lg k).WellFormed ↔
      j.toNat ≤ 255 ∧ lg.toNat ≤ 7 ∧ j.toNat + 2 ^ lg.toNat ≤ 255 ∧ 1 ≤ k.toNat ∧ k.toNat ≤ 255) ∧
    ((Instr.fscaleA j).WellFormed ↔ j.toNat ≤ 255) ∧
    ((Instr.redcA j).WellFormed ↔ j.toNat ≤ 255) ∧
    ((Instr.freezeA j).WellFormed ↔ j.toNat ≤ 255) ∧
    ((Instr.bfctB j lg k).WellFormed ↔ lg.toNat ≤ 9 ∧ j.toNat + 2 ^ lg.toNat ≤ 1023) ∧
    ((Instr.bfgsB j lg k).WellFormed ↔ lg.toNat ≤ 9 ∧ j.toNat + 2 ^ lg.toNat ≤ 1023) ∧
    ((Instr.nscaleB j lg).WellFormed ↔ 1 ≤ lg.toNat ∧ lg.toNat ≤ 10) ∧
    (Instr.nttB lg).WellFormed ∧ (Instr.inttB lg).WellFormed) ∧
  Instr.nopA.WellFormed ∧ Instr.nttA.WellFormed ∧ Instr.inttAMont.WellFormed ∧ Instr.inttA.WellFormed ∧
  Instr.nopB.WellFormed ∧
  (∀ (i : Instr) (s : State), s.busy (unitOf i) = false → ¬ i.WellFormed →
    presentCommand (encode i) s = .next (s.raise (unitOf i) .operandRange))

/-- R224, R226: taking a command fault sets ERR, records the cause only where no older one is uncleared, and changes nothing
else; so of two faults the first is kept. The CMD write that is rejected, here because its unit is busy, is answered ok, and
the running command goes on. -/
def Obligations.FaultEntryKeepsTheOldestCause : Prop :=
  (∀ (s : State) (c c' : Cause),
    s.raise .a c = { s with a := { s.a with err := true, cause := if s.a.err then s.a.cause else c } } ∧
    s.raise .b c = { s with b := { s.b with err := true, cause := if s.b.err then s.b.cause else c } } ∧
    (s.raise .a c).raise .a c' = s.raise .a c ∧ (s.raise .b c).raise .b c' = s.raise .b c) ∧
  (∀ (w : Word) (s : State), s.busy (unitField w) = true →
    transact (.write 0x0004 4 w) s =
      .next (State.raise (unitField w) .unitBusy { s with reply := some .written }))

/-- R94, R104: the unit is named by bit 7 alone, and a CMD write to one unit leaves the other and both buffers alone. -/
def Obligations.CmdWriteReachesOnlyItsUnit : Prop :=
  (∀ (w : Word) (i : Instr), decode w = .ok i → unitOf i = unitField w) ∧
  (∀ (w : Word), unitField w = .b ↔ w.getLsbD 7 = true) ∧
  (∀ (w : Word) (s t : State), presentCommand w s = .next t →
    t.bufA = s.bufA ∧ t.bufB = s.bufB ∧ t.undefA = s.undefA ∧ t.undefB = s.undefB ∧ t.draws = s.draws ∧
    (unitField w = .a → t.b = s.b) ∧ (unitField w = .b → t.a = s.a))

/-! ### Arithmetic and ROMs -/

/-- R120: the multiplier is the signed word congruent to `T × NQINV_A`, `s = T + m × QA` has no low word, and the result is
the exact quotient. -/
def Obligations.RedcDividesByTheRadix : Prop :=
  ∀ (t m : Int), -2 ^ 31 ≤ m → m ≤ 2 ^ 31 - 1 → (t * 4236238847 - m) % 2 ^ 32 = 0 →
    redcFactor t = m ∧ (t + m * 8380417) % 2 ^ 32 = 0 ∧ redcA t * 2 ^ 32 = t + m * 8380417

/-- R121 (a) to (g): the laws of REDC_A with the worked values, and the comparison with the form that uses `+QA⁻¹`: they
differ by exactly QA where `low32(T) = 2^31`, and nowhere else. -/
def Obligations.LawsOfRedc : Prop :=
  (∀ t : Int, CongruentMod (redcA t) (t * 8265825) 8380417 ∧ CongruentMod (redcA t * 2 ^ 32) t 8380417) ∧
  (∀ t : Int, |t| < 2 ^ 31 * 8380417 → -8380417 < redcA t ∧ redcA t < 8380417 ∧ FitsInt32 (redcA t)) ∧
  redcA 0 = 0 ∧
  (∀ x : Int, |x| < 2 ^ 31 → redcA (x * 2 ^ 32) = x) ∧
  (∀ t t' : Int, redcA (t + t') = redcA t + redcA t' ∨ redcA (t + t') = redcA t + redcA t' + 8380417 ∨
    redcA (t + t') = redcA t + redcA t' - 8380417) ∧
  (∃ t t' : Int, redcA (t + t') ≠ redcA t + redcA t') ∧
  redcA 1 = -114592 ∧ redcA (-1) = 114592 ∧ redcA 4193792 = 1 ∧ redcA 8380417 = 0 ∧
  redcA (2 ^ 31) = -4190208 ∧ redcA (-2 ^ 31) = -4190209 ∧ redcA 25847 = -3572223 ∧
  (∀ t : Int,
    (t - sint32 ((low32 t * 58728449) % 2 ^ 32) * 8380417) / 2 ^ 32 =
      if low32 t = 2 ^ 31 then redcA t + 8380417 else redcA t)

/-- R122, R125: whatever int32 the buffer holds, every input ENG_A gives to REDC_A is within `2^53` and in the range of law
(b), the sum `s` is below `2^32 × QA`, and the result is below QA in absolute value and fits int32. -/
def Obligations.EngineProductsReduceBelowQA : Prop :=
  ∀ (v : Int) (k : Nat) (t : Int), FitsInt32 v → k < 256 →
    (t = zetaA k * v ∨ t = -zetaA k * v ∨ t = 41978 * v ∨ t = v) →
    |zetaA k| ≤ 4190208 ∧ |t| ≤ 2 ^ 53 ∧ |t| < 2 ^ 31 * 8380417 ∧
    |t + redcFactor t * 8380417| < 2 ^ 32 * 8380417 ∧ |redcA t| < 8380417 ∧ FitsInt32 (redcA t)

/-- R123: FREEZE_A is the representative in `[0, QA)`, for every int32; it fits int32; the worked values. -/
def Obligations.FreezeIsTheCanonicalRepresentative : Prop :=
  (∀ v : Int, FitsInt32 v →
    freezeA v = v % 8380417 ∧ 0 ≤ freezeA v ∧ freezeA v < 8380417 ∧ FitsInt32 (freezeA v)) ∧
  freezeA (-1) = 8380416 ∧ freezeA 8380417 = 0 ∧ freezeA (-8380417) = 0 ∧
  freezeA 2147483647 = 2096895 ∧ freezeA (-2147483648) = 6283521

/-- R126, R127: MQ_ADD, MQ_SUB and MQ_MUL on `[0, QB)`. -/
def Obligations.RingBArithmetic : Prop :=
  (∀ x y : Nat, x < 12289 → y < 12289 →
    mqAdd x y = (x + y) % 12289 ∧ (mqSub x y : Int) = ((x : Int) - (y : Int)) % 12289 ∧
    mqMul x y = x * y % 12289 ∧ x * y < 2 ^ 28 ∧
    mqAdd x y < 12289 ∧ mqSub x y < 12289 ∧ mqMul x y < 12289) ∧
  mqSub 0 1 = 12288

/-- R210, R212, R215: the ROM contents, entry by entry. -/
def Obligations.RomContents : Prop :=
  zetaA 0 = 0 ∧
  (∀ k, 1 ≤ k → k < 256 →
    CongruentMod (zetaA k) (2 ^ 32 * 1753 ^ brv 8 k) 8380417 ∧ |zetaA k| ≤ 4190208 ∧ zetaA k % 8380417 ≠ 0) ∧
  (∀ x, x < 1024 → wB x = 7 ^ brv 10 x % 12289 ∧ 1 ≤ wB x ∧ wB x ≤ 12288) ∧ wB 0 = 1 ∧
  [1, 2, 3, 4, 5, 6, 7, 8, 9, 10].map ninvB =
    [6145, 9217, 10753, 11521, 11905, 12097, 12193, 12241, 12265, 12277] ∧
  (∀ l, l ≤ 10 → ninvB l * 2 ^ l % 12289 = 1)

/-- R214: the negation of the entry at the mirrored index is the inverse of the forward factor, in both rings, with the
identities of the bit reversal and of the roots it comes from. -/
def Obligations.MirrorIdentity : Prop :=
  (∀ l b, l < 8 → b < 2 ^ l →
    CongruentMod (-zetaA (2 * 2 ^ l - 1 - b) * 1753 ^ brv 8 (2 ^ l + b)) (2 ^ 32) 8380417 ∧
    brv 8 (2 * 2 ^ l - 1 - b) = 256 - brv 8 (2 ^ l + b)) ∧
  (∀ e i, e < 10 → i < 2 ^ e →
    (12289 - wB (2 * 2 ^ e - 1 - i)) * wB (2 ^ e + i) % 12289 = 1 ∧
    brv 10 (2 * 2 ^ e - 1 - i) = 1024 - brv 10 (2 ^ e + i)) ∧
  CongruentMod (1753 ^ 256) (-1) 8380417 ∧ CongruentMod (7 ^ 1024) (-1) 12289

/-- The sums and the exclusive-or that R211 and R213 give with the listings of the two ROMs. -/
def Obligations.RomListingChecks : Prop :=
  ((List.range 256).map zetaA).sum = -23867686 ∧
  ((List.range 256).map fun (k : Nat) => (k : Int) * zetaA k).sum = -3126273255 ∧
  ((List.range 256).map fun k => int32 (zetaA k)).foldl (· ^^^ ·) 0 = 0x000033B8 ∧
  ((List.range 1024).map wB).sum = 6246908 ∧
  ((List.range 1024).map fun x => x * wB x).sum = 3179473907 ∧
  ((List.range 1024).map wB).foldl (· ^^^ ·) 0 = 0x0736

/-! ### Ring-A single-step commands -/

/-- R141: the Cooley–Tukey butterfly. Its word and its ranges; `t` is below QA in absolute value and stands for `ζ^brv_8(k)
× A[j+d]`; `A[j+d]` becomes `A[j] − t` and `A[j]` becomes `A[j] + t`, exactly; no other entry changes; the command
completes. On completion CUR_A and SEQ_A.step are free values, the model's form of "unspecified" (R41, U7; log 2). -/
def Obligations.BfctAButterfly : Prop :=
  ∀ (j : BitVec 10) (lg : BitVec 4) (k : BitVec 10) (d : Nat), d = 2 ^ lg.toNat →
    (encode (.bfctA j lg k)).toNat = 0x10 + j.toNat * 2 ^ 8 + lg.toNat * 2 ^ 18 + k.toNat * 2 ^ 22 ∧
    (lg.toNat ≤ 7 → j.toNat + d ≤ 255 → 1 ≤ k.toNat → k.toNat ≤ 255 →
      ∀ (s : State) (t : Int), RunningA 0 s → t = redcA (zetaA k.toNat * s.coefA (j.toNat + d)) →
        |t| < 8380417 ∧ CongruentMod t (1753 ^ brv 8 k.toNat * s.coefA (j.toNat + d)) 8380417 ∧
        (FitsInt32 (s.coefA j.toNat - t) → FitsInt32 (s.coefA j.toNat + t) →
          ∃ r, exec (.bfctA j lg k) s = .next r ∧
            r.coefA (j.toNat + d) = s.coefA j.toNat - t ∧ r.coefA j.toNat = s.coefA j.toNat + t ∧
            (∀ i, i ≠ j.toNat → i ≠ j.toNat + d → r.entryA i = s.entryA i) ∧
            r = { s with bufA := r.bufA, a := finishedA s }))

/-- R142: the Gentleman–Sande butterfly. Its word and its ranges; `A[j]` becomes the sum and `A[j+d]` the reduced product of
the negated twiddle and the difference, which is below QA in absolute value and stands for `−ζ^brv_8(k) × (A[j] − A[j+d])`.
On completion CUR_A and SEQ_A.step are free values, the model's form of "unspecified" (R41, U7; log 2). -/
def Obligations.BfgsAButterfly : Prop :=
  ∀ (j : BitVec 10) (lg : BitVec 4) (k : BitVec 10) (d : Nat), d = 2 ^ lg.toNat →
    (encode (.bfgsA j lg k)).toNat = 0x11 + j.toNat * 2 ^ 8 + lg.toNat * 2 ^ 18 + k.toNat * 2 ^ 22 ∧
    (lg.toNat ≤ 7 → j.toNat + d ≤ 255 → 1 ≤ k.toNat → k.toNat ≤ 255 →
      ∀ (s : State) (u v p : Int), RunningA 0 s → u = s.coefA j.toNat → v = s.coefA (j.toNat + d) →
        p = redcA (-zetaA k.toNat * (u - v)) → FitsInt32 (u + v) → FitsInt32 (u - v) →
        |p| < 8380417 ∧ CongruentMod p (-(1753 ^ brv 8 k.toNat) * (u - v)) 8380417 ∧
        ∃ r, exec (.bfgsA j lg k) s = .next r ∧
          r.coefA j.toNat = u + v ∧ r.coefA (j.toNat + d) = p ∧
          (∀ i, i ≠ j.toNat → i ≠ j.toNat + d → r.entryA i = s.entryA i) ∧
          r = { s with bufA := r.bufA, a := finishedA s })

/-- R124 with 93_implementation_defined.md U2 (log 5, the model's form of "any value"): in every case a butterfly command
completes; a store that does not fit int32 leaves a free value, each drawn apart, and in `bfgs.a` an overflowing difference
leaves a free value in `A[j+d]`; every other entry is unchanged. On completion CUR_A and SEQ_A.step are free values, the
model's form of "unspecified" (R41, U7; log 2). -/
def Obligations.ButterflyOverflowLeavesFreeValues : Prop :=
  ∀ (j : BitVec 10) (lg : BitVec 4) (k : BitVec 10) (s : State) (d : Nat) (u v t : Int),
    RunningA 0 s → (Instr.bfctA j lg k).WellFormed → d = 2 ^ lg.toNat →
    u = s.coefA j.toNat → v = s.coefA (j.toNat + d) → t = redcA (zetaA k.toNat * v) →
    (∃ r, exec (.bfctA j lg k) s = .next r ∧
      r.entryA (j.toNat + d) = (if FitsInt32 (u - t) then int32 (u - t) else Config.freeA s.draws) ∧
      r.entryA j.toNat = (if FitsInt32 (u + t) then int32 (u + t)
        else Config.freeA (s.draws + if FitsInt32 (u - t) then 0 else 1)) ∧
      (∀ i, i ≠ j.toNat → i ≠ j.toNat + d → r.entryA i = s.entryA i) ∧
      r = { s with
        bufA := r.bufA
        draws := s.draws + (if FitsInt32 (u - t) then 0 else 1) + (if FitsInt32 (u + t) then 0 else 1)
        a := finishedA s }) ∧
    (∃ r, exec (.bfgsA j lg k) s = .next r ∧
      r.entryA j.toNat = (if FitsInt32 (u + v) then int32 (u + v) else Config.freeA s.draws) ∧
      r.entryA (j.toNat + d) = (if FitsInt32 (u - v) then int32 (redcA (-zetaA k.toNat * (u - v)))
        else Config.freeA (s.draws + if FitsInt32 (u + v) then 0 else 1)) ∧
      (∀ i, i ≠ j.toNat → i ≠ j.toNat + d → r.entryA i = s.entryA i) ∧
      r = { s with
        bufA := r.bufA
        draws := s.draws + (if FitsInt32 (u + v) then 0 else 1) + (if FitsInt32 (u - v) then 0 else 1)
        a := finishedA s })

/-- R143: the final scaling of one coefficient, and its word. The result is `A[j] × RA / 256` modulo QA and below QA in
absolute value. On completion CUR_A and SEQ_A.step are free values, the model's form of "unspecified" (R41, U7; log 2). -/
def Obligations.FscaleAResult : Prop :=
  ∀ (j : BitVec 10) (s : State), RunningA 0 s → j.toNat ≤ 255 →
    (encode (.fscaleA j)).toNat = 0x12 + j.toNat * 2 ^ 8 ∧
    ∃ r, exec (.fscaleA j) s = .next r ∧
      r.coefA j.toNat = redcA (41978 * s.coefA j.toNat) ∧
      CongruentMod (256 * r.coefA j.toNat) (s.coefA j.toNat * 2 ^ 32) 8380417 ∧ |r.coefA j.toNat| < 8380417 ∧
      (∀ i, i ≠ j.toNat → r.entryA i = s.entryA i) ∧
      r = { s with bufA := r.bufA, a := finishedA s }

/-- R144: the Montgomery reduction of one coefficient, at most 4190209 in absolute value, and its word.
On completion CUR_A and SEQ_A.step are free values, the model's form of "unspecified" (R41, U7; log 2). -/
def Obligations.RedcAResult : Prop :=
  ∀ (j : BitVec 10) (s : State), RunningA 0 s → j.toNat ≤ 255 →
    (encode (.redcA j)).toNat = 0x13 + j.toNat * 2 ^ 8 ∧
    ∃ r, exec (.redcA j) s = .next r ∧
      r.coefA j.toNat = redcA (s.coefA j.toNat) ∧
      CongruentMod (r.coefA j.toNat * 2 ^ 32) (s.coefA j.toNat) 8380417 ∧ |r.coefA j.toNat| ≤ 4190209 ∧
      (∀ i, i ≠ j.toNat → r.entryA i = s.entryA i) ∧
      r = { s with bufA := r.bufA, a := finishedA s }

/-- R145: the canonical representative of one coefficient, and its word; a second `freeze.a` of the same entry changes
nothing more. On completion CUR_A and SEQ_A.step are free values, the model's form of "unspecified" (R41, U7; log 2). -/
def Obligations.FreezeAResult : Prop :=
  ∀ (j : BitVec 10) (s : State), RunningA 0 s → j.toNat ≤ 255 →
    (encode (.freezeA j)).toNat = 0x14 + j.toNat * 2 ^ 8 ∧
    ∃ r, exec (.freezeA j) s = .next r ∧
      r.coefA j.toNat = s.coefA j.toNat % 8380417 ∧
      (∀ i, i ≠ j.toNat → r.entryA i = s.entryA i) ∧
      r = { s with bufA := r.bufA, a := finishedA s } ∧
      ∀ r', r'.bufA = r.bufA → RunningA 0 r' → ∃ r'', exec (.freezeA j) r' = .next r'' ∧ r''.bufA = r.bufA

/-- R200, R201: a no-operation command is one all-zero field beside its opcode, is accepted by an idle unit, completes in
one step that changes nothing but its unit's run state, is rejected with cause 4 by a busy unit, and with cause 2 where
another field is not zero. On completion CUR_X and SEQ_X.step are free values, the model's form of "unspecified" (R41, U7;
log 2). -/
def Obligations.NopsComplete : Prop :=
  (encode .nopA).toNat = 0x00 ∧ (encode .nopB).toNat = 0x80 ∧ stepCount .nopA = some 1 ∧ stepCount .nopB = some 1 ∧
  (∀ s : State, RunningA 0 s →
    exec .nopA s = .next { s with a := finishedA s }) ∧
  (∀ s : State, RunningB 0 s →
    exec .nopB s = .next { s with b := finishedB s }) ∧
  (∀ s : State,
    (s.a.busy = false →
      presentCommand 0x00 s = .next { s with a := { s.a with cur := 0x00, seq := 0, busy := true, done := false } }) ∧
    (s.b.busy = false →
      presentCommand 0x80 s = .next { s with b := { s.b with cur := 0x80, seq := 0, busy := true, done := false } }) ∧
    (s.a.busy = true → presentCommand 0x00 s = .next (s.raise .a .unitBusy)) ∧
    (s.b.busy = true → presentCommand 0x80 s = .next (s.raise .b .unitBusy)) ∧
    (∀ w : Word, opcField w = 0x00 → w ≠ 0x00 → s.a.busy = false →
      presentCommand w s = .next (s.raise .a .illegalField)) ∧
    (∀ w : Word, opcField w = 0x80 → w ≠ 0x80 → s.b.busy = false →
      presentCommand w s = .next (s.raise .b .illegalField)))

/-! ### Ring-B single-step commands -/

/-- R171: the Cooley–Tukey butterfly of Ring-B on operands in range, with its word and its ranges.
On completion CUR_B and SEQ_B.step are free values, the model's form of "unspecified" (R41, U7; log 2). -/
def Obligations.BfctBButterfly : Prop :=
  ∀ (j : BitVec 10) (lg : BitVec 4) (x : BitVec 10) (d : Nat), d = 2 ^ lg.toNat →
    (encode (.bfctB j lg x)).toNat = 0x90 + j.toNat * 2 ^ 8 + lg.toNat * 2 ^ 18 + x.toNat * 2 ^ 22 ∧
    (lg.toNat ≤ 9 → j.toNat + d ≤ 1023 →
      ∀ (s : State) (u v : Nat), RunningB 0 s → s.coefB j.toNat < 12289 → s.coefB (j.toNat + d) < 12289 →
        u = s.coefB j.toNat → v = s.coefB (j.toNat + d) * wB x.toNat % 12289 →
        ∃ r, exec (.bfctB j lg x) s = .next r ∧
          r.coefB j.toNat = (u + v) % 12289 ∧ (r.coefB (j.toNat + d) : Int) = ((u : Int) - (v : Int)) % 12289 ∧
          (∀ i, i ≠ j.toNat → i ≠ j.toNat + d → r.entryB i = s.entryB i) ∧
          r = { s with bufB := r.bufB, b := finishedB s })

/-- R172: the Gentleman–Sande butterfly of Ring-B on operands in range, with its word, its ranges and the negated table
entry. On completion CUR_B and SEQ_B.step are free values, the model's form of "unspecified" (R41, U7; log 2). -/
def Obligations.BfgsBButterfly : Prop :=
  ∀ (j : BitVec 10) (lg : BitVec 4) (x : BitVec 10) (d z : Nat), d = 2 ^ lg.toNat → z = (12289 - wB x.toNat) % 12289 →
    (encode (.bfgsB j lg x)).toNat = 0x91 + j.toNat * 2 ^ 8 + lg.toNat * 2 ^ 18 + x.toNat * 2 ^ 22 ∧
    1 ≤ z ∧ z ≤ 12288 ∧
    (lg.toNat ≤ 9 → j.toNat + d ≤ 1023 →
      ∀ (s : State) (u v : Nat), RunningB 0 s → u = s.coefB j.toNat → v = s.coefB (j.toNat + d) → u < 12289 → v < 12289 →
        ∃ r, exec (.bfgsB j lg x) s = .next r ∧
          r.coefB j.toNat = (u + v) % 12289 ∧
          (r.coefB (j.toNat + d) : Int) = ((u : Int) - (v : Int)) * (z : Int) % 12289 ∧
          (∀ i, i ≠ j.toNat → i ≠ j.toNat + d → r.entryB i = s.entryB i) ∧
          r = { s with bufB := r.bufB, b := finishedB s })

/-- R173: the multiplication by the inverse of the size on an operand in range: `2^logn` times the result is the operand.
Its word, and its rejection with cause 3 outside the sizes 1 to 10. On completion CUR_B and SEQ_B.step are free values, the
model's form of "unspecified" (R41, U7; log 2). -/
def Obligations.NscaleBResult : Prop :=
  ∀ (j : BitVec 10) (logn : BitVec 4) (s : State),
    (encode (.nscaleB j logn)).toNat = 0x92 + j.toNat * 2 ^ 8 + logn.toNat * 2 ^ 18 ∧
    (RunningB 0 s → 1 ≤ logn.toNat → logn.toNat ≤ 10 → s.coefB j.toNat < 12289 →
      ∃ r, exec (.nscaleB j logn) s = .next r ∧
        r.coefB j.toNat = s.coefB j.toNat * ninvB logn.toNat % 12289 ∧
        r.coefB j.toNat * 2 ^ logn.toNat % 12289 = s.coefB j.toNat ∧
        (∀ i, i ≠ j.toNat → r.entryB i = s.entryB i) ∧
        r = { s with bufB := r.bufB, b := finishedB s }) ∧
    (s.b.busy = false → (logn.toNat = 0 ∨ 11 ≤ logn.toNat) →
      presentCommand (encode (.nscaleB j logn)) s = .next (s.raise .b .operandRange))

/-- R128 with 93_implementation_defined.md U4 (log 7, the model's form of "any value"): a single-step Ring-B command that
reads an entry of 12289 or more completes and leaves a free u16 in every entry it writes, each drawn apart; nothing is
flagged and no other entry changes. On completion CUR_B and SEQ_B.step are free values, the model's form of "unspecified"
(R41, U7; log 2). -/
def Obligations.OutOfRangeOperandLeavesFreeValues : Prop :=
  ∀ (j : BitVec 10) (lg : BitVec 4) (x : BitVec 10) (s : State) (d : Nat), RunningB 0 s → d = 2 ^ lg.toNat →
    ((Instr.bfctB j lg x).WellFormed → (12289 ≤ s.coefB j.toNat ∨ 12289 ≤ s.coefB (j.toNat + d)) →
      ∀ i, i = Instr.bfctB j lg x ∨ i = Instr.bfgsB j lg x →
      ∃ r, exec i s = .next r ∧
        r.entryB j.toNat = Config.freeB s.draws ∧ r.entryB (j.toNat + d) = Config.freeB (s.draws + 1) ∧
        (∀ n, n ≠ j.toNat → n ≠ j.toNat + d → r.entryB n = s.entryB n) ∧
        r = { s with
          bufB := r.bufB
          draws := s.draws + 2
          b := finishedB s }) ∧
    ((Instr.nscaleB j lg).WellFormed → 12289 ≤ s.coefB j.toNat →
      ∃ r, exec (.nscaleB j lg) s = .next r ∧ r.entryB j.toNat = Config.freeB s.draws ∧
        (∀ n, n ≠ j.toNat → r.entryB n = s.entryB n) ∧
        r = { s with
          bufB := r.bufB
          draws := s.draws + 1
          b := finishedB s })

/-! ### Whole transforms -/

/-- R40, R150, R158: engine step `k` of `ntt.a` is the single-step command `bfct.a` with the operands of the schedule, which
are in range; then the schedule counter goes up by one and step 1023 completes the command. On completion CUR_A and
SEQ_A.step are free values, the model's form of "unspecified" (R41, U7; log 2). -/
def Obligations.NttAEngineStep : Prop :=
  ∀ (k : Nat) (s : State) (l p lg len : Nat), k < 1024 → RunningA k s →
    l = k / 128 → p = k % 128 → lg = 7 - l → len = 2 ^ lg →
    ∀ i, i = Instr.bfctA (BitVec.ofNat 10 (2 * len * (p / len) + p % len)) (BitVec.ofNat 4 lg)
        (BitVec.ofNat 10 (2 ^ l + p / len)) →
    i.WellFormed ∧
    ∃ q, exec i { s with a := { s.a with seq := 0 } } = .next q ∧
      exec .nttA s = .next { q with a := advancedA k 1024 s }

/-- R40, R151, R153, R158: engine step `k` of `intt.a.mont` and of `intt.a` is the single-step command of the schedule.
On completion CUR_A and SEQ_A.step are free values, the model's form of "unspecified" (R41, U7; log 2). -/
def Obligations.InttAEngineSteps : Prop :=
  ∀ (k : Nat) (s : State) (i : Instr), RunningA k s →
    ((∃ l p len, k < 1024 ∧ l = k / 128 ∧ p = k % 128 ∧ len = 2 ^ l ∧
        i = .bfgsA (BitVec.ofNat 10 (2 * len * (p / len) + p % len)) (BitVec.ofNat 4 l)
          (BitVec.ofNat 10 (2 ^ (8 - l) - 1 - p / len))) ∨
      (1024 ≤ k ∧ k < 1280 ∧ i = .fscaleA (BitVec.ofNat 10 (k - 1024))) →
      i.WellFormed ∧
      ∃ q, exec i { s with a := { s.a with seq := 0 } } = .next q ∧
        exec .inttAMont s = .next { q with a := advancedA k 1280 s } ∧
        exec .inttA s = .next { q with a := advancedA k 1792 s }) ∧
    ((1280 ≤ k ∧ k < 1792 ∧ (k - 1280) % 2 = 0 ∧ i = .redcA (BitVec.ofNat 10 ((k - 1280) / 2))) ∨
      (1280 ≤ k ∧ k < 1792 ∧ (k - 1280) % 2 = 1 ∧ i = .freezeA (BitVec.ofNat 10 ((k - 1280) / 2))) →
      i.WellFormed ∧
      ∃ q, exec i { s with a := { s.a with seq := 0 } } = .next q ∧
        exec .inttA s = .next { q with a := advancedA k 1792 s })

/-- R40, R180 to R182: engine step `k` of `ntt.b logn` and of `intt.b logn`, for `logn` from 1 to 10, is the single-step
command of the schedule. On completion CUR_B and SEQ_B.step are free values, the model's form of "unspecified" (R41, U7; log
2). -/
def Obligations.TransformBEngineSteps : Prop :=
  ∀ (logn : BitVec 4) (k : Nat) (s : State) (n h : Nat), 1 ≤ logn.toNat → logn.toNat ≤ 10 →
    n = 2 ^ logn.toNat → h = n / 2 → RunningB k s →
    (∀ d p ht i, k < logn.toNat * h → d = k / h → p = k % h → ht = n / 2 ^ d / 2 →
      i = Instr.bfctB (BitVec.ofNat 10 (p / ht * (n / 2 ^ d) + p % ht)) (BitVec.ofNat 4 (logn.toNat - 1 - d))
        (BitVec.ofNat 10 (2 ^ d + p / ht)) →
      i.WellFormed ∧
      ∃ q, exec i { s with b := { s.b with seq := 0 } } = .next q ∧
        exec (.nttB logn) s = .next { q with b := advancedB k (logn.toNat * h) s }) ∧
    (∀ d p t hm i, k < logn.toNat * h → d = k / h → p = k % h → t = 2 ^ d → hm = n / 2 ^ (d + 1) →
      i = Instr.bfgsB (BitVec.ofNat 10 (p / t * 2 * t + p % t)) (BitVec.ofNat 4 d)
        (BitVec.ofNat 10 (2 * hm - 1 - p / t)) →
      i.WellFormed ∧
      ∃ q, exec i { s with b := { s.b with seq := 0 } } = .next q ∧
        exec (.inttB logn) s = .next { q with b := advancedB k (logn.toNat * h + n) s }) ∧
    (∀ i, logn.toNat * h ≤ k → k < logn.toNat * h + n →
      i = Instr.nscaleB (BitVec.ofNat 10 (k - logn.toNat * h)) logn →
      i.WellFormed ∧
      ∃ q, exec i { s with b := { s.b with seq := 0 } } = .next q ∧
        exec (.inttB logn) s = .next { q with b := advancedB k (logn.toNat * h + n) s })

/-- R187 with 93_implementation_defined.md U1 (log 8, the model's form of the undefined effect): an engine step of `ntt.b`
or `intt.b` with `logn` outside 1 to 10 leaves free values in all of BUF_B (drawn once more in the entries a host write has
made undefined, log 6), and a free bit says whether the command completes; no fault is raised and ENG_A is untouched. On
completion CUR_B and SEQ_B.step are free values, the model's form of "unspecified" (R41, U7; log 2). -/
def Obligations.OutOfRangeLognIsUndefinedInBufB : Prop :=
  ∀ (logn : BitVec 4) (s : State) (i : Instr), s.b.busy = true → (logn.toNat = 0 ∨ 11 ≤ logn.toNat) →
    i = .nttB logn ∨ i = .inttB logn →
    ∃ r, exec i s = .next r ∧
      (∀ n, n < 1024 → r.entryB n = Config.freeB (if n ∈ s.undefB then s.draws + 1024 + n else s.draws + n)) ∧
      r.b.busy = !Config.freeDone s.draws ∧ r.b.done = (s.b.done || Config.freeDone s.draws) ∧
      r.b.err = s.b.err ∧ r.b.cause = s.b.cause ∧ (Config.freeDone s.draws = false → r.b.cur = s.b.cur) ∧
      r = { s with b := r.b, bufB := r.bufB, draws := s.draws + if s.undefB = [] then 1024 else 2048 }

/-- R158, R182: the schedule functions enumerate the loop nests of R150, R151, R153, R180 and R181 in their written order. -/
def Obligations.SchedulesEnumerateTheLoopNests : Prop :=
  (List.range 1024).map uopNttA = loopNttA ∧
  (List.range 1280).map uopInttAMont = loopInttAMont ∧
  (List.range 1792).map uopInttA = loopInttA ∧
  (∀ logn, 1 ≤ logn → logn ≤ 10 →
    (List.range (logn * 2 ^ (logn - 1))).map (uopNttB logn) = loopNttB logn ∧
    (List.range (logn * 2 ^ (logn - 1) + 2 ^ logn)).map (uopInttB logn) = loopInttB logn)

/-- R40, R150, R151, R153: run from its acceptance, each Ring-A macro command takes exactly its step count of engine steps,
applies its loop nest to BUF_A, and completes. On completion CUR_A and SEQ_A.step are free values, the model's form of
"unspecified" (R41, U7; log 2). -/
def Obligations.RingAMacrosRunTheirLoopNests : Prop :=
  ∀ s : State, RunningA 0 s →
    execTimes .nttA 1024 s =
      .next { runMicroA loopNttA s with a := finishedA s } ∧
    execTimes .inttAMont 1280 s =
      .next { runMicroA loopInttAMont s with a := finishedA s } ∧
    execTimes .inttA 1792 s =
      .next { runMicroA loopInttA s with a := finishedA s }

/-- R40, R180, R181: the same for the Ring-B macro commands, for every legal size. On completion CUR_B and SEQ_B.step are
free values, the model's form of "unspecified" (R41, U7; log 2). -/
def Obligations.RingBMacrosRunTheirLoopNests : Prop :=
  ∀ (logn : BitVec 4) (s : State) (n m : Nat), 1 ≤ logn.toNat → logn.toNat ≤ 10 →
    n = logn.toNat * 2 ^ (logn.toNat - 1) → m = n + 2 ^ logn.toNat → RunningB 0 s →
    execTimes (.nttB logn) n s =
      .next { runMicroB (loopNttB logn.toNat) s with
        b := finishedB s } ∧
    execTimes (.inttB logn) m s =
      .next { runMicroB (loopInttB logn.toNat) s with
        b := finishedB s }

/-- R155: the bound of the forward transform. Where every input is at most `m` in absolute value and `m` is at most
2080440319, no store overflows, after layer `l` every entry is at most `m + l·(QA − 1)`, and inputs below QA give outputs
below 9·QA. -/
def Obligations.ForwardTransformBound : Prop :=
  ∀ (m : Int) (s : State), RunningA 0 s → BoundedA m s → m ≤ 2080440319 →
    (∀ l, l ≤ 8 → ∃ t, execTimes .nttA (128 * l) s = .next t ∧ NothingUndefined s t ∧
      BoundedA (m + l * 8380416) t) ∧
    (m < 8380417 → ∃ t, execTimes .nttA 1024 s = .next t ∧ ∀ i, i < 256 → |t.coefA i| < 75423753)

/-- R156 (a) and (c): inputs of at most 8388607 in absolute value never overflow the inverse transforms; `intt.a.mont` leaves
every entry below QA in absolute value and `intt.a` leaves every entry in `[0, QA)`. -/
def Obligations.InverseTransformBound : Prop :=
  ∀ s : State, RunningA 0 s → BoundedA 8388607 s →
    (∃ t, execTimes .inttAMont 1280 s = .next t ∧ NothingUndefined s t ∧ ∀ i, i < 256 → |t.coefA i| < 8380417) ∧
    (∃ t, execTimes .inttA 1792 s = .next t ∧ NothingUndefined s t ∧
      ∀ i, i < 256 → 0 ≤ t.coefA i ∧ t.coefA i < 8380417)

/-- R130, R150, R185: zero preservation. The all-zero buffer is a fixed point of every macro command. -/
def Obligations.ZeroBufferIsAFixedPoint : Prop :=
  (∀ s : State, RunningA 0 s → (∀ i, i < 256 → s.coefA i = 0) →
    (∃ t, execTimes .nttA 1024 s = .next t ∧ t.bufA = s.bufA ∧ NothingUndefined s t) ∧
    (∃ t, execTimes .inttAMont 1280 s = .next t ∧ t.bufA = s.bufA ∧ NothingUndefined s t) ∧
    (∃ t, execTimes .inttA 1792 s = .next t ∧ t.bufA = s.bufA ∧ NothingUndefined s t)) ∧
  (∀ (logn : BitVec 4) (s : State), 1 ≤ logn.toNat → logn.toNat ≤ 10 → RunningB 0 s →
    (∀ i, i < 2 ^ logn.toNat → s.coefB i = 0) →
    (∃ t, execTimes (.nttB logn) (stepsNttB logn.toNat) s = .next t ∧ t.bufB = s.bufB ∧ NothingUndefined s t) ∧
    (∃ t, execTimes (.inttB logn) (stepsInttB logn.toNat) s = .next t ∧ t.bufB = s.bufB ∧ NothingUndefined s t))

/-- R154: the output order of `ntt.a`. Entry `i` holds, modulo QA, the value of the input polynomial at
`ζ^(2·brv_8(i)+1)`. -/
def Obligations.NttAOutputOrder : Prop :=
  ∀ s : State, RunningA 0 s → BoundedA 2080440319 s →
    ∃ t, execTimes .nttA 1024 s = .next t ∧ NttResiduesA t s.coefA

/-- R184, R186: the output order of `ntt.b`, exactly, and the entries beyond the transform unchanged. -/
def Obligations.NttBOutputOrder : Prop :=
  ∀ (logn : BitVec 4) (s : State), 1 ≤ logn.toNat → logn.toNat ≤ 10 → RunningB 0 s →
    CanonicalBufB (2 ^ logn.toNat) s →
    ∃ t, execTimes (.nttB logn) (stepsNttB logn.toNat) s = .next t ∧
      NttCanonicalB logn.toNat t (fun i => (s.coefB i : Int)) ∧
      ∀ i, 2 ^ logn.toNat ≤ i → t.entryB i = s.entryB i

/-- R157: the round trip of Ring-A through `intt.a` and through `intt.a.mont`, for inputs below QA in absolute value. -/
def Obligations.RoundTripA : Prop :=
  ∀ s : State, RunningA 0 s → (∀ i, i < 256 → |s.coefA i| < 8380417) →
    ∃ t, execTimes .nttA 1024 s = .next t ∧ NothingUndefined s t ∧
      ∀ u, u.bufA = t.bufA → RunningA 0 u →
        (∃ v, execTimes .inttA 1792 u = .next v ∧ NothingUndefined u v ∧
          ∀ i, i < 256 → v.coefA i = s.coefA i % 8380417) ∧
        (∃ v, execTimes .inttAMont 1280 u = .next v ∧ NothingUndefined u v ∧
          ∀ i, i < 256 → CongruentMod (v.coefA i) (2 ^ 32 * s.coefA i) 8380417 ∧ |v.coefA i| < 8380417)

/-- R185: the round trip of Ring-B, for every legal size, exactly; no value is undefined on the way, and the whole buffer is
restored. -/
def Obligations.RoundTripB : Prop :=
  ∀ (logn : BitVec 4) (s : State), 1 ≤ logn.toNat → logn.toNat ≤ 10 → RunningB 0 s →
    CanonicalBufB (2 ^ logn.toNat) s →
    ∃ t, execTimes (.nttB logn) (stepsNttB logn.toNat) s = .next t ∧ NothingUndefined s t ∧
      ∀ u, u.bufB = t.bufB → RunningB 0 u →
        ∃ v, execTimes (.inttB logn) (stepsInttB logn.toNat) u = .next v ∧ NothingUndefined u v ∧
          v.bufB = s.bufB

/-- R128, R170: on a buffer whose entries are all in `[0, QB)` every step of a defined Ring-B command keeps them there and
draws no free value. -/
def Obligations.RingBStaysCanonical : Prop :=
  ∀ (i : Instr) (k n : Nat) (s : State), unitOf i = .b → i.WellFormed → stepCount i = some n → RunningB k s →
    CanonicalBufB 1024 s →
    ∃ t, exec i s = .next t ∧ CanonicalBufB 1024 t ∧ NothingUndefined s t

/-! ### STATUS and the window -/

/-- R33: where each field of STATUS stands; the reserved bits read 0. -/
def Obligations.StatusLayout : Prop :=
  ∀ s : State,
    s.status.getLsbD 0 = s.a.busy ∧ s.status.getLsbD 1 = s.a.done ∧ s.status.getLsbD 2 = s.a.err ∧
    s.status.getLsbD 3 = false ∧ s.status.extractLsb' 4 4 = s.a.cause.code ∧
    s.status.getLsbD 8 = s.b.busy ∧ s.status.getLsbD 9 = s.b.done ∧ s.status.getLsbD 10 = s.b.err ∧
    s.status.getLsbD 11 = false ∧ s.status.extractLsb' 12 4 = s.b.cause.code ∧
    s.status.extractLsb' 16 16 = 0 ∧
    Cause.none.code = 0 ∧ Cause.illegalOpcode.code = 1 ∧ Cause.illegalField.code = 2 ∧
    Cause.operandRange.code = 3 ∧ Cause.unitBusy.code = 4

/-- R34, R225: what a host write of `w` to STATUS clears, and that nothing else changes. -/
def Obligations.StatusWriteOneToClear : Prop :=
  ∀ (s : State) (w : Word),
    transact (.write 0x0008 4 w) s = .next { s with
      reply := some .written
      a := { s.a with
        done := s.a.done && !w.getLsbD 1
        err := s.a.err && !w.getLsbD 2
        cause := if w.getLsbD 2 then .none else s.a.cause }
      b := { s.b with
        done := s.b.done && !w.getLsbD 9
        err := s.b.err && !w.getLsbD 10
        cause := if w.getLsbD 10 then .none else s.b.cause } }

/-- R63: what a legal read returns at every location, with no other effect; from a busy unit's buffer (R73, U3) the next free
word, whatever the buffer holds, and from an idle unit's entry that a host write has left undefined the next free value of
an entry, which is the model's form of "undefined" (log 6). -/
def Obligations.WindowReads : Prop :=
  ∀ s : State,
    (∀ c : Nat × Word,
      c ∈ [(0x0000, 0x4E545445), (0x0004, 0), (0x0008, s.status), (0x0010, 8380417), (0x0014, 256), (0x0018, 1753),
        (0x001C, 4193792), (0x0020, 4236238847), (0x0024, 41978), (0x0030, 12289), (0x0034, 1024), (0x0038, 7)] →
      transact (.read c.1 4) s = .next { s with reply := some (.data c.2) }) ∧
    (∀ i, i < 256 → s.a.busy = false → i ∉ s.undefA →
      transact (.read (0x1000 + 4 * i) 4) s = .next { s with reply := some (.data (s.entryA i)) }) ∧
    (∀ k, k < 256 →
      transact (.read (0x1400 + 4 * k) 4) s = .next { s with reply := some (.data (int32 (zetaA k))) }) ∧
    (∀ i, i < 1024 → s.b.busy = false → i ∉ s.undefB →
      transact (.read (0x2000 + 4 * i) 4) s =
        .next { s with reply := some (.data ((s.entryB i).setWidth 32)) }) ∧
    (∀ x, x < 1024 →
      transact (.read (0x3000 + 4 * x) 4) s = .next { s with reply := some (.data (BitVec.ofNat 32 (wB x))) }) ∧
    (∀ off, off % 4 = 0 →
      (off = 0x000C ∨ off = 0x0028 ∨ off = 0x002C ∨ (0x003C ≤ off ∧ off < 0x1000) ∨
        (0x1800 ≤ off ∧ off < 0x2000)) →
      transact (.read off 4) s = .next { s with reply := some (.data 0) }) ∧
    (∀ i, i < 256 → s.a.busy = true →
      transact (.read (0x1000 + 4 * i) 4) s =
        .next { s with reply := some (.data (Config.freeRead s.draws)), draws := s.draws + 1 }) ∧
    (∀ i, i < 1024 → s.b.busy = true →
      transact (.read (0x2000 + 4 * i) 4) s =
        .next { s with reply := some (.data (Config.freeRead s.draws)), draws := s.draws + 1 }) ∧
    (∀ i, i < 256 → s.a.busy = false → i ∈ s.undefA →
      transact (.read (0x1000 + 4 * i) 4) s =
        .next { s with reply := some (.data (Config.freeA s.draws)), draws := s.draws + 1 }) ∧
    (∀ i, i < 1024 → s.b.busy = false → i ∈ s.undefB →
      transact (.read (0x2000 + 4 * i) 4) s =
        .next { s with reply := some (.data ((Config.freeB s.draws).setWidth 32)), draws := s.draws + 1 })

/-- R64: what a legal write does at every location whose unit is idle. The entry written is then
no longer undefined (R73, log 6). -/
def Obligations.WindowWrites : Prop :=
  ∀ (s : State) (v : Word),
    transact (.write 0x0004 4 v) s = presentCommand v { s with reply := some .written } ∧
    transact (.write 0x0008 4 v) s = .next ({ s with reply := some .written }.writeStatus v) ∧
    (∀ i, i < 256 → s.a.busy = false →
      ∃ r, transact (.write (0x1000 + 4 * i) 4 v) s = .next r ∧ r.coefA i = v.toInt ∧
        (∀ n, n ≠ i → r.entryA n = s.entryA n) ∧
        r = { s with reply := some .written, bufA := r.bufA, undefA := s.undefA.filter (· != i) }) ∧
    (∀ i, i < 1024 → s.b.busy = false →
      ∃ r, transact (.write (0x2000 + 4 * i) 4 v) s = .next r ∧ r.coefB i = v.toNat % 65536 ∧
        (∀ n, n ≠ i → r.entryB n = s.entryB n) ∧
        r = { s with reply := some .written, bufB := r.bufB, undefB := s.undefB.filter (· != i) }) ∧
    (∀ off, off % 4 = 0 →
      (off = 0 ∨ (0x000C ≤ off ∧ off < 0x1000) ∨ (0x1400 ≤ off ∧ off < 0x2000) ∨ (0x3000 ≤ off ∧ off < 0x4000)) →
      transact (.write off 4 v) s = .next { s with reply := some .written })

/-- R73 with 93_implementation_defined.md U3 (log 6, the model's form of "any value"): a host write into a busy unit's
buffer is answered ok, raises nothing, leaves every entry a free value and marks every entry undefined. An engine step, of
this command or of any later one, leaves the entries that are marked free values again, whatever it stored there, the other
entries as without marks, and the marks as they are. A mark goes only by a host write to that entry while the unit is idle,
or by reset. -/
def Obligations.BusyBufferWriteMakesTheBufferUndefined : Prop :=
  (∀ (s : State) (v : Word) (i n : Nat), i < 256 → n < 256 → s.a.busy = true →
    ∃ r, transact (.write (0x1000 + 4 * i) 4 v) s = .next r ∧ r.entryA n = Config.freeA (s.draws + n) ∧ n ∈ r.undefA ∧
      r = { s with
        reply := some .written
        bufA := r.bufA
        draws := s.draws + 256
        undefA := indices 256 }) ∧
  (∀ (s : State) (v : Word) (i n : Nat), i < 1024 → n < 1024 → s.b.busy = true →
    ∃ r, transact (.write (0x2000 + 4 * i) 4 v) s = .next r ∧ r.entryB n = Config.freeB (s.draws + n) ∧ n ∈ r.undefB ∧
      r = { s with
        reply := some .written
        bufB := r.bufB
        draws := s.draws + 1024
        undefB := indices 1024 }) ∧
  (∀ (i : Instr) (s : State), unitOf i = .a → s.a.busy = true →
    ∃ q r, exec i { s with undefA := [] } = .next q ∧ exec i s = .next r ∧
      (∀ n, n < 256 → r.entryA n = if n ∈ s.undefA then Config.freeA (q.draws + n) else q.entryA n) ∧
      r = { q with
        bufA := r.bufA
        draws := q.draws + if s.undefA = [] then 0 else 256
        undefA := s.undefA }) ∧
  (∀ (i : Instr) (s : State), unitOf i = .b → s.b.busy = true →
    ∃ q r, exec i { s with undefB := [] } = .next q ∧ exec i s = .next r ∧
      (∀ n, n < 1024 → r.entryB n = if n ∈ s.undefB then Config.freeB (q.draws + n) else q.entryB n) ∧
      r = { q with
        bufB := r.bufB
        draws := q.draws + if s.undefB = [] then 0 else 1024
        undefB := s.undefB }) ∧
  (∀ (s t : State) (n : Nat), step s = .next t →
    (n < 256 → n ∈ s.undefA → n ∉ t.undefA →
      s.nextTurn = .reset ∨ (s.nextTurn = .agent .host ∧ s.a.busy = false ∧
        ∃ v ops, s.port = .txn (.write (0x1000 + 4 * n) 4 v) :: ops)) ∧
    (n < 1024 → n ∈ s.undefB → n ∉ t.undefB →
      s.nextTurn = .reset ∨ (s.nextTurn = .agent .host ∧ s.b.busy = false ∧
        ∃ v ops, s.port = .txn (.write (0x2000 + 4 * n) 4 v) :: ops)))

/-- R66, R222: any transaction in the window that is not four bytes at a multiple of four gets the response error and changes
nothing. -/
def Obligations.MalformedTransactionsAreBusErrors : Prop :=
  ∀ (s : State) (off size : Nat) (v : Word), off < 0x4000 → (size ≠ 4 ∨ off % 4 ≠ 0) →
    transact (.read off size) s = .next { s with reply := some .error } ∧
    transact (.write off size v) s = .next { s with reply := some .error }

/-! ### The machine -/

/-- R32, R62, R70, R90, R102, R104: what a step in which the host has the turn does. It performs the oldest pending
transaction, whichever it is, on the state with the turn taken and the operation removed; a command word for an idle unit is
there `exec` of the decoded command; `wait.a` and `wait.b` read STATUS, and leave the queue when the unit is idle and only
then. The model's own choices in it: the schedule as a list of turns, and a host turn with nothing pending, which changes
nothing (log 3, DESIGN CHOICE); the queue of pending operations, and `withFetchWord`, which sets up exactly the step that runs
a command (log 4, DESIGN CHOICE); `wait.x` as one entry of the queue (log 18, DEDUCED). -/
def Obligations.StepRunsTheCommandWritten : Prop :=
  (∀ (s : State) (turns : List Turn) (ops : List HostOp), s.sched = .agent .host :: turns →
    (∀ t, s.port = .txn t :: ops → step s = transact t { s with sched := turns, port := ops }) ∧
    (∀ (w : Word) (i : Instr), s.port = .txn (.write 0x0004 4 w) :: ops →
      s.busy (unitField w) = false → decode w = .ok i →
      step s = exec i { s with sched := turns, port := ops, reply := some .written }) ∧
    (∀ x, s.port = .wait x :: ops → s.busy x = true →
      step s = .next { s with sched := turns, reply := some (.data s.status) }) ∧
    (∀ x, s.port = .wait x :: ops → s.busy x = false →
      step s = .next { s with sched := turns, port := ops, reply := some (.data s.status) }) ∧
    (s.port = [] → step s = .next { s with sched := turns })) ∧
  (∀ (s : State) (w : Nat) (i : Instr), w < 2 ^ 32 → s.busy (unitField (BitVec.ofNat 32 w)) = false →
    decodeTableWord 32 w = some i → step (s.withFetchWord 32 w) = exec i { s with reply := some .written })

/-- R40: a step in which a busy unit has the turn is `exec` of the command in CUR_X at the state with the turn taken. -/
def Obligations.StepRunsTheRunningCommand : Prop :=
  ∀ (s : State) (i : Instr) (turns : List Turn),
    (s.sched = .agent .engA :: turns → s.a.busy = true → decode s.a.cur = .ok i → unitOf i = .a →
      step s = exec i { s with sched := turns }) ∧
    (s.sched = .agent .engB :: turns → s.b.busy = true → decode s.b.cur = .ok i → unitOf i = .b →
      step s = exec i { s with sched := turns })

/-- R45, R250: after reset STATUS is 0, both units are idle and the buffers hold the parameters INIT_A and INIT_B (log 1);
a pulse of the reset input at any moment does the same, with every entry defined (log 6), and is the end of any running
command. -/
def Obligations.ResetState : Prop :=
  (State.reset.status = 0 ∧ State.reset.a.busy = false ∧ State.reset.b.busy = false ∧
    (∀ i, i < 256 → State.reset.entryA i = Config.initA 0 i) ∧
    (∀ i, i < 1024 → State.reset.entryB i = Config.initB 0 i)) ∧
  (∀ (s : State) (turns : List Turn), s.sched = .reset :: turns →
    ∃ t, step s = .next t ∧ t.status = 0 ∧ t.a.busy = false ∧ t.b.busy = false ∧
      (∀ i, i < 256 → t.entryA i = Config.initA (s.resets + 1) i) ∧
      (∀ i, i < 1024 → t.entryB i = Config.initB (s.resets + 1) i) ∧
      t.undefA = [] ∧ t.undefB = [] ∧ t.port = s.port ∧ t.sched = turns)

/-- R33, R40, R41, R42, R104: every step keeps a legal state legal. The marks of undefined entries stay in rising
order (log 6). -/
def Obligations.EveryStepKeepsLegal : Prop :=
  ∀ s t : State, s.Legal → step s = .next t → t.Legal

/-- R45: the state after reset is legal. -/
def Obligations.ResetIsLegal : Prop := State.reset.Legal

/-- R36, R104, R228: from a legal state no step is refused, and the only fault of the model is a transaction outside the
window, which is not NTTE's to answer (log 9). -/
def Obligations.LegalStatesStopOnlyOutsideTheWindow : Prop :=
  ∀ s : State, s.Legal →
    (∃ t, step s = .next t) ∨
    (step s = .fault .outsideWindow ∧ ∃ op ops off size v, s.port = op :: ops ∧ 0x4000 ≤ off ∧
      (op = .txn (.read off size) ∨ op = .txn (.write off size v)))

/-- R42, R159, R189: BUSY falls only by completion in a turn of the unit, which sets DONE, or by reset; it rises only by a
CMD write of the host, which clears DONE. There is no cancellation. -/
def Obligations.BusyChangesOnlyByAcceptanceCompletionOrReset : Prop :=
  ∀ s t : State, step s = .next t →
    (s.a.busy = true → t.a.busy = false →
      s.nextTurn = .reset ∨ (s.nextTurn = .agent .engA ∧ t.a.done = true)) ∧
    (s.b.busy = true → t.b.busy = false →
      s.nextTurn = .reset ∨ (s.nextTurn = .agent .engB ∧ t.b.done = true)) ∧
    (s.a.busy = false → t.a.busy = true → s.nextTurn = .agent .host ∧ t.a.done = false ∧ t.a.seq = 0 ∧
      ∃ w ops, s.port = .txn (.write 0x0004 4 w) :: ops ∧ t.a.cur = w) ∧
    (s.b.busy = false → t.b.busy = true → s.nextTurn = .agent .host ∧ t.b.done = false ∧ t.b.seq = 0 ∧
      ∃ w ops, s.port = .txn (.write 0x0004 4 w) :: ops ∧ t.b.cur = w)

/-- R42, R220, R228: ERR and CAUSE change only by a write to CMD or STATUS, or by reset: never while a command executes, and
never because of data. -/
def Obligations.FaultsComeOnlyFromTheHost : Prop :=
  ∀ s t : State, step s = .next t →
    (t.a.err ≠ s.a.err ∨ t.a.cause ≠ s.a.cause ∨ t.b.err ≠ s.b.err ∨ t.b.cause ≠ s.b.cause) →
    s.nextTurn = .reset ∨
    (s.nextTurn = .agent .host ∧ ∃ off v ops, s.port = .txn (.write off 4 v) :: ops ∧ (off = 0x0004 ∨ off = 0x0008))

/-- R2, R70, R233: the two units never interfere. A step of ENG_A and a step of ENG_B in which nothing is undefined give the
same state in either order. -/
def Obligations.EngineStepsCommute : Prop :=
  ∀ s t u : State, playTurn (.agent .engA) s = .next t → playTurn (.agent .engB) t = .next u →
    NothingUndefined s u →
    ∃ t', playTurn (.agent .engB) s = .next t' ∧ playTurn (.agent .engA) t' = .next u

/-- R40, R70, R262: a running command completes after exactly the engine steps that are left of its step count, from any
legal state, when its unit has that many turns: it is still busy before the last of them and idle after it. -/
def Obligations.RunningCommandsComplete : Prop :=
  ∀ (s : State) (i : Instr) (n m : Nat) (turns : List Turn), s.Legal →
    (s.a.busy = true → decode s.a.cur = .ok i → stepCount i = some n → m = n - s.a.seq.toNat →
      s.sched = List.replicate m (.agent .engA) ++ turns →
      (∀ k, k < m → ∃ t, core.run k s = .next t ∧ t.a.busy = true ∧ t.a.done = false ∧ t.a.cur = s.a.cur ∧
        t.a.seq.toNat = s.a.seq.toNat + k) ∧
      ∃ t, core.run m s = .next t ∧ t.a.busy = false ∧ t.a.done = true ∧ t.b = s.b ∧ t.sched = turns) ∧
    (s.b.busy = true → decode s.b.cur = .ok i → stepCount i = some n → m = n - s.b.seq.toNat →
      s.sched = List.replicate m (.agent .engB) ++ turns →
      (∀ k, k < m → ∃ t, core.run k s = .next t ∧ t.b.busy = true ∧ t.b.done = false ∧ t.b.cur = s.b.cur ∧
        t.b.seq.toNat = s.b.seq.toNat + k) ∧
      ∃ t, core.run m s = .next t ∧ t.b.busy = false ∧ t.b.done = true ∧ t.a = s.a ∧ t.sched = turns)

/-- R70, R262 with 93_implementation_defined.md U12: every schedule is fair, which is the model's construction of the
schedule by rounds (log 3), and nothing an agent does touches the schedule; so every command with a step count ends, however
the agents interleave. From any legal state in which the host's pending transactions lie in the window, a busy unit is idle
after some number of steps. The same while the host polls that unit (`wait.x`, one entry of its queue, log 18, is the
oldest): it polls until the unit is idle, and then leaves the loop at its next turn, whatever the turns before that one. -/
def Obligations.FairnessEndsEveryCommand : Prop :=
  (∀ s : State, s.Fair) ∧
  (∀ s t : State, step s = .next t → t.sched = s.takeTurn.sched ∧ t.turn = s.takeTurn.turn) ∧
  (∀ (s : State) (i : Instr) (n : Nat), s.Legal → (∀ x, .txn x ∈ s.port → x.InWindow) → stepCount i = some n →
    (s.a.busy = true → decode s.a.cur = .ok i → ∃ k t, core.run k s = .next t ∧ t.a.busy = false) ∧
    (s.b.busy = true → decode s.b.cur = .ok i → ∃ k t, core.run k s = .next t ∧ t.b.busy = false)) ∧
  (∀ (s : State) (x : Eng) (i : Instr) (n : Nat) (ops : List HostOp), s.Legal → s.port = .wait x :: ops →
    s.busy x = true → decode (s.cur x) = .ok i → stepCount i = some n →
    ∃ k t, core.run k s = .next t ∧ t.busy x = false ∧ t.port = .wait x :: ops) ∧
  (∀ (s : State) (x : Eng) (ops : List HostOp) (j : Nat), s.Legal → s.port = .wait x :: ops → s.busy x = false →
    (∀ k, k < j → (s.afterTurns k).nextTurn ≠ .agent .host) → (s.afterTurns j).nextTurn = .agent .host →
    ∃ t, core.run (j + 1) s = .next t ∧ t.busy x = false ∧ t.port = ops)

end Statements
end

