-- ==== Sys2Proof/Laws/Decode.lean ====
section
/-! SUPPORT. The fields of an assembled word, and what the opcode lookup answers. -/

namespace Sys2Proof

section Fields
variable (o : Opcode) (idx : BitVec 10) (lg : BitVec 4) (tw : BitVec 10)

/-- Every bit of an assembled word: the opcode below bit 8, then IDX, LG and TW (R91). -/
theorem getLsbD_assemble (k : Nat) :
    (assemble o idx lg tw).getLsbD k =
      if k < 8 then o.code.getLsbD k
      else if k < 18 then idx.getLsbD (k - 8)
      else if k < 22 then lg.getLsbD (k - 18)
      else tw.getLsbD (k - 22) := by
  have h1 := BitVec.getLsbD_append (x := tw ++ lg ++ idx) (y := o.code) (i := k)
  have h2 := BitVec.getLsbD_append (x := tw ++ lg) (y := idx) (i := k - 8)
  have h3 := BitVec.getLsbD_append (x := tw) (y := lg) (i := k - 18)
  have e1 : k - 8 - 10 = k - 18 := by omega
  have e2 : k - 18 - 4 = k - 22 := by omega
  refine h1.trans ?_
  rw [h2, e1, h3, e2]
  by_cases c1 : k < 8
  · simp [c1]
  · by_cases c2 : k < 18
    · simp [c1, c2, show k - 8 < 10 by omega]
    · by_cases c3 : k < 22
      · simp [c1, c2, c3, show ¬ k - 8 < 10 by omega, show k - 18 < 4 by omega]
      · simp [c1, c2, c3, show ¬ k - 8 < 10 by omega, show ¬ k - 18 < 4 by omega]

@[simp] theorem opcField_assemble : opcField (assemble o idx lg tw) = o.code := by
  apply BitVec.eq_of_getLsbD_eq
  intro k hk
  simp [opcField, getLsbD_assemble, hk]

@[simp] theorem idxField_assemble : idxField (assemble o idx lg tw) = idx := by
  apply BitVec.eq_of_getLsbD_eq
  intro k hk
  simp [idxField, getLsbD_assemble, hk, show 8 + k < 18 by omega]

@[simp] theorem lgField_assemble : lgField (assemble o idx lg tw) = lg := by
  apply BitVec.eq_of_getLsbD_eq
  intro k hk
  simp [lgField, getLsbD_assemble, hk, show ¬ 18 + k < 8 by omega, show 18 + k < 22 by omega]

@[simp] theorem twField_assemble : twField (assemble o idx lg tw) = tw := by
  apply BitVec.eq_of_getLsbD_eq
  intro k hk
  simp [twField, getLsbD_assemble, hk, show ¬ 22 + k < 8 by omega, show ¬ 22 + k < 18 by omega]

end Fields

/-- The opcode lookup finds each row by its own code. -/
@[simp] theorem opcodeOf_code (o : Opcode) : opcodeOf o.code = some o := by cases o <;> decide

/-- The row the lookup finds has the code looked up. -/
theorem code_of_opcodeOf {c : BitVec 8} {o : Opcode} (h : opcodeOf c = some o) : o.code = c := by
  have := List.find?_some h
  simpa using this

end Sys2Proof
end

