-- ==== Sys2Proof/Laws/State.lean ====
section
/-! SUPPORT. One lemma per field per named update of State and Engine, each true by rfl, so that no later proof unfolds a
record update; and what the buffer reads give after each update. -/

namespace Sys2Proof.Machine

section Updates
variable (s : State)

/-! ### Entries -/

@[simp] theorem putA_a (i : Nat) (v : Word) : (s.putA i v).a = s.a := rfl
@[simp] theorem putA_b (i : Nat) (v : Word) : (s.putA i v).b = s.b := rfl
@[simp] theorem putA_bufB (i : Nat) (v : Word) : (s.putA i v).bufB = s.bufB := rfl
@[simp] theorem putA_port (i : Nat) (v : Word) : (s.putA i v).port = s.port := rfl
@[simp] theorem putA_reply (i : Nat) (v : Word) : (s.putA i v).reply = s.reply := rfl
@[simp] theorem putA_sched (i : Nat) (v : Word) : (s.putA i v).sched = s.sched := rfl
@[simp] theorem putA_turn (i : Nat) (v : Word) : (s.putA i v).turn = s.turn := rfl
@[simp] theorem putA_draws (i : Nat) (v : Word) : (s.putA i v).draws = s.draws := rfl
@[simp] theorem putA_resets (i : Nat) (v : Word) : (s.putA i v).resets = s.resets := rfl
@[simp] theorem putA_undefA (i : Nat) (v : Word) : (s.putA i v).undefA = s.undefA := rfl
@[simp] theorem putA_undefB (i : Nat) (v : Word) : (s.putA i v).undefB = s.undefB := rfl
@[simp] theorem putA_bufA (i : Nat) (v : Word) : (s.putA i v).bufA = s.bufA.setIfInBounds i v := rfl
@[simp] theorem putB_a (i : Nat) (v : Half) : (s.putB i v).a = s.a := rfl
@[simp] theorem putB_b (i : Nat) (v : Half) : (s.putB i v).b = s.b := rfl
@[simp] theorem putB_bufA (i : Nat) (v : Half) : (s.putB i v).bufA = s.bufA := rfl
@[simp] theorem putB_port (i : Nat) (v : Half) : (s.putB i v).port = s.port := rfl
@[simp] theorem putB_reply (i : Nat) (v : Half) : (s.putB i v).reply = s.reply := rfl
@[simp] theorem putB_sched (i : Nat) (v : Half) : (s.putB i v).sched = s.sched := rfl
@[simp] theorem putB_turn (i : Nat) (v : Half) : (s.putB i v).turn = s.turn := rfl
@[simp] theorem putB_draws (i : Nat) (v : Half) : (s.putB i v).draws = s.draws := rfl
@[simp] theorem putB_resets (i : Nat) (v : Half) : (s.putB i v).resets = s.resets := rfl
@[simp] theorem putB_undefA (i : Nat) (v : Half) : (s.putB i v).undefA = s.undefA := rfl
@[simp] theorem putB_undefB (i : Nat) (v : Half) : (s.putB i v).undefB = s.undefB := rfl
@[simp] theorem putB_bufB (i : Nat) (v : Half) : (s.putB i v).bufB = s.bufB.setIfInBounds i v := rfl

/-! ### Scrambling -/

@[simp] theorem scrambleA_a  : (s.scrambleA).a = s.a := rfl
@[simp] theorem scrambleA_b  : (s.scrambleA).b = s.b := rfl
@[simp] theorem scrambleA_bufB  : (s.scrambleA).bufB = s.bufB := rfl
@[simp] theorem scrambleA_port  : (s.scrambleA).port = s.port := rfl
@[simp] theorem scrambleA_reply  : (s.scrambleA).reply = s.reply := rfl
@[simp] theorem scrambleA_sched  : (s.scrambleA).sched = s.sched := rfl
@[simp] theorem scrambleA_turn  : (s.scrambleA).turn = s.turn := rfl
@[simp] theorem scrambleA_resets  : (s.scrambleA).resets = s.resets := rfl
@[simp] theorem scrambleA_draws : s.scrambleA.draws = s.draws + 256 := rfl
@[simp] theorem scrambleA_undefA : s.scrambleA.undefA = s.undefA := rfl
@[simp] theorem scrambleA_undefB : s.scrambleA.undefB = s.undefB := rfl
@[simp] theorem scrambleB_a  : (s.scrambleB).a = s.a := rfl
@[simp] theorem scrambleB_b  : (s.scrambleB).b = s.b := rfl
@[simp] theorem scrambleB_bufA  : (s.scrambleB).bufA = s.bufA := rfl
@[simp] theorem scrambleB_port  : (s.scrambleB).port = s.port := rfl
@[simp] theorem scrambleB_reply  : (s.scrambleB).reply = s.reply := rfl
@[simp] theorem scrambleB_sched  : (s.scrambleB).sched = s.sched := rfl
@[simp] theorem scrambleB_turn  : (s.scrambleB).turn = s.turn := rfl
@[simp] theorem scrambleB_resets  : (s.scrambleB).resets = s.resets := rfl
@[simp] theorem scrambleB_draws : s.scrambleB.draws = s.draws + 1024 := rfl
@[simp] theorem scrambleB_undefA : s.scrambleB.undefA = s.undefA := rfl
@[simp] theorem scrambleB_undefB : s.scrambleB.undefB = s.undefB := rfl

/-! ### Undefined entries -/

theorem indices_eq (n : Nat) : indices n = List.range n := by unfold indices; rfl

@[simp] theorem mem_indices {i n : Nat} : i ∈ indices n ↔ i < n := by rw [indices_eq, List.mem_range]

/-- With no undefined entry nothing is refreshed. -/
theorem refreshA_defined (h : s.undefA = []) : s.refreshA = s := if_pos h

/-- Refreshing changes BUF_A and the count of free values, nothing else. -/
theorem refreshA_frame : ∃ buf n, s.refreshA = { s with bufA := buf, draws := n } := by
  unfold State.refreshA
  split
  · exact ⟨s.bufA, s.draws, rfl⟩
  · exact ⟨_, _, rfl⟩

@[simp] theorem refreshA_a : s.refreshA.a = s.a := by
  obtain ⟨_, _, h⟩ := refreshA_frame s; rw [h]
@[simp] theorem refreshA_b : s.refreshA.b = s.b := by
  obtain ⟨_, _, h⟩ := refreshA_frame s; rw [h]
@[simp] theorem refreshA_bufB : s.refreshA.bufB = s.bufB := by
  obtain ⟨_, _, h⟩ := refreshA_frame s; rw [h]
@[simp] theorem refreshA_undefA : s.refreshA.undefA = s.undefA := by
  obtain ⟨_, _, h⟩ := refreshA_frame s; rw [h]
@[simp] theorem refreshA_undefB : s.refreshA.undefB = s.undefB := by
  obtain ⟨_, _, h⟩ := refreshA_frame s; rw [h]
@[simp] theorem refreshA_port : s.refreshA.port = s.port := by
  obtain ⟨_, _, h⟩ := refreshA_frame s; rw [h]
@[simp] theorem refreshA_reply : s.refreshA.reply = s.reply := by
  obtain ⟨_, _, h⟩ := refreshA_frame s; rw [h]
@[simp] theorem refreshA_sched : s.refreshA.sched = s.sched := by
  obtain ⟨_, _, h⟩ := refreshA_frame s; rw [h]
@[simp] theorem refreshA_turn : s.refreshA.turn = s.turn := by
  obtain ⟨_, _, h⟩ := refreshA_frame s; rw [h]
@[simp] theorem refreshA_resets : s.refreshA.resets = s.resets := by
  obtain ⟨_, _, h⟩ := refreshA_frame s; rw [h]
theorem refreshA_draws : s.refreshA.draws = if s.undefA = [] then s.draws else s.draws + 256 := by
  unfold State.refreshA; split <;> rfl

/-- With no undefined entry nothing is refreshed. -/
theorem refreshB_defined (h : s.undefB = []) : s.refreshB = s := if_pos h

/-- Refreshing changes BUF_B and the count of free values, nothing else. -/
theorem refreshB_frame : ∃ buf n, s.refreshB = { s with bufB := buf, draws := n } := by
  unfold State.refreshB
  split
  · exact ⟨s.bufB, s.draws, rfl⟩
  · exact ⟨_, _, rfl⟩

@[simp] theorem refreshB_a : s.refreshB.a = s.a := by
  obtain ⟨_, _, h⟩ := refreshB_frame s; rw [h]
@[simp] theorem refreshB_b : s.refreshB.b = s.b := by
  obtain ⟨_, _, h⟩ := refreshB_frame s; rw [h]
@[simp] theorem refreshB_bufA : s.refreshB.bufA = s.bufA := by
  obtain ⟨_, _, h⟩ := refreshB_frame s; rw [h]
@[simp] theorem refreshB_undefA : s.refreshB.undefA = s.undefA := by
  obtain ⟨_, _, h⟩ := refreshB_frame s; rw [h]
@[simp] theorem refreshB_undefB : s.refreshB.undefB = s.undefB := by
  obtain ⟨_, _, h⟩ := refreshB_frame s; rw [h]
@[simp] theorem refreshB_port : s.refreshB.port = s.port := by
  obtain ⟨_, _, h⟩ := refreshB_frame s; rw [h]
@[simp] theorem refreshB_reply : s.refreshB.reply = s.reply := by
  obtain ⟨_, _, h⟩ := refreshB_frame s; rw [h]
@[simp] theorem refreshB_sched : s.refreshB.sched = s.sched := by
  obtain ⟨_, _, h⟩ := refreshB_frame s; rw [h]
@[simp] theorem refreshB_turn : s.refreshB.turn = s.turn := by
  obtain ⟨_, _, h⟩ := refreshB_frame s; rw [h]
@[simp] theorem refreshB_resets : s.refreshB.resets = s.resets := by
  obtain ⟨_, _, h⟩ := refreshB_frame s; rw [h]
theorem refreshB_draws : s.refreshB.draws = if s.undefB = [] then s.draws else s.draws + 1024 := by
  unfold State.refreshB; split <;> rfl

/-! ### The command fault -/

@[simp] theorem raise_a_a (c : Cause) : (s.raise .a c).a = s.a.raise c := rfl
@[simp] theorem raise_b_b (c : Cause) : (s.raise .b c).b = s.b.raise c := rfl
@[simp] theorem raise_a_b (c : Cause) : (s.raise .a c).b = s.b := rfl
@[simp] theorem raise_b_a (c : Cause) : (s.raise .b c).a = s.a := rfl
@[simp] theorem raise_bufA (x : Eng) (c : Cause) : (s.raise x c).bufA = s.bufA := by cases x <;> rfl
@[simp] theorem raise_bufB (x : Eng) (c : Cause) : (s.raise x c).bufB = s.bufB := by cases x <;> rfl
@[simp] theorem raise_port (x : Eng) (c : Cause) : (s.raise x c).port = s.port := by cases x <;> rfl
@[simp] theorem raise_reply (x : Eng) (c : Cause) : (s.raise x c).reply = s.reply := by cases x <;> rfl
@[simp] theorem raise_sched (x : Eng) (c : Cause) : (s.raise x c).sched = s.sched := by cases x <;> rfl
@[simp] theorem raise_turn (x : Eng) (c : Cause) : (s.raise x c).turn = s.turn := by cases x <;> rfl
@[simp] theorem raise_draws (x : Eng) (c : Cause) : (s.raise x c).draws = s.draws := by cases x <;> rfl
@[simp] theorem raise_resets (x : Eng) (c : Cause) : (s.raise x c).resets = s.resets := by cases x <;> rfl
@[simp] theorem raise_undefA (x : Eng) (c : Cause) : (s.raise x c).undefA = s.undefA := by cases x <;> rfl
@[simp] theorem raise_undefB (x : Eng) (c : Cause) : (s.raise x c).undefB = s.undefB := by cases x <;> rfl

/-! ### STATUS writes -/

@[simp] theorem writeStatus_bufA (w : Word) : (s.writeStatus w).bufA = s.bufA := rfl
@[simp] theorem writeStatus_bufB (w : Word) : (s.writeStatus w).bufB = s.bufB := rfl
@[simp] theorem writeStatus_port (w : Word) : (s.writeStatus w).port = s.port := rfl
@[simp] theorem writeStatus_reply (w : Word) : (s.writeStatus w).reply = s.reply := rfl
@[simp] theorem writeStatus_sched (w : Word) : (s.writeStatus w).sched = s.sched := rfl
@[simp] theorem writeStatus_turn (w : Word) : (s.writeStatus w).turn = s.turn := rfl
@[simp] theorem writeStatus_draws (w : Word) : (s.writeStatus w).draws = s.draws := rfl
@[simp] theorem writeStatus_resets (w : Word) : (s.writeStatus w).resets = s.resets := rfl
@[simp] theorem writeStatus_undefA (w : Word) : (s.writeStatus w).undefA = s.undefA := rfl
@[simp] theorem writeStatus_undefB (w : Word) : (s.writeStatus w).undefB = s.undefB := rfl
@[simp] theorem writeStatus_a (w : Word) : (s.writeStatus w).a = s.a.clearFlags (w.getLsbD 1) (w.getLsbD 2) := rfl
@[simp] theorem writeStatus_b (w : Word) : (s.writeStatus w).b = s.b.clearFlags (w.getLsbD 9) (w.getLsbD 10) := rfl

/-! ### The reset pulse -/

@[simp] theorem pulseReset_port : s.pulseReset.port = s.port := rfl
@[simp] theorem pulseReset_sched : s.pulseReset.sched = s.sched := rfl
@[simp] theorem pulseReset_turn : s.pulseReset.turn = s.turn := rfl
@[simp] theorem pulseReset_draws : s.pulseReset.draws = s.draws := rfl
@[simp] theorem pulseReset_resets : s.pulseReset.resets = s.resets + 1 := rfl
@[simp] theorem pulseReset_reply : s.pulseReset.reply = none := rfl
@[simp] theorem pulseReset_undefA : s.pulseReset.undefA = [] := rfl
@[simp] theorem pulseReset_undefB : s.pulseReset.undefB = [] := rfl
@[simp] theorem pulseReset_a_busy : s.pulseReset.a.busy = false := rfl
@[simp] theorem pulseReset_b_busy : s.pulseReset.b.busy = false := rfl
@[simp] theorem pulseReset_a_completions : s.pulseReset.a.completions = s.a.completions := rfl
@[simp] theorem pulseReset_b_completions : s.pulseReset.b.completions = s.b.completions := rfl

/-! ### The turn taken -/

@[simp] theorem takeTurn_a : s.takeTurn.a = s.a := rfl
@[simp] theorem takeTurn_b : s.takeTurn.b = s.b := rfl
@[simp] theorem takeTurn_bufA : s.takeTurn.bufA = s.bufA := rfl
@[simp] theorem takeTurn_bufB : s.takeTurn.bufB = s.bufB := rfl
@[simp] theorem takeTurn_port : s.takeTurn.port = s.port := rfl
@[simp] theorem takeTurn_reply : s.takeTurn.reply = s.reply := rfl
@[simp] theorem takeTurn_draws : s.takeTurn.draws = s.draws := rfl
@[simp] theorem takeTurn_resets : s.takeTurn.resets = s.resets := rfl
@[simp] theorem takeTurn_undefA : s.takeTurn.undefA = s.undefA := rfl
@[simp] theorem takeTurn_undefB : s.takeTurn.undefB = s.undefB := rfl
@[simp] theorem takeTurn_sched : s.takeTurn.sched = s.turns.tail := rfl

/-- A turn that stands in the list is the next one, and the rest of the list is left. -/
theorem nextTurn_cons {t : Turn} {rest : List Turn} (h : s.sched = t :: rest) : s.nextTurn = t := by
  simp [State.nextTurn, State.turns, h]

theorem takeTurn_cons {t : Turn} {rest : List Turn} (h : s.sched = t :: rest) :
    s.takeTurn = { s with sched := rest } := by
  simp [State.takeTurn, State.turns, h]

/-- With the list used up, the next round of SCHED begins. -/
theorem turns_nil (h : s.sched = []) : s.turns = scheduleRound s.turn := by
  simp [State.turns, h]

theorem takeTurn_nil (h : s.sched = []) :
    s.takeTurn = { s with sched := (scheduleRound s.turn).tail, turn := s.turn + 1 } := by
  simp [State.takeTurn, State.turns, h]

/-! ### Completion -/

@[simp] theorem completedA_busy : s.completedA.busy = false := rfl
@[simp] theorem completedA_done : s.completedA.done = true := rfl
@[simp] theorem completedA_err : s.completedA.err = s.a.err := rfl
@[simp] theorem completedA_cause : s.completedA.cause = s.a.cause := rfl
@[simp] theorem completedA_cur : s.completedA.cur = Config.idleCurA s.a.completions := rfl
@[simp] theorem completedA_seq : s.completedA.seq = Config.idleSeqA s.a.completions := rfl
@[simp] theorem completedA_completions : s.completedA.completions = s.a.completions + 1 := rfl
@[simp] theorem completedB_busy : s.completedB.busy = false := rfl
@[simp] theorem completedB_done : s.completedB.done = true := rfl
@[simp] theorem completedB_err : s.completedB.err = s.b.err := rfl
@[simp] theorem completedB_cause : s.completedB.cause = s.b.cause := rfl
@[simp] theorem completedB_cur : s.completedB.cur = Config.idleCurB s.b.completions := rfl
@[simp] theorem completedB_seq : s.completedB.seq = Config.idleSeqB s.b.completions := rfl
@[simp] theorem completedB_completions : s.completedB.completions = s.b.completions + 1 := rfl

/-! ### Units -/

@[simp] theorem busy_a : s.busy .a = s.a.busy := rfl
@[simp] theorem busy_b : s.busy .b = s.b.busy := rfl
@[simp] theorem cur_a : s.cur .a = s.a.cur := rfl
@[simp] theorem cur_b : s.cur .b = s.b.cur := rfl

end Updates

section Engines
variable {w : Nat} (e : Engine w)

@[simp] theorem Engine.raise_busy (c : Cause) : (e.raise c).busy = e.busy := rfl
@[simp] theorem Engine.raise_done (c : Cause) : (e.raise c).done = e.done := rfl
@[simp] theorem Engine.raise_cur (c : Cause) : (e.raise c).cur = e.cur := rfl
@[simp] theorem Engine.raise_seq (c : Cause) : (e.raise c).seq = e.seq := rfl
@[simp] theorem Engine.raise_err (c : Cause) : (e.raise c).err = true := rfl
@[simp] theorem Engine.raise_cause (c : Cause) : (e.raise c).cause = if e.err then e.cause else c := rfl
@[simp] theorem Engine.accept_err (v : Word) : (e.accept v).err = e.err := rfl
@[simp] theorem Engine.accept_cause (v : Word) : (e.accept v).cause = e.cause := rfl
@[simp] theorem Engine.accept_cur (v : Word) : (e.accept v).cur = v := rfl
@[simp] theorem Engine.accept_seq (v : Word) : (e.accept v).seq = 0 := rfl
@[simp] theorem Engine.accept_busy (v : Word) : (e.accept v).busy = true := rfl
@[simp] theorem Engine.accept_done (v : Word) : (e.accept v).done = false := rfl
@[simp] theorem Engine.clearFlags_busy (d r : Bool) : (e.clearFlags d r).busy = e.busy := rfl
@[simp] theorem Engine.clearFlags_cur (d r : Bool) : (e.clearFlags d r).cur = e.cur := rfl
@[simp] theorem Engine.clearFlags_seq (d r : Bool) : (e.clearFlags d r).seq = e.seq := rfl
@[simp] theorem Engine.clearFlags_done (d r : Bool) : (e.clearFlags d r).done = (e.done && !d) := rfl
@[simp] theorem Engine.clearFlags_err (d r : Bool) : (e.clearFlags d r).err = (e.err && !r) := rfl
@[simp] theorem Engine.clearFlags_cause (d r : Bool) :
    (e.clearFlags d r).cause = if r then Cause.none else e.cause := rfl
@[simp] theorem Engine.raise_completions (c : Cause) : (e.raise c).completions = e.completions := rfl
@[simp] theorem Engine.accept_completions (v : Word) : (e.accept v).completions = e.completions := rfl
@[simp] theorem Engine.clearFlags_completions (d r : Bool) : (e.clearFlags d r).completions = e.completions := rfl

/-- The two outcomes of an advance: the last micro-operation completes the command, any other does not. -/
theorem Engine.advance_last (fin : Engine w) {n : Nat} (h : e.seq.toNat + 1 = n) : e.advance n fin = fin := if_pos h

theorem Engine.advance_more (fin : Engine w) {n : Nat} (h : e.seq.toNat + 1 ≠ n) :
    e.advance n fin = { e with seq := e.seq + 1 } := if_neg h

theorem Engine.advance_cases (fin : Engine w) (n : Nat) :
    (e.seq.toNat + 1 = n ∧ e.advance n fin = fin) ∨
    (e.seq.toNat + 1 ≠ n ∧ e.advance n fin = { e with seq := e.seq + 1 }) := by
  by_cases h : e.seq.toNat + 1 = n
  · exact .inl ⟨h, e.advance_last fin h⟩
  · exact .inr ⟨h, e.advance_more fin h⟩

end Engines

/-! ### Reading a buffer after an update -/

theorem getElem_tabulate {α : Type} {n : Nat} (f : Nat → α) {i : Nat} (h : i < n) : (tabulate n f)[i] = f i := by
  simp [tabulate]

theorem getElem?_tabulate {α : Type} {n : Nat} (f : Nat → α) {i : Nat} (h : i < n) :
    (tabulate n f)[i]? = some (f i) := by
  rw [Vector.getElem?_eq_getElem h, getElem_tabulate f h]

section Reads
variable (s : State)

@[simp] theorem entryA_putA_same {i : Nat} (h : i < 256) (v : Word) : (s.putA i v).entryA i = v := by
  simp [State.entryA, h]

@[simp] theorem entryA_putA_ne {i j : Nat} (h : i ≠ j) (v : Word) : (s.putA i v).entryA j = s.entryA j := by
  simp [State.entryA, h]

@[simp] theorem entryB_putB_same {i : Nat} (h : i < 1024) (v : Half) : (s.putB i v).entryB i = v := by
  simp [State.entryB, h]

@[simp] theorem entryB_putB_ne {i j : Nat} (h : i ≠ j) (v : Half) : (s.putB i v).entryB j = s.entryB j := by
  simp [State.entryB, h]

@[simp] theorem entryA_putB (i j : Nat) (v : Half) : (s.putB i v).entryA j = s.entryA j := rfl

@[simp] theorem entryB_putA (i j : Nat) (v : Word) : (s.putA i v).entryB j = s.entryB j := rfl

theorem entryA_scrambleA {i : Nat} (h : i < 256) : s.scrambleA.entryA i = Config.freeA (s.draws + i) := by
  simp [State.entryA, State.scrambleA, getElem?_tabulate _ h]

theorem entryB_scrambleB {i : Nat} (h : i < 1024) : s.scrambleB.entryB i = Config.freeB (s.draws + i) := by
  simp [State.entryB, State.scrambleB, getElem?_tabulate _ h]

/-- What refreshing does to an entry: a fresh free value where it is undefined, else nothing. -/
theorem entryA_refreshA {i : Nat} (h : i < 256) :
    s.refreshA.entryA i = if i ∈ s.undefA then Config.freeA (s.draws + i) else s.entryA i := by
  by_cases hu : s.undefA = []
  · simp [refreshA_defined s hu, hu]
  · simp [State.refreshA, hu, State.entryA, getElem?_tabulate _ h]

/-- What refreshing does to an entry: a fresh free value where it is undefined, else nothing. -/
theorem entryB_refreshB {i : Nat} (h : i < 1024) :
    s.refreshB.entryB i = if i ∈ s.undefB then Config.freeB (s.draws + i) else s.entryB i := by
  by_cases hu : s.undefB = []
  · simp [refreshB_defined s hu, hu]
  · simp [State.refreshB, hu, State.entryB, getElem?_tabulate _ h]

/-- An entry depends on the buffer alone. -/
theorem entryA_congr {s t : State} (h : s.bufA = t.bufA) (i : Nat) : s.entryA i = t.entryA i := by
  simp [State.entryA, h]

theorem entryB_congr {s t : State} (h : s.bufB = t.bufB) (i : Nat) : s.entryB i = t.entryB i := by
  simp [State.entryB, h]

/-- Equal entries are equal buffers. -/
theorem bufA_ext {s t : State} (h : ∀ i, i < 256 → s.entryA i = t.entryA i) : s.bufA = t.bufA := by
  apply Vector.ext
  intro i hi
  simpa [State.entryA, hi] using h i hi

theorem bufB_ext {s t : State} (h : ∀ i, i < 1024 → s.entryB i = t.entryB i) : s.bufB = t.bufB := by
  apply Vector.ext
  intro i hi
  simpa [State.entryB, hi] using h i hi

end Reads

end Sys2Proof.Machine
end

