-- ==== Sys2Proof/Laws/Ops.lean ====
section
/-! SUPPORT. For each shared operation one lemma that says once everything it can do, to be cited instead of unfolding it. -/

namespace Sys2Proof.Machine

/-! ### Arithmetic -/

theorem int32_toInt {v : Int} (h : FitsInt32 v) : (int32 v).toInt = v := by
  unfold int32
  rw [BitVec.toInt_ofInt]
  have := h.1
  have := h.2
  apply Int.bmod_eq_of_le <;> norm_num <;> omega

theorem coefA_fits (s : State) (i : Nat) : FitsInt32 (s.coefA i) := by
  have h1 := BitVec.toInt_lt (x := s.entryA i)
  have h2 := BitVec.le_toInt (x := s.entryA i)
  unfold State.coefA FitsInt32
  norm_num at h1 h2 ⊢
  omega

theorem u16_toNat {v : Nat} (h : v < 65536) : (u16 v).toNat = v := by
  simp [u16, Nat.mod_eq_of_lt h]

theorem QB_pos : 0 < QB := by decide

theorem mqAdd_lt (x y : Nat) : mqAdd x y < QB := Nat.mod_lt _ QB_pos

theorem mqMul_lt (x y : Nat) : mqMul x y < QB := Nat.mod_lt _ QB_pos

theorem mqSub_lt (x y : Nat) : mqSub x y < QB := by
  unfold mqSub
  have h0 : (0 : Int) < (QB : Int) := by decide
  have h1 := Int.emod_nonneg ((x : Int) - y) h0.ne'
  have h2 := Int.emod_lt_of_pos ((x : Int) - y) h0
  omega

theorem wB_lt (x : Nat) : wB x < QB := Nat.mod_lt _ QB_pos

/-- Every result of a Ring-B operation survives the store: it is below 2^16. -/
theorem u16_toNat_of_lt {v : Nat} (h : v < QB) : (u16 v).toNat = v :=
  u16_toNat (lt_trans h (by decide))

/-! ### Storing -/

/-- What `st32` answers: the integer itself and no draw, or one free value. -/
theorem st32_cases (v : Int) (n : Nat) :
    (FitsInt32 v ∧ st32 v n = (int32 v, n)) ∨ (¬ FitsInt32 v ∧ st32 v n = (Config.freeA n, n + 1)) := by
  unfold st32
  split
  · exact .inl ⟨‹_›, rfl⟩
  · exact .inr ⟨‹_›, rfl⟩

theorem st32_fits {v : Int} (h : FitsInt32 v) (n : Nat) : st32 v n = (int32 v, n) := if_pos h

theorem st32_overflow {v : Int} (h : ¬ FitsInt32 v) (n : Nat) : st32 v n = (Config.freeA n, n + 1) := if_neg h

/-- What a Ring-B pair store does: both results, or two free values. -/
theorem storePairB_cases (j lg x y : Nat) (s : State) :
    (CanonicalB (s.coefB j) ∧ CanonicalB (s.coefB (partner j lg)) ∧
      storePairB j lg x y s = (s.putB j (u16 x)).putB (partner j lg) (u16 y)) ∨
    (¬ (CanonicalB (s.coefB j) ∧ CanonicalB (s.coefB (partner j lg))) ∧
      storePairB j lg x y s =
        { ((s.putB j (Config.freeB s.draws)).putB (partner j lg) (Config.freeB (s.draws + 1))) with
          draws := s.draws + 2 }) := by
  unfold storePairB
  split
  · rename_i h
    exact .inl ⟨h.1, h.2, rfl⟩
  · exact .inr ⟨‹_›, rfl⟩

/-! ### Micro-operations: what they leave alone -/

/-- The two indices of a butterfly are always different (R140). -/
theorem partner_ne (j lg : Nat) : j ≠ partner j lg := by
  have := Nat.two_pow_pos lg
  unfold partner distance
  omega

/-- A micro-operation of ENG_A changes BUF_A and the count of free values, nothing else. -/
theorem microA_frame (m : MicroA) (s : State) :
    ∃ buf n, microA m s = { s with bufA := buf, draws := n } := by
  cases m <;> exact ⟨_, _, rfl⟩

/-- A micro-operation of ENG_B changes BUF_B and the count of free values, nothing else. -/
theorem microB_frame (m : MicroB) (s : State) :
    ∃ buf n, microB m s = { s with bufB := buf, draws := n } := by
  cases m with
  | nothing => exact ⟨_, _, rfl⟩
  | bfct j lg x =>
    rcases storePairB_cases j lg _ _ s with ⟨_, _, h⟩ | ⟨_, h⟩ <;> exact ⟨_, _, h⟩
  | bfgs j lg x =>
    rcases storePairB_cases j lg _ _ s with ⟨_, _, h⟩ | ⟨_, h⟩ <;> exact ⟨_, _, h⟩
  | nscale j logn =>
    simp only [microB, nscaleBOp]
    split <;> exact ⟨_, _, rfl⟩

/-! ### Engine steps -/

/-- An engine step of ENG_A changes BUF_A, the count of free values and ENG_A's run state, nothing else. -/
theorem engineStepA_frame (n : Nat) (uop : Nat → MicroA) (s : State) :
    ∃ buf k, engineStepA n uop s = { s with bufA := buf, draws := k, a := s.a.advance n s.completedA } := by
  obtain ⟨buf, k, hm⟩ := microA_frame (uop s.a.seq.toNat) s
  exact ⟨buf, k, by rw [engineStepA, hm]⟩

/-- An engine step of ENG_B changes BUF_B, the count of free values and ENG_B's run state, nothing else. -/
theorem engineStepB_frame (n : Nat) (uop : Nat → MicroB) (s : State) :
    ∃ buf k, engineStepB n uop s = { s with bufB := buf, draws := k, b := s.b.advance n s.completedB } := by
  obtain ⟨buf, k, hm⟩ := microB_frame (uop s.b.seq.toNat) s
  exact ⟨buf, k, by rw [engineStepB, hm]⟩

/-- The step of an out-of-range Ring-B transform: BUF_B and the count of free values, and ENG_B completed or still busy. -/
theorem undefinedStepB_cases (s : State) :
    ∃ buf k, ((undefinedStepB s).refreshB = { s with bufB := buf, draws := k, b := s.completedB }) ∨
      (undefinedStepB s).refreshB =
        { s with bufB := buf, draws := k, b := { s.b with seq := Config.freeSeqB s.draws } } := by
  obtain ⟨buf, k, hr⟩ := refreshB_frame (undefinedStepB s)
  refine ⟨buf, k, ?_⟩
  cases h : Config.freeDone s.draws
  · exact .inr (by rw [hr]; simp [undefinedStepB, h, State.scrambleB])
  · exact .inl (by rw [hr]; simp [undefinedStepB, h, State.scrambleB])

/-! ### Commands -/

/-- The engine step of command `i` on its busy unit, the undefined entries of the buffer apart. -/
def bareStep : Instr → State → State
  | .nopA => engineStepA 1 fun _ => .nothing
  | .nttA => engineStepA stepsNttA uopNttA
  | .inttAMont => engineStepA stepsInttAMont uopInttAMont
  | .inttA => engineStepA stepsInttA uopInttA
  | .bfctA j lg k => engineStepA 1 fun _ => .bfct j.toNat lg.toNat k.toNat
  | .bfgsA j lg k => engineStepA 1 fun _ => .bfgs j.toNat lg.toNat k.toNat
  | .fscaleA j => engineStepA 1 fun _ => .fscale j.toNat
  | .redcA j => engineStepA 1 fun _ => .redc j.toNat
  | .freezeA j => engineStepA 1 fun _ => .freeze j.toNat
  | .nopB => engineStepB 1 fun _ => .nothing
  | .nttB logn => transformStepB logn.toNat (stepsNttB logn.toNat) (uopNttB logn.toNat)
  | .inttB logn => transformStepB logn.toNat (stepsInttB logn.toNat) (uopInttB logn.toNat)
  | .bfctB j lg x => engineStepB 1 fun _ => .bfct j.toNat lg.toNat x.toNat
  | .bfgsB j lg x => engineStepB 1 fun _ => .bfgs j.toNat lg.toNat x.toNat
  | .nscaleB j logn => engineStepB 1 fun _ => .nscale j.toNat logn.toNat

/-- The engine step of command `i` on its busy unit: the undefined entries of the buffer stay undefined (R73). -/
def runStep (i : Instr) (s : State) : State :=
  match unitOf i with
  | .a => (bareStep i s).refreshA
  | .b => (bareStep i s).refreshB

/-- Command `i` presented to its idle unit. -/
def present (i : Instr) (s : State) : State :=
  match unitOf i with
  | .a => s.presentA i
  | .b => s.presentB i

/-- What `exec` can do: run the next engine step on a busy unit, or be presented to an idle one. -/
theorem exec_eq (i : Instr) (s : State) :
    exec i s = .next (if s.busy (unitOf i) then runStep i s else present i s) := by
  cases i <;> rfl

theorem exec_busy {i : Instr} {s : State} (h : s.busy (unitOf i) = true) : exec i s = .next (runStep i s) := by
  rw [exec_eq, if_pos h]

theorem exec_idle {i : Instr} {s : State} (h : s.busy (unitOf i) = false) : exec i s = .next (present i s) := by
  rw [exec_eq, h]; rfl

/-- No command's meaning stops: `exec` always answers a next state. -/
theorem exec_next (i : Instr) (s : State) : ∃ t, exec i s = .next t := ⟨_, exec_eq i s⟩

/-- What presentation to an idle unit can do: acceptance, or the fault OPERAND_RANGE. -/
theorem present_cases (i : Instr) (s : State) :
    (i.WellFormed ∧ unitOf i = .a ∧ present i s = { s with a := s.a.accept (encode i) }) ∨
    (i.WellFormed ∧ unitOf i = .b ∧ present i s = { s with b := s.b.accept (encode i) }) ∨
    (¬ i.WellFormed ∧ present i s = s.raise (unitOf i) .operandRange) := by
  by_cases hw : i.WellFormed
  · cases hu : unitOf i
    · exact .inl ⟨hw, rfl, by simp [present, hu, State.presentA, hw]⟩
    · exact .inr (.inl ⟨hw, rfl, by simp [present, hu, State.presentB, hw]⟩)
  · refine .inr (.inr ⟨hw, ?_⟩)
    cases hu : unitOf i <;> simp [present, hu, State.presentA, State.presentB, hw]

/-- What the bare step of a running ENG_A command changes. -/
theorem bareStep_a_frame {i : Instr} (h : unitOf i = .a) (s : State) :
    ∃ n buf k, stepCount i = some n ∧ bareStep i s = { s with bufA := buf, draws := k, a := s.a.advance n s.completedA } := by
  have go (i : Instr) (n : Nat) (uop : Nat → MicroA) (hn : stepCount i = some n)
      (hr : bareStep i s = engineStepA n uop s) :
      ∃ n buf k, stepCount i = some n ∧ bareStep i s = { s with bufA := buf, draws := k, a := s.a.advance n s.completedA } :=
    let ⟨buf, k, hs⟩ := engineStepA_frame n uop s
    ⟨n, buf, k, hn, hr.trans hs⟩
  cases i with
  | nopA => exact go _ _ (fun _ => .nothing) rfl rfl
  | nttA => exact go _ _ uopNttA rfl rfl
  | inttAMont => exact go _ _ uopInttAMont rfl rfl
  | inttA => exact go _ _ uopInttA rfl rfl
  | bfctA j lg k => exact go _ _ (fun _ => .bfct j.toNat lg.toNat k.toNat) rfl rfl
  | bfgsA j lg k => exact go _ _ (fun _ => .bfgs j.toNat lg.toNat k.toNat) rfl rfl
  | fscaleA j => exact go _ _ (fun _ => .fscale j.toNat) rfl rfl
  | redcA j => exact go _ _ (fun _ => .redc j.toNat) rfl rfl
  | freezeA j => exact go _ _ (fun _ => .freeze j.toNat) rfl rfl
  | _ => simp [unitOf] at h

/-- What the bare step of a running ENG_B command changes: an advance, or anything at all of BUF_B and the completion. -/
theorem bareStep_b_frame {i : Instr} (h : unitOf i = .b) (s : State) :
    (∃ n buf k, stepCount i = some n ∧ bareStep i s = { s with bufB := buf, draws := k, b := s.b.advance n s.completedB }) ∨
    (stepCount i = none ∧ bareStep i s = undefinedStepB s) := by
  have go (i : Instr) (n : Nat) (uop : Nat → MicroB) (hn : stepCount i = some n)
      (hr : bareStep i s = engineStepB n uop s) :
      ∃ n buf k, stepCount i = some n ∧ bareStep i s = { s with bufB := buf, draws := k, b := s.b.advance n s.completedB } :=
    let ⟨buf, k, hs⟩ := engineStepB_frame n uop s
    ⟨n, buf, k, hn, hr.trans hs⟩
  cases i with
  | nttB logn =>
    by_cases hl : legalLogn logn.toNat = true
    · exact .inl (go _ (stepsNttB logn.toNat) (uopNttB logn.toNat) (by simp [stepCount, hl])
        (by simp [bareStep, transformStepB, hl]))
    · exact .inr ⟨by simp [stepCount, hl], by simp [bareStep, transformStepB, hl]⟩
  | inttB logn =>
    by_cases hl : legalLogn logn.toNat = true
    · exact .inl (go _ (stepsInttB logn.toNat) (uopInttB logn.toNat) (by simp [stepCount, hl])
        (by simp [bareStep, transformStepB, hl]))
    · exact .inr ⟨by simp [stepCount, hl], by simp [bareStep, transformStepB, hl]⟩
  | nopB => exact .inl (go _ _ (fun _ => .nothing) rfl rfl)
  | bfctB j lg x => exact .inl (go _ _ (fun _ => .bfct j.toNat lg.toNat x.toNat) rfl rfl)
  | bfgsB j lg x => exact .inl (go _ _ (fun _ => .bfgs j.toNat lg.toNat x.toNat) rfl rfl)
  | nscaleB j logn => exact .inl (go _ _ (fun _ => .nscale j.toNat logn.toNat) rfl rfl)
  | _ => simp [unitOf] at h

/-- A bare step changes no undefined entry's mark. -/
theorem bareStep_undef (i : Instr) (s : State) : (bareStep i s).undefA = s.undefA ∧ (bareStep i s).undefB = s.undefB := by
  cases hu : unitOf i
  · obtain ⟨_, _, _, _, h⟩ := bareStep_a_frame hu s
    rw [h]; exact ⟨rfl, rfl⟩
  · rcases bareStep_b_frame hu s with ⟨_, _, _, _, h⟩ | ⟨_, h⟩
    · rw [h]; exact ⟨rfl, rfl⟩
    · rw [h]; exact ⟨rfl, rfl⟩

/-- On a buffer with no undefined entry the step is the bare step. -/
theorem runStep_a_defined {i : Instr} (h : unitOf i = .a) {s : State} (hd : s.undefA = []) : runStep i s = bareStep i s := by
  simp only [runStep, h]
  exact refreshA_defined _ ((bareStep_undef i s).1.trans hd)

theorem runStep_b_defined {i : Instr} (h : unitOf i = .b) {s : State} (hd : s.undefB = []) : runStep i s = bareStep i s := by
  simp only [runStep, h]
  exact refreshB_defined _ ((bareStep_undef i s).2.trans hd)

/-! ### The marks of undefined entries play no part in a step -/

theorem storePairB_marks (j lg x y : Nat) (u : List Nat) (s : State) :
    storePairB j lg x y { s with undefB := u } = { storePairB j lg x y s with undefB := u } := by
  by_cases h : CanonicalB (s.coefB j) ∧ CanonicalB (s.coefB (partner j lg))
  · rw [show storePairB j lg x y s = _ from if_pos h]
    exact if_pos h
  · rw [show storePairB j lg x y s = _ from if_neg h]
    exact if_neg h

theorem microA_marks (m : MicroA) (u : List Nat) (s : State) :
    microA m { s with undefA := u } = { microA m s with undefA := u } := by
  cases m <;> rfl

theorem microB_marks (m : MicroB) (u : List Nat) (s : State) :
    microB m { s with undefB := u } = { microB m s with undefB := u } := by
  cases m with
  | nothing => rfl
  | bfct j lg x => exact storePairB_marks _ _ _ _ u s
  | bfgs j lg x => exact storePairB_marks _ _ _ _ u s
  | nscale j logn =>
    simp only [microB]
    by_cases h : CanonicalB (s.coefB j)
    · rw [show nscaleBOp j logn s = _ from if_pos h]
      exact if_pos h
    · rw [show nscaleBOp j logn s = _ from if_neg h]
      exact if_neg h

theorem engineStepA_marks (n : Nat) (uop : Nat → MicroA) (u : List Nat) (s : State) :
    engineStepA n uop { s with undefA := u } = { engineStepA n uop s with undefA := u } := by
  simp only [engineStepA, microA_marks]
  rfl

theorem engineStepB_marks (n : Nat) (uop : Nat → MicroB) (u : List Nat) (s : State) :
    engineStepB n uop { s with undefB := u } = { engineStepB n uop s with undefB := u } := by
  simp only [engineStepB, microB_marks]
  rfl

theorem bareStep_a_marks {i : Instr} (h : unitOf i = .a) (u : List Nat) (s : State) :
    bareStep i { s with undefA := u } = { bareStep i s with undefA := u } := by
  cases i <;> first | (simp only [bareStep]; exact engineStepA_marks _ _ u s) | simp [unitOf] at h

theorem transformStepB_marks (l n : Nat) (uop : Nat → MicroB) (u : List Nat) (s : State) :
    transformStepB l n uop { s with undefB := u } = { transformStepB l n uop s with undefB := u } := by
  unfold transformStepB
  split
  · exact engineStepB_marks n uop u s
  · rfl

theorem bareStep_b_marks {i : Instr} (h : unitOf i = .b) (u : List Nat) (s : State) :
    bareStep i { s with undefB := u } = { bareStep i s with undefB := u } := by
  cases i <;>
    first
    | (simp only [bareStep]; exact engineStepB_marks _ _ u s)
    | (simp only [bareStep]; exact transformStepB_marks _ _ _ u s)
    | simp [unitOf] at h

/-- What a step of a running ENG_A command changes. -/
theorem runStep_a_frame {i : Instr} (h : unitOf i = .a) (s : State) :
    ∃ n buf k, stepCount i = some n ∧ runStep i s = { s with bufA := buf, draws := k, a := s.a.advance n s.completedA } := by
  obtain ⟨n, _, _, hn, hb⟩ := bareStep_a_frame h s
  obtain ⟨buf, k, hr⟩ := refreshA_frame (bareStep i s)
  refine ⟨n, buf, k, hn, ?_⟩
  simp only [runStep, h]
  rw [hr, hb]

/-- What a step of a running ENG_B command changes: an advance, or anything at all of BUF_B and the completion. -/
theorem runStep_b_frame {i : Instr} (h : unitOf i = .b) (s : State) :
    (∃ n buf k, stepCount i = some n ∧ runStep i s = { s with bufB := buf, draws := k, b := s.b.advance n s.completedB }) ∨
    (stepCount i = none ∧ runStep i s = (undefinedStepB s).refreshB) := by
  have hs : runStep i s = (bareStep i s).refreshB := by simp only [runStep, h]
  obtain ⟨buf, k, hr⟩ := refreshB_frame (bareStep i s)
  rcases bareStep_b_frame h s with ⟨n, _, _, hn, hb⟩ | ⟨hn, hb⟩
  · exact .inl ⟨n, buf, k, hn, by rw [hs, hr, hb]⟩
  · exact .inr ⟨hn, by rw [hs, hb]⟩

/-- Completion and advance of a running unit, in the words claims use. -/
theorem completedA_eq (s : State) : s.completedA = finishedA s := rfl

theorem completedB_eq (s : State) : s.completedB = finishedB s := rfl

theorem advance_runningA {k : Nat} {s : State} (h : RunningA k s) (n : Nat) :
    s.a.advance n s.completedA = advancedA k n s := by
  have hs : s.a.seq + 1 = BitVec.ofNat 11 (k + 1) := by
    apply BitVec.eq_of_toNat_eq
    simp [BitVec.toNat_add, h.seq]
  unfold Engine.advance advancedA
  rw [h.seq, hs, completedA_eq]

theorem advance_runningB {k : Nat} {s : State} (h : RunningB k s) (n : Nat) :
    s.b.advance n s.completedB = advancedB k n s := by
  have hs : s.b.seq + 1 = BitVec.ofNat 13 (k + 1) := by
    apply BitVec.eq_of_toNat_eq
    simp [BitVec.toNat_add, h.seq]
  unfold Engine.advance advancedB
  rw [h.seq, hs, completedB_eq]

/-! ### Agents -/

/-- What a CMD write can do (R104): UNIT_BUSY, a decode error, or the command. -/
theorem presentCommand_cases (w : Word) (s : State) :
    (s.busy (unitField w) = true ∧ presentCommand w s = .next (s.raise (unitField w) .unitBusy)) ∨
    (s.busy (unitField w) = false ∧ ∃ e, decode w = .error e ∧
      presentCommand w s = .next (s.raise (unitField w) (causeOf e))) ∨
    (s.busy (unitField w) = false ∧ ∃ i, decode w = .ok i ∧ presentCommand w s = exec i s) := by
  unfold presentCommand
  cases hb : s.busy (unitField w)
  · cases hd : decode w with
    | error e => exact .inr (.inl ⟨rfl, e, rfl, by simp⟩)
    | ok i => exact .inr (.inr ⟨rfl, i, rfl, by simp⟩)
  · exact .inl ⟨rfl, by simp⟩

/-- What a unit's turn can do when it answers a next state: nothing on an idle unit, else the running command's step. -/
theorem engineTurn_next {x : Eng} {s t : State} (h : engineTurn x s = .next t) :
    (s.busy x = false ∧ t = s) ∨
    (s.busy x = true ∧ ∃ i, decode (s.cur x) = .ok i ∧ unitOf i = x ∧ t = runStep i s) := by
  unfold engineTurn at h
  cases hb : s.busy x
  · simp [hb] at h
    exact .inl ⟨rfl, h.symm⟩
  · rw [hb, if_pos rfl] at h
    cases hd : decode (s.cur x) with
    | error e => simp [hd] at h
    | ok i =>
      by_cases hu : unitOf i = x
      · subst hu
        simp only [hd, if_pos, exec_busy hb, Host.Outcome.next.injEq] at h
        exact .inr ⟨rfl, i, rfl, rfl, h.symm⟩
      · simp [hd, hu] at h

/-! ### The window -/

/-- What a legal write other than to CMD can do: the STATUS action, a busy buffer made undefined, one entry of an idle
buffer written, which is then defined, or nothing. -/
theorem poke_cases (off : Nat) (v : Word) (s : State) :
    (off = 8 ∧ s.poke off v = s.writeStatus v) ∨
    (s.a.busy = true ∧ s.poke off v = { s.scrambleA with undefA := indices 256 }) ∨
    (s.b.busy = true ∧ s.poke off v = { s.scrambleB with undefB := indices 1024 }) ∨
    (s.a.busy = false ∧ InBufA off ∧ ∃ i, i = (off - 0x1000) / 4 ∧
      s.poke off v = { s.putA i v with undefA := s.undefA.filter (· != i) }) ∨
    (s.b.busy = false ∧ InBufB off ∧ ∃ i, i = (off - 0x2000) / 4 ∧
      s.poke off v = { s.putB i (v.setWidth 16) with undefB := s.undefB.filter (· != i) }) ∨
    s.poke off v = s := by
  unfold State.poke
  split
  · exact .inl ⟨by assumption, rfl⟩
  · split
    · unfold State.hostWriteA
      split
      · exact .inr (.inl ⟨by assumption, rfl⟩)
      · rename_i hb
        exact .inr (.inr (.inr (.inl ⟨by simpa using hb, by assumption, _, rfl, rfl⟩)))
    · split
      · unfold State.hostWriteB
        split
        · exact .inr (.inr (.inl ⟨by assumption, rfl⟩))
        · rename_i hb
          exact .inr (.inr (.inr (.inr (.inl ⟨by simpa using hb, by assumption, _, rfl, rfl⟩))))
      · exact .inr (.inr (.inr (.inr (.inr rfl))))

/-- A legal read changes the reply and the count of free values, nothing else. -/
theorem readWindow_frame (off : Nat) (s : State) :
    ∃ r n, s.readWindow off = { s with reply := some (.data r), draws := n } := by
  unfold State.readWindow
  repeat' split
  all_goals exact ⟨_, _, rfl⟩

/-- What a transaction can do when it answers a next state: a read or a bus error, a legal write, or a CMD write. -/
theorem transact_next {t : Txn} {s u : State} (h : transact t s = .next u) :
    (∃ r n, u = { s with reply := some r, draws := n }) ∨
    (∃ off v, off ≠ 0x0004 ∧ t = .write off 4 v ∧ u = State.poke off v { s with reply := some .written }) ∨
    (∃ v, t = .write 0x0004 4 v ∧ presentCommand v { s with reply := some .written } = .next u) := by
  cases t with
  | read off size =>
    simp only [transact] at h
    split at h
    · cases h
    · split at h
      · cases h
        obtain ⟨r, n, hr⟩ := readWindow_frame off s
        exact .inl ⟨.data r, n, hr⟩
      · cases h
        exact .inl ⟨.error, s.draws, rfl⟩
  | write off size v =>
    simp only [transact] at h
    split at h
    · cases h
    · split at h
      · rename_i hl
        have hs : size = 4 := hl.1
        subst hs
        split at h
        · rename_i hc
          have hc' : off = 0x0004 := hc
          subst hc'
          exact .inr (.inr ⟨v, rfl, h⟩)
        · rename_i hc
          cases h
          exact .inr (.inl ⟨off, v, hc, rfl, rfl⟩)
      · cases h
        exact .inl ⟨.error, s.draws, rfl⟩

/-- What the host's turn can do when it answers a next state. -/
theorem hostTurn_next {s t : State} (h : hostTurn s = .next t) :
    (s.port = [] ∧ t = s) ∨
    (∃ tx rest, s.port = .txn tx :: rest ∧ transact tx { s with port := rest } = .next t) ∨
    (∃ x rest, s.port = .wait x :: rest ∧
      t = { s with reply := some (.data s.status), port := if s.busy x then s.port else rest }) := by
  unfold hostTurn at h
  split at h
  · cases h
    exact .inl ⟨by assumption, rfl⟩
  · exact .inr (.inl ⟨_, _, by assumption, h⟩)
  · cases h
    exact .inr (.inr ⟨_, _, by assumption, rfl⟩)

end Sys2Proof.Machine
end

