-- ==== Sys2Proof/Laws/PerInstr.lean ====
section
/-! SUPPORT. Statements about every command as syntax, one lemma per constructor. -/

/-- Bit 7 of a command's word names the unit the command belongs to (30_encoding.md rule R94). -/
def Sys2Proof.Laws.UnitBit.Statement (i : Sys2Proof.Instr) : Prop :=
  Sys2Proof.unitField (Sys2Proof.encode i) = Sys2Proof.Machine.unitOf i

namespace Sys2Proof.Laws.UnitBit

/-- Bit 7 of an assembled word is bit 7 of its opcode. -/
theorem unitField_assemble (o : Opcode) (idx : BitVec 10) (lg : BitVec 4) (tw : BitVec 10) :
    unitField (assemble o idx lg tw) = if o.code.getLsbD 7 then .b else .a := by
  unfold unitField
  rw [getLsbD_assemble, if_pos (show 7 < 8 by decide)]

theorem nopA : Statement .nopA := unitField_assemble .nopA 0 0 0
theorem nttA : Statement .nttA := unitField_assemble .nttA 0 0 0
theorem inttAMont : Statement .inttAMont := unitField_assemble .inttAMont 0 0 0
theorem inttA : Statement .inttA := unitField_assemble .inttA 0 0 0
theorem bfctA (j : BitVec 10) (lg : BitVec 4) (k : BitVec 10) : Statement (.bfctA j lg k) :=
  unitField_assemble .bfctA j lg k
theorem bfgsA (j : BitVec 10) (lg : BitVec 4) (k : BitVec 10) : Statement (.bfgsA j lg k) :=
  unitField_assemble .bfgsA j lg k
theorem fscaleA (j : BitVec 10) : Statement (.fscaleA j) := unitField_assemble .fscaleA j 0 0
theorem redcA (j : BitVec 10) : Statement (.redcA j) := unitField_assemble .redcA j 0 0
theorem freezeA (j : BitVec 10) : Statement (.freezeA j) := unitField_assemble .freezeA j 0 0
theorem nopB : Statement .nopB := unitField_assemble .nopB 0 0 0
theorem nttB (logn : BitVec 4) : Statement (.nttB logn) := unitField_assemble .nttB 0 logn 0
theorem inttB (logn : BitVec 4) : Statement (.inttB logn) := unitField_assemble .inttB 0 logn 0
theorem bfctB (j : BitVec 10) (lg : BitVec 4) (x : BitVec 10) : Statement (.bfctB j lg x) :=
  unitField_assemble .bfctB j lg x
theorem bfgsB (j : BitVec 10) (lg : BitVec 4) (x : BitVec 10) : Statement (.bfgsB j lg x) :=
  unitField_assemble .bfgsB j lg x
theorem nscaleB (j : BitVec 10) (logn : BitVec 4) : Statement (.nscaleB j logn) :=
  unitField_assemble .nscaleB j logn 0

end Sys2Proof.Laws.UnitBit
end

