-- ==== Sys2Proof/Tests/Slice0.lean ====
section
/-! SUPPORT. Tests on fixed values. Expected results are those of spec/95_test_vectors.md (V1 to V13), of the examples of
30_encoding.md rule R101, or words written out from the encoding rules R91 to R93. The last part holds, for every statement
with hypotheses, a concrete state and operands that meet them. -/

namespace Sys2Proof.Tests
open Sys2Proof Sys2Proof.Machine

/- One theorem after another: elaborated at once, the kernel evaluations below ask for more threads than memory has room. -/
set_option Elab.async false

/-! ### Helpers -/

/-- The machine after reset, once a host has written 0 to every entry of both buffers. -/
def zeroed : State := { State.reset with bufA := Vector.replicate 256 0, bufB := Vector.replicate 1024 0 }

/-- `s` with the listed entries of BUF_A. -/
def withA (cs : List (Nat × Int)) (s : State) : State := cs.foldl (fun t c => t.putA c.1 (int32 c.2)) s

/-- `s` with the listed entries of BUF_B. -/
def withB (cs : List (Nat × Nat)) (s : State) : State := cs.foldl (fun t c => t.putB c.1 (u16 c.2)) s

/-- ENG_A running `i` with `k` steps done, on a zero buffer but for the listed entries. -/
def runningA (i : Instr) (k : Nat) (cs : List (Nat × Int)) : State :=
  withA cs { zeroed with a := { zeroed.a with busy := true, cur := encode i, seq := BitVec.ofNat 11 k } }

/-- ENG_B running `i` with `k` steps done, on a zero buffer but for the listed entries. -/
def runningB (i : Instr) (k : Nat) (cs : List (Nat × Nat)) : State :=
  withB cs { zeroed with b := { zeroed.b with busy := true, cur := encode i, seq := BitVec.ofNat 13 k } }

/-- A property of the next state; false where there is none. -/
def ends (o : Outcome) (p : State → Bool) : Bool :=
  match o with
  | .next t => p t
  | .fault _ => false
  | .refused _ => false

/-- One engine step of a running ENG_A command: the listed entries afterwards, and the STATUS word. -/
def stepsToA (i : Instr) (k : Nat) (cs : List (Nat × Int)) (after : List (Nat × Int)) (st : Word) : Bool :=
  ends (exec i (runningA i k cs)) fun t => after.all (fun c => t.coefA c.1 == c.2) && t.status == st

/-- One engine step of a running ENG_B command: the listed entries afterwards, and the STATUS word. -/
def stepsToB (i : Instr) (k : Nat) (cs : List (Nat × Nat)) (after : List (Nat × Nat)) (st : Word) : Bool :=
  ends (exec i (runningB i k cs)) fun t => after.all (fun c => t.coefB c.1 == c.2) && t.status == st

/-- The STATUS word after a CMD write. -/
def statusAfter (w : Word) (s : State) (st : Word) : Bool :=
  ends (transact (.write 0x0004 4 w) s) fun t => t.status == st && t.reply == some .written

/-- What a read answers. -/
def reads (off size : Nat) (s : State) (r : Reply) : Bool :=
  ends (transact (.read off size) s) fun t => t.reply == some r

/-! ### Well-formedness: an ill-formed command for each check of R96, the values of V10 -/

theorem test_wf_accepts_range_ends :
    (Instr.bfctA 127 7 255).WellFormed ∧ (Instr.bfgsA 254 0 128).WellFormed ∧ (Instr.fscaleA 255).WellFormed ∧
    (Instr.bfctB 511 9 1023).WellFormed ∧ (Instr.bfgsB 1022 0 0).WellFormed ∧ (Instr.nscaleB 1023 10).WellFormed := by
  decide
theorem test_wf_refuses_partner_a : ¬ (Instr.bfctA 128 7 1).WellFormed := by decide
theorem test_wf_refuses_distance_a : ¬ (Instr.bfctA 0 8 1).WellFormed := by decide
theorem test_wf_refuses_twiddle_0 : ¬ (Instr.bfctA 0 0 0).WellFormed := by decide
theorem test_wf_refuses_twiddle_256 : ¬ (Instr.bfctA 0 0 256).WellFormed := by decide
theorem test_wf_refuses_index_bfgs_a : ¬ (Instr.bfgsA 1000 0 1).WellFormed := by decide
theorem test_wf_refuses_partner_bfgs_a : ¬ (Instr.bfgsA 255 0 128).WellFormed := by decide
theorem test_wf_refuses_index_fscale : ¬ (Instr.fscaleA 256).WellFormed := by decide
theorem test_wf_refuses_index_redc : ¬ (Instr.redcA 256).WellFormed := by decide
theorem test_wf_refuses_index_freeze : ¬ (Instr.freezeA 1023).WellFormed := by decide
theorem test_wf_refuses_partner_b : ¬ (Instr.bfctB 512 9 1).WellFormed := by decide
theorem test_wf_refuses_distance_b : ¬ (Instr.bfctB 0 10 1).WellFormed := by decide
theorem test_wf_refuses_partner_bfgs_b : ¬ (Instr.bfgsB 1023 0 0).WellFormed := by decide
theorem test_wf_refuses_logn_0 : ¬ (Instr.nscaleB 0 0).WellFormed := by decide
theorem test_wf_refuses_logn_11 : ¬ (Instr.nscaleB 0 11).WellFormed := by decide

/-! ### Decoding: a word of every command, its fields written out as TW, LG, IDX, OPC (R91) -/

theorem test_decode_nop_a : decode (0b0000000000#10 ++ 0b0000#4 ++ 0b0000000000#10 ++ 0x00#8) = .ok .nopA := by decide
theorem test_decode_ntt_a : decode (0b0000000000#10 ++ 0b0000#4 ++ 0b0000000000#10 ++ 0x01#8) = .ok .nttA := by decide
theorem test_decode_intt_a_mont :
    decode (0b0000000000#10 ++ 0b0000#4 ++ 0b0000000000#10 ++ 0x02#8) = .ok .inttAMont := by decide
theorem test_decode_intt_a : decode (0b0000000000#10 ++ 0b0000#4 ++ 0b0000000000#10 ++ 0x03#8) = .ok .inttA := by decide
theorem test_decode_bfct_a :
    decode (0b0001000000#10 ++ 0b0001#4 ++ 0b0000001010#10 ++ 0x10#8) = .ok (.bfctA 10 1 64) := by decide
theorem test_decode_bfgs_a :
    decode (0b0010000000#10 ++ 0b0000#4 ++ 0b0011111110#10 ++ 0x11#8) = .ok (.bfgsA 254 0 128) := by decide
theorem test_decode_fscale_a :
    decode (0b0000000000#10 ++ 0b0000#4 ++ 0b0011111111#10 ++ 0x12#8) = .ok (.fscaleA 255) := by decide
theorem test_decode_redc_a :
    decode (0b0000000000#10 ++ 0b0000#4 ++ 0b0000000011#10 ++ 0x13#8) = .ok (.redcA 3) := by decide
theorem test_decode_freeze_a :
    decode (0b0000000000#10 ++ 0b0000#4 ++ 0b0000000011#10 ++ 0x14#8) = .ok (.freezeA 3) := by decide
theorem test_decode_nop_b : decode (0b0000000000#10 ++ 0b0000#4 ++ 0b0000000000#10 ++ 0x80#8) = .ok .nopB := by decide
theorem test_decode_ntt_b :
    decode (0b0000000000#10 ++ 0b1001#4 ++ 0b0000000000#10 ++ 0x81#8) = .ok (.nttB 9) := by decide
theorem test_decode_intt_b :
    decode (0b0000000000#10 ++ 0b1010#4 ++ 0b0000000000#10 ++ 0x82#8) = .ok (.inttB 10) := by decide
theorem test_decode_bfct_b :
    decode (0b1111111111#10 ++ 0b1001#4 ++ 0b0111111111#10 ++ 0x90#8) = .ok (.bfctB 511 9 1023) := by decide
theorem test_decode_bfgs_b :
    decode (0b0000000011#10 ++ 0b0010#4 ++ 0b0000000010#10 ++ 0x91#8) = .ok (.bfgsB 2 2 3) := by decide
theorem test_decode_nscale_b :
    decode (0b0000000000#10 ++ 0b1010#4 ++ 0b1111111111#10 ++ 0x92#8) = .ok (.nscaleB 1023 10) := by decide

/-- Whole words of V4, V7 and V10, through the host's entry. -/
theorem test_decode_table_words :
    decodeTableWord 32 0x10040A10 = some (.bfctA 10 1 64) ∧ decodeTableWord 32 0x3FDC7F10 = some (.bfctA 127 7 255) ∧
    decodeTableWord 32 0x00C80291 = some (.bfgsB 2 2 3) ∧ decodeTableWord 32 0xFFC3FE91 = some (.bfgsB 1022 0 1023) ∧
    decodeTableWord 32 0x002BFF92 = some (.nscaleB 1023 10) ∧ decodeTableWord 32 0x00000081 = some (.nttB 0) ∧
    decodeTableWord 32 0x00000101 = none ∧ decodeTableWord 32 0xFFFFFF04 = none := by decide

/-- Illegal fields and opcodes (V10). -/
theorem test_decode_errors :
    decode 0x00400001 = .error .illegalField ∧ decode 0x00040003 = .error .illegalField ∧
    decode 0x00040313 = .error .illegalField ∧ decode 0x01680082 = .error .illegalField ∧
    decode 0x00540092 = .error .illegalField ∧ decode 0x0000007F = .error .illegalOpcode ∧
    decode 0x000000FF = .error .illegalOpcode := by decide

theorem test_encode_is_the_word :
    encode (.bfgsA 254 0 128) = 0x2000FE11 ∧ encode (.nscaleB 5 9) = 0x00240592 ∧ encode (.inttB 10) = 0x00280082 ∧
    encode (.bfctB 511 9 1023) = 0xFFE5FF90 := by decide

/-! ### Arithmetic (V1, V2, V3) and ROMs (V13) -/

theorem test_redc :
    redcA 25847 = -3572223 ∧ redcA 2147483648 = -4190208 ∧ redcA (-2147483648) = -4190209 ∧
    redcA 17996808470921215 = 114592 ∧ redcA 12345678901234 = -285156 := by decide
theorem test_freeze : freezeA (-8380418) = 8380416 ∧ freezeA 75423752 = 8380416 ∧ freezeA (-4186625) = 4193792 := by decide
theorem test_mq :
    mqAdd 12288 12288 = 12287 ∧ mqSub 0 1 = 12288 ∧ mqSub 3 4894 = 7398 ∧ mqMul 12000 300 = 11612 := by decide
theorem test_zeta :
    [0, 1, 2, 3, 4, 127, 128, 129, 254, 255].map zetaA =
      [0, 25847, -2608894, -518909, 237124, 3839961, 2091667, 3407706, -846154, 1976782] := by decide +kernel
theorem test_w :
    [0, 1, 2, 3, 4, 511, 512, 513, 1022, 1023].map wB = [1, 10810, 7143, 4043, 10984, 11035, 7, 1936, 6811, 3511] := by
  decide +kernel

/-! ### Single engine steps (V4 to V8): entries and STATUS afterwards -/

theorem test_nop_a : stepsToA .nopA 0 [(0, 5)] [(0, 5)] 0x2 := by decide +kernel
theorem test_bfct_a_exact : stepsToA (.bfctA 254 0 255) 0 [(254, -8380416), (255, 8380416)]
    [(254, -7648982), (255, -9111850), (253, 0)] 0x2 := by decide +kernel
theorem test_bfct_a_at_the_bound : stepsToA (.bfctA 127 7 255) 0 [(127, 2080440319), (255, 2080440319)]
    [(127, 2084689089), (255, 2076191549)] 0x2 := by decide +kernel
theorem test_bfgs_a_negated_twiddle : stepsToA (.bfgsA 10 1 64) 0 [(10, 100), (12, -50)]
    [(10, 50), (12, -28415)] 0x2 := by decide +kernel
theorem test_bfgs_a_largest_sum : stepsToA (.bfgsA 0 0 255) 0 [(0, 1073741824), (1, 1073741823)]
    [(0, 2147483647), (1, 731434)] 0x2 := by decide +kernel
theorem test_fscale_a : stepsToA (.fscaleA 255) 0 [(255, 1)] [(255, 16382)] 0x2 := by decide +kernel
theorem test_fscale_a_least : stepsToA (.fscaleA 7) 0 [(7, -2147483648)] [(7, -20989)] 0x2 := by decide +kernel
theorem test_redc_a : stepsToA (.redcA 3) 0 [(3, -2147483648)] [(3, -4190209)] 0x2 := by decide +kernel
theorem test_freeze_a : stepsToA (.freezeA 3) 0 [(3, -2147483648)] [(3, 6283521)] 0x2 := by decide +kernel
theorem test_ntt_a_step_192 : stepsToA .nttA 192 [(128, -3678391), (192, -1327314)]
    [(128, -3692970), (192, -3663812)] 0x1 := by decide +kernel
theorem test_ntt_a_last_step : stepsToA .nttA 1023 [(254, -11083864), (255, 3333183)]
    [(254, -8685897), (255, -13481831)] 0x2 := by decide +kernel
theorem test_intt_a_mont_step_129 : stepsToA .inttAMont 129 [(1, 900509), (3, 2112304)]
    [(1, 3012813), (3, -469436)] 0x1 := by decide +kernel
theorem test_intt_a_mont_last_step : stepsToA .inttAMont 1279 [(255, 65280)] [(255, -3276416)] 0x2 := by decide +kernel
theorem test_intt_a_step_1025 : stepsToA .inttA 1025 [(1, 25141507)] [(1, -4186625)] 0x1 := by decide +kernel
theorem test_intt_a_step_1790 : stepsToA .inttA 1790 [(255, -3276416)] [(255, 255)] 0x1 := by decide +kernel
theorem test_nop_b : stepsToB .nopB 0 [(1023, 7)] [(1023, 7)] 0x200 := by decide +kernel
theorem test_bfct_b : stepsToB (.bfctB 511 9 1023) 0 [(511, 12288), (1023, 1)] [(511, 3510), (1023, 8777)] 0x200 := by
  decide +kernel
theorem test_bfct_b_wraps : stepsToB (.bfctB 5 0 0) 0 [(5, 10), (6, 20)] [(5, 30), (6, 12279)] 0x200 := by decide +kernel
theorem test_bfgs_b : stepsToB (.bfgsB 1022 0 1023) 0 [(1022, 12288)] [(1022, 12288), (1023, 3511)] 0x200 := by
  decide +kernel
theorem test_bfgs_b_twiddle_0 : stepsToB (.bfgsB 0 0 0) 0 [(1, 1)] [(0, 1), (1, 1)] 0x200 := by decide +kernel
theorem test_nscale_b : stepsToB (.nscaleB 5 10) 0 [(5, 12288)] [(5, 12)] 0x200 := by decide +kernel
theorem test_nscale_b_size_2 : stepsToB (.nscaleB 1 1) 0 [(1, 10)] [(1, 5)] 0x200 := by decide +kernel
theorem test_ntt_b_step_7 : stepsToB (.nttB 3) 7 [(0, 1), (1, 8246), (2, 1), (3, 4043), (4, 1), (6, 1), (7, 10810)]
    [(5, 5146), (7, 7143), (4, 1)] 0x100 := by decide +kernel
theorem test_ntt_b_last_step : stepsToB (.nttB 2) 3 [(2, 4438), (3, 5918)] [(2, 4229), (3, 4647)] 0x200 := by decide +kernel
theorem test_intt_b_step_1 : stepsToB (.inttB 2) 1 [(2, 4229), (3, 4647)] [(2, 8876), (3, 11836)] 0x100 := by decide +kernel
theorem test_intt_b_last_step : stepsToB (.inttB 3) 19 [(7, 12281)] [(7, 12288)] 0x200 := by decide +kernel

/-- The schedules at the steps of V9 where a layer or a pass begins or ends. -/
theorem test_schedule_steps :
    uopNttA 255 = .bfct 191 6 3 ∧ uopNttA 511 = .bfct 239 4 15 ∧ uopInttA 1023 = .bfgs 127 7 1 ∧
    uopInttA 1281 = .freeze 0 ∧ uopNttB 9 2303 = .bfct 510 0 511 ∧ uopInttB 9 1 = .bfgs 2 0 510 ∧
    uopInttB 10 5119 = .bfgs 511 9 1 ∧ uopInttB 10 6143 = .nscale 1023 10 := by decide
theorem test_step_counts :
    [1, 2, 3, 4, 5, 6, 7, 8, 9, 10].map stepsNttB = [1, 4, 12, 32, 80, 192, 448, 1024, 2304, 5120] ∧
    [1, 2, 3, 4, 5, 6, 7, 8, 9, 10].map stepsInttB = [3, 8, 20, 48, 112, 256, 576, 1280, 2816, 6144] := by decide

/-! ### CMD writes and STATUS (V10, V11) -/

theorem test_cmd_status :
    [((0x00000000 : Word), (0x00000001 : Word)), (0x00400001, 0x24), (0x00000004, 0x14), (0x000000FF, 0x1400),
      (0xFFFFFF04, 0x14), (0x005C8010, 0x34), (0x3FDC7F10, 0x01), (0x00240181, 0x2400), (0x00000081, 0x100),
      (0x002C0081, 0x100), (0x0003FE91, 0x100), (0x0003FF91, 0x3400), (0x00000092, 0x3400), (0x00540092, 0x2400)].all
      (fun c => statusAfter c.1 zeroed c.2) = true := by decide +kernel

/-- UNIT_BUSY outranks the other causes, and the other unit still accepts (V10). -/
theorem test_cmd_busy :
    (statusAfter 0x00000004 (runningA .nttA 0 []) 0x45 && statusAfter 0x00000080 (runningA .nttA 0 []) 0x101) = true := by
  decide +kernel

/-- V11, lines 3 and 4: an older cause is kept, and a command is accepted although ERR is set. -/
theorem test_oldest_cause_is_kept :
    (statusAfter 0x00010012 (zeroed.raise .a .illegalOpcode) 0x14 &&
      statusAfter 0x00000000 (zeroed.raise .a .illegalOpcode) 0x15) = true := by decide +kernel

/-- V11, lines 6 to 9 and 16. -/
theorem test_status_write :
    let s : State := { zeroed.raise .a .illegalOpcode with a := { (zeroed.raise .a .illegalOpcode).a with done := true } }
    (s.writeStatus 0x1).status = 0x16 ∧ (s.writeStatus 0x2).status = 0x14 ∧ (s.writeStatus 0x400).status = 0x16 ∧
    (s.clearFault .a).status = 0x2 ∧ (s.writeStatus 0xFFFFFFFF).status = 0 := by decide +kernel

/-! ### The window (V12) -/

theorem test_window_reads :
    ([((0x0000 : Nat), (0x4E545445 : Word)), (0x0004, 0), (0x0008, 0), (0x000C, 0), (0x0010, 0x007FE001),
      (0x0014, 0x100), (0x0018, 0x6D9), (0x001C, 0x003FFE00), (0x0020, 0xFC7FDFFF), (0x0024, 0xA3FA), (0x0030, 0x3001),
      (0x0034, 0x400), (0x0038, 7), (0x0FFC, 0), (0x1408, 0xFFD83102), (0x17FC, 0x001E29CE), (0x1800, 0),
      (0x3004, 0x2A3A), (0x3FFC, 0x0DB7)].all fun c => reads c.1 4 zeroed (.data c.2)) = true := by decide +kernel

theorem test_window_writes :
    (ends (transact (.write 0x13FC 4 0x80000000) zeroed) (fun t => t.coefA 255 == -2147483648) &&
      ends (transact (.write 0x2000 4 0x12345678) zeroed)
        (fun t => t.coefB 0 == 0x5678 && reads 0x2000 4 t (.data 0x5678)) &&
      ends (transact (.write 0x1404 4 0) zeroed) (fun t => reads 0x1404 4 t (.data 0x64F7))) = true := by decide +kernel

theorem test_window_errors :
    (reads 0x1000 2 zeroed .error && reads 0x0008 1 zeroed .error && reads 0x1002 4 zeroed .error &&
      ends (transact (.write 0x1000 8 1) zeroed) (fun t => t.reply == some .error && t.coefA 0 == 0)) = true := by
  decide +kernel

theorem test_outside_window : transact (.read 0x4000 4) zeroed = .fault .outsideWindow := rfl

/-- The little-endian view (R65, end of V12). -/
theorem test_byte_order :
    [0x1000, 0x1001, 0x1002, 0x1003].map (byteOfWord 0x11223344) = [0x44, 0x33, 0x22, 0x11] := by decide

/-! ### Turns -/

/-- A word handed to the machine right after reset is accepted or rejected in the very next step (V10). -/
theorem test_first_step_after_reset :
    (ends (step (State.reset.withFetchWord 32 0x005C0010)) (fun t => t.status == 1 && t.a.cur == 0x005C0010) &&
      ends (step (State.reset.withFetchWord 32 0x00000010)) (fun t => t.status == 0x34)) = true := by decide +kernel

/-- A turn of the running unit is its next engine step. -/
theorem test_engine_turn :
    ends (step { runningB (.nttB 1) 0 [(0, 3), (1, 5)] with sched := [.agent .engB] })
      (fun t => t.coefB 0 == 4897 && t.coefB 1 == 7398 && t.status == 0x200) = true := by decide +kernel

/-- A round of the schedule ends with a turn of a unit, of the two by turns (R70). -/
theorem test_round_ends_with_a_unit (n : Nat) :
    (scheduleRound (2 * n)).getLast? = some (.agent .engA) ∧ (scheduleRound (2 * n + 1)).getLast? = some (.agent .engB) := by
  simp [scheduleRound, closingUnit, Nat.add_mod]

/-- A completion leaves CUR_A and SEQ_A.step at values nothing fixes (R41, U7). -/
theorem test_completion_leaves_cur_and_seq_free :
    ∃ t, exec .nopA (runningA .nopA 0 []) = .next t ∧ t.a.cur = Config.idleCurA 0 ∧ t.a.seq = Config.idleSeqA 0 ∧
      t.a.completions = 1 := ⟨_, rfl, rfl, rfl, rfl⟩

/-- An entry made undefined stays so: `freeze.a` does not leave a known range in it (R73, U3); the same command on an entry
that the host has rewritten does. -/
theorem test_undefined_entry_stays_undefined :
    (∃ t, exec (.freezeA 255) { runningA (.freezeA 255) 0 [(255, -1)] with undefA := [255] } = .next t ∧
      t.entryA 255 = Config.freeA 255 ∧ t.undefA = [255]) ∧
    ends (exec (.freezeA 255) { runningA (.freezeA 255) 0 [(255, -1)] with undefA := [254] })
      (fun t => t.coefA 255 == 8380416 && t.undefA == [254]) = true := by
  refine ⟨⟨_, exec_busy rfl, ?_, refreshA_undefA _⟩, by decide +kernel⟩
  exact (entryA_refreshA _ (i := 255) (by decide)).trans (if_pos (List.mem_singleton.mpr rfl))

/-- `wait.a` stays in the queue while ENG_A is busy and leaves it when it is not (R102). -/
theorem test_wait :
    (ends (hostTurn { runningA .nopA 0 [] with port := [.wait .a] }) (fun t => t.port == [.wait .a]) &&
      ends (hostTurn { zeroed with port := [.wait .a] }) (fun t => t.port == [] && t.reply == some (.data 0))) = true := by
  decide +kernel

/-- Reset ends a running command (R250). -/
theorem test_reset_turn :
    ends (step { runningA .nttA 7 [] with sched := [.reset] }) (fun t => t.status == 0 && t.resets == 1) = true := by
  decide +kernel

/-! ### Assembler lines (R101) and aliases (R103) -/

theorem test_assembler :
    (["ntt.a", "intt.a.mont", "ntt.b 9", "bfct.a 0, 7, 1", "bfgs.a 254, 0, 0x80 # a comment", "nscale.b 1, 1"].map
      fun l => (parseLine l.toList).map encode) =
    [some 0x00000001, some 0x00000002, some 0x00240081, some 0x005C0010, some 0x2000FE11, some 0x00040192] := by
  decide +kernel

theorem test_aliases :
    (["mldsa44_ntt", "mldsa87_invntt_tomont", "mldsa65_invntt", "falcon_ntt 9", "falcon_intt 10", "ntt.c"].map
      fun l => (parseLine l.toList).map encode) =
    [some 0x00000001, some 0x00000002, some 0x00000003, some 0x00240081, some 0x00280082, none] := by
  decide +kernel

/-! ### For each statement with hypotheses: a state and operands that meet them

A witness is named after its statement. Where a statement has several clauses, each clause has its own, at an end of its
range. Statements without hypotheses have none. -/

theorem zeroed_legal : zeroed.Legal := by
  refine ⟨⟨?_, ?_⟩, ⟨?_, ?_⟩, ?_, ?_, List.nil_sublist _, List.nil_sublist _⟩
  iterate 4 decide
  · exact fun h => Bool.noConfusion h
  · exact fun h => Bool.noConfusion h

/-- A unit of `runningA` is running with nothing undefined. -/
theorem runningA_running (i : Instr) {k : Nat} (h : k < 2048) : RunningA k (runningA i k []) :=
  ⟨rfl, rfl, by show (BitVec.ofNat 11 k).toNat = k; simpa using h⟩

theorem runningB_running (i : Instr) {k : Nat} (h : k < 8192) : RunningB k (runningB i k []) :=
  ⟨rfl, rfl, by show (BitVec.ofNat 13 k).toNat = k; simpa using h⟩

theorem runningA_legal : (runningA (.bfctA 127 7 255) 0 []).Legal := by
  refine ⟨⟨?_, ?_⟩, ⟨?_, ?_⟩, ?_, ?_, List.nil_sublist _, List.nil_sublist _⟩
  iterate 4 decide
  · exact fun _ => ⟨.bfctA 127 7 255, by decide, rfl, by decide, by intro n hn; cases hn; decide⟩
  · exact fun h => Bool.noConfusion h

theorem runningB_legal : (runningB (.inttB 10) 6143 []).Legal := by
  refine ⟨⟨?_, ?_⟩, ⟨?_, ?_⟩, ?_, ?_, List.nil_sublist _, List.nil_sublist _⟩
  iterate 4 decide
  · exact fun h => Bool.noConfusion h
  · exact fun _ => ⟨.inttB 10, by decide, rfl, by decide, by intro n hn; cases hn; decide⟩

theorem witness_EncodeOfDecodeIsTheWord : decode 0xFFE5FF90 = .ok (.bfctB 511 9 1023) := by decide

theorem witness_CmdWriteChecksThenAccepts_busy : (runningA .nopA 0 []).busy (unitField 0x00000004) = true := by decide
theorem witness_CmdWriteChecksThenAccepts_opcode :
    zeroed.busy (unitField 0x00000004) = false ∧ opcodeOf (opcField 0x00000004) = none := by decide
theorem witness_CmdWriteChecksThenAccepts_field :
    zeroed.busy (unitField 0x80000001) = false ∧ opcodeOf (opcField 0x80000001) = some .nttA ∧
    (0x80000001 : Word) &&& Opcode.nttA.format.mask ≠ Opcode.nttA.code.setWidth 32 := by decide
theorem witness_CmdWriteChecksThenAccepts_operand :
    zeroed.busy (unitField 0x2000FF11) = false ∧ decode 0x2000FF11 = .ok (.bfgsA 255 0 128) ∧
    ¬ (Instr.bfgsA 255 0 128).WellFormed := by decide
theorem witness_CmdWriteChecksThenAccepts_accept_a :
    unitField 0x2000FE11 = .a ∧ zeroed.a.busy = false ∧ decode 0x2000FE11 = .ok (.bfgsA 254 0 128) ∧
    (Instr.bfgsA 254 0 128).WellFormed := by decide
theorem witness_CmdWriteChecksThenAccepts_accept_b :
    unitField 0x0003FE91 = .b ∧ zeroed.b.busy = false ∧ decode 0x0003FE91 = .ok (.bfgsB 1022 0 0) ∧
    (Instr.bfgsB 1022 0 0).WellFormed := by decide
theorem witness_CmdWriteChecksThenAccepts_steps : stepCount (.nttB 1) = some 1 := rfl

theorem witness_UnassignedOpcodesAreRejected_a :
    (opcField 0x04).toNat = 0x04 ∧ (opcField 0x0F).toNat = 0x0F ∧ (opcField 0x15).toNat = 0x15 ∧
    (opcField 0x7F).toNat = 0x7F ∧ zeroed.a.busy = false := by decide
theorem witness_UnassignedOpcodesAreRejected_b :
    (opcField 0x83).toNat = 0x83 ∧ (opcField 0x8F).toNat = 0x8F ∧ (opcField 0x93).toNat = 0x93 ∧
    (opcField 0xFF).toNat = 0xFF ∧ zeroed.b.busy = false := by decide
theorem witness_UnassignedOpcodesAreRejected_assigned :
    [0x03, 0x10, 0x14, 0x80, 0x82, 0x90, 0x92].map (fun w => (opcField w).toNat) =
      [0x03, 0x10, 0x14, 0x80, 0x82, 0x90, 0x92] := by decide

theorem witness_NonzeroUnusedFieldIsRejected_z :
    zeroed.busy (unitField 0x80000003) = false ∧ opcodeOf (opcField 0x80000003) = some .inttA ∧
    twField 0x80000003 ≠ 0 := by decide
theorem witness_NonzeroUnusedFieldIsRejected_l :
    zeroed.busy (unitField 0x00240181) = false ∧ opcodeOf (opcField 0x00240181) = some .nttB ∧
    idxField 0x00240181 ≠ 0 := by decide
theorem witness_NonzeroUnusedFieldIsRejected_i :
    zeroed.busy (unitField 0x00040313) = false ∧ opcodeOf (opcField 0x00040313) = some .redcA ∧
    lgField 0x00040313 ≠ 0 := by decide
theorem witness_NonzeroUnusedFieldIsRejected_il :
    zeroed.busy (unitField 0x00540092) = false ∧ opcodeOf (opcField 0x00540092) = some .nscaleB ∧
    twField 0x00540092 ≠ 0 := by decide

theorem witness_OperandRangesOfTheOpcodeMap :
    zeroed.busy (unitOf (.nscaleB 0 11)) = false ∧ ¬ (Instr.nscaleB 0 11).WellFormed := by decide

theorem witness_FaultEntryKeepsTheOldestCause : (runningB .nopB 0 []).busy (unitField 0x00000080) = true := by decide

theorem witness_CmdWriteReachesOnlyItsUnit :
    decode 0x00000080 = .ok .nopB ∧ zeroed.busy (unitField 0x00000080) = false ∧
    ∃ t, presentCommand 0x00000080 zeroed = .next t := ⟨by decide, by decide, _, rfl⟩

theorem witness_RedcDividesByTheRadix :
    (-2 ^ 31 : Int) ≤ -58728449 ∧ (-58728449 : Int) ≤ 2 ^ 31 - 1 ∧ ((1 : Int) * 4236238847 - -58728449) % 2 ^ 32 = 0 ∧
    ((2 ^ 31 : Int) * 4236238847 - -2 ^ 31) % 2 ^ 32 = 0 := by decide

theorem witness_LawsOfRedc :
    |(17996808470921215 : Int)| < 2 ^ 31 * 8380417 ∧ |(-2147483647 : Int)| < 2 ^ 31 := by decide

theorem witness_EngineProductsReduceBelowQA :
    FitsInt32 (-2147483648) ∧ FitsInt32 2147483647 ∧ 255 < 256 ∧
    (-1976782 * -2147483648 = -zetaA 255 * -2147483648 ∨ (-1976782 * -2147483648 : Int) = -2147483648) := by
  decide +kernel

theorem witness_FreezeIsTheCanonicalRepresentative : FitsInt32 (-2147483648) ∧ FitsInt32 2147483647 := by decide

theorem witness_RingBArithmetic : 12288 < 12289 ∧ 0 < 12289 := by decide

theorem witness_RomContents : 1 ≤ 255 ∧ 255 < 256 ∧ 1023 < 1024 ∧ 10 ≤ 10 := by decide

theorem witness_MirrorIdentity : 7 < 8 ∧ 127 < 2 ^ 7 ∧ 9 < 10 ∧ 511 < 2 ^ 9 := by decide

/-- The butterfly commands of ENG_A at the largest indices, with a product that is not zero. -/
theorem witness_BfctAButterfly :
    let s := runningA (.bfctA 127 7 255) 0 [(127, 2080440319), (255, 2080440319)]
    RunningA 0 s ∧ (7#4).toNat ≤ 7 ∧ (127#10).toNat + 2 ^ 7 ≤ 255 ∧ 1 ≤ (255#10).toNat ∧ (255#10).toNat ≤ 255 ∧
    FitsInt32 (s.coefA 127 - redcA (zetaA 255 * s.coefA 255)) ∧
    FitsInt32 (s.coefA 127 + redcA (zetaA 255 * s.coefA 255)) :=
  ⟨⟨rfl, rfl, rfl⟩, by decide, by decide, by decide, by decide, by decide +kernel, by decide +kernel⟩

theorem witness_BfgsAButterfly :
    let s := runningA (.bfgsA 254 0 1) 0 [(254, 1073741824), (255, 1073741823)]
    RunningA 0 s ∧ (0#4).toNat ≤ 7 ∧ (254#10).toNat + 2 ^ 0 ≤ 255 ∧ 1 ≤ (1#10).toNat ∧ (1#10).toNat ≤ 255 ∧
    FitsInt32 (s.coefA 254 + s.coefA 255) ∧ FitsInt32 (s.coefA 254 - s.coefA 255) :=
  ⟨⟨rfl, rfl, rfl⟩, by decide, by decide, by decide, by decide, by decide +kernel, by decide +kernel⟩

/-- The overflowing stores of V4: in `bfct.a` and in `bfgs.a` the sum overflows. -/
theorem witness_ButterflyOverflowLeavesFreeValues :
    let s := runningA (.bfctA 0 0 128) 0 [(0, 2147483647), (1, 2147483647)]
    RunningA 0 s ∧ (Instr.bfctA 0 0 128).WellFormed ∧
    ¬ FitsInt32 (s.coefA 0 + redcA (zetaA 128 * s.coefA 1)) ∧ ¬ FitsInt32 (s.coefA 0 + s.coefA 1) :=
  ⟨⟨rfl, rfl, rfl⟩, by decide, by decide +kernel, by decide +kernel⟩
/-- In both the difference overflows, and the sum does not. -/
theorem witness_ButterflyOverflowLeavesFreeValues_difference :
    let s := runningA (.bfctA 0 0 128) 0 [(0, -2147483648), (1, 1)]
    RunningA 0 s ∧ (Instr.bfctA 0 0 128).WellFormed ∧
    ¬ FitsInt32 (s.coefA 0 - redcA (zetaA 128 * s.coefA 1)) ∧ FitsInt32 (s.coefA 0 + redcA (zetaA 128 * s.coefA 1)) ∧
    ¬ FitsInt32 (s.coefA 0 - s.coefA 1) ∧ FitsInt32 (s.coefA 0 + s.coefA 1) :=
  ⟨⟨rfl, rfl, rfl⟩, by decide, by decide +kernel, by decide +kernel, by decide +kernel, by decide +kernel⟩

theorem witness_FscaleAResult :
    RunningA 0 (runningA (.fscaleA 255) 0 [(255, 1)]) ∧ (255#10).toNat ≤ 255 := ⟨⟨rfl, rfl, rfl⟩, by decide⟩

theorem witness_RedcAResult :
    RunningA 0 (runningA (.redcA 255) 0 [(255, -2147483648)]) ∧ (255#10).toNat ≤ 255 :=
  ⟨⟨rfl, rfl, rfl⟩, by decide⟩

theorem witness_FreezeAResult :
    RunningA 0 (runningA (.freezeA 255) 0 [(255, -1)]) ∧ (255#10).toNat ≤ 255 ∧
    ∃ r r', exec (.freezeA 255) (runningA (.freezeA 255) 0 [(255, -1)]) = .next r ∧ r'.bufA = r.bufA ∧ RunningA 0 r' :=
  ⟨⟨rfl, rfl, rfl⟩, by decide, _, { zeroed with
    bufA := (freezeAOp 255 (runningA (.freezeA 255) 0 [(255, -1)])).bufA
    a := (runningA (.freezeA 255) 0 []).a }, rfl, rfl, rfl, rfl, rfl⟩

theorem witness_NopsComplete :
    RunningA 0 (runningA .nopA 0 []) ∧ RunningB 0 (runningB .nopB 0 []) ∧ zeroed.a.busy = false ∧ zeroed.b.busy = false ∧
    (runningA .nttA 0 []).a.busy = true ∧ (runningB .nopB 0 []).b.busy = true ∧
    opcField 0x00000100 = 0x00 ∧ opcField 0x80000080 = 0x80 :=
  ⟨runningA_running _ (by decide), runningB_running _ (by decide), rfl, rfl, rfl, rfl, by decide, by decide⟩

theorem witness_BfctBButterfly :
    let s := runningB (.bfctB 511 9 1023) 0 [(511, 12288), (1023, 12288)]
    RunningB 0 s ∧ (9#4).toNat ≤ 9 ∧ (511#10).toNat + 2 ^ 9 ≤ 1023 ∧ s.coefB 511 < 12289 ∧ s.coefB (511 + 2 ^ 9) < 12289 :=
  ⟨⟨rfl, rfl, rfl⟩, by decide, by decide, by decide +kernel, by decide +kernel⟩

theorem witness_BfgsBButterfly :
    let s := runningB (.bfgsB 1022 0 0) 0 [(1022, 0), (1023, 12288)]
    RunningB 0 s ∧ (0#4).toNat ≤ 9 ∧ (1022#10).toNat + 2 ^ 0 ≤ 1023 ∧ s.coefB 1022 < 12289 ∧ s.coefB (1022 + 2 ^ 0) < 12289 :=
  ⟨⟨rfl, rfl, rfl⟩, by decide, by decide, by decide +kernel, by decide +kernel⟩

theorem witness_NscaleBResult :
    let s := runningB (.nscaleB 1023 10) 0 [(1023, 12288)]
    RunningB 0 s ∧ 1 ≤ (10#4).toNat ∧ (10#4).toNat ≤ 10 ∧ s.coefB 1023 < 12289 :=
  ⟨⟨rfl, rfl, rfl⟩, by decide, by decide, by decide +kernel⟩
theorem witness_NscaleBResult_rejected : zeroed.b.busy = false ∧ (0#4).toNat = 0 ∧ 11 ≤ (11#4).toNat := by decide

theorem witness_OutOfRangeOperandLeavesFreeValues_first :
    let s := runningB (.bfctB 0 0 1) 0 [(0, 12289)]
    RunningB 0 s ∧ (Instr.bfctB 0 0 1).WellFormed ∧ 12289 ≤ s.coefB 0 :=
  ⟨⟨rfl, rfl, rfl⟩, by decide, by decide +kernel⟩
theorem witness_OutOfRangeOperandLeavesFreeValues_second :
    let s := runningB (.bfgsB 0 0 1) 0 [(1, 65535)]
    RunningB 0 s ∧ (Instr.bfctB 0 0 1).WellFormed ∧ 12289 ≤ s.coefB (0 + 2 ^ 0) :=
  ⟨⟨rfl, rfl, rfl⟩, by decide, by decide +kernel⟩
theorem witness_OutOfRangeOperandLeavesFreeValues_nscale :
    let s := runningB (.nscaleB 5 3) 0 [(5, 40000)]
    RunningB 0 s ∧ (Instr.nscaleB 5 3).WellFormed ∧ 12289 ≤ s.coefB 5 :=
  ⟨⟨rfl, rfl, rfl⟩, by decide, by decide +kernel⟩

theorem witness_NttAEngineStep :
    RunningA 1023 (runningA .nttA 1023 []) ∧ 1023 < 1024 ∧
    Instr.bfctA 254 0 255 = .bfctA (BitVec.ofNat 10 (2 * 2 ^ 0 * (127 / 2 ^ 0) + 127 % 2 ^ 0)) (BitVec.ofNat 4 (7 - 7))
      (BitVec.ofNat 10 (2 ^ 7 + 127 / 2 ^ 0)) :=
  ⟨runningA_running _ (by decide), by decide, by decide⟩

theorem witness_InttAEngineSteps_layer :
    RunningA 1023 (runningA .inttA 1023 []) ∧
    ∃ l p len, 1023 < 1024 ∧ l = 1023 / 128 ∧ p = 1023 % 128 ∧ len = 2 ^ l ∧
      Instr.bfgsA 127 7 1 = .bfgsA (BitVec.ofNat 10 (2 * len * (p / len) + p % len)) (BitVec.ofNat 4 l)
        (BitVec.ofNat 10 (2 ^ (8 - l) - 1 - p / len)) :=
  ⟨runningA_running _ (by decide), 7, 127, 128, by decide⟩
theorem witness_InttAEngineSteps_scale :
    RunningA 1279 (runningA .inttAMont 1279 []) ∧ 1024 ≤ 1279 ∧ 1279 < 1280 ∧
    Instr.fscaleA 255 = .fscaleA (BitVec.ofNat 10 (1279 - 1024)) :=
  ⟨runningA_running _ (by decide), by decide⟩
theorem witness_InttAEngineSteps_redc :
    RunningA 1280 (runningA .inttA 1280 []) ∧ 1280 < 1792 ∧ (1280 - 1280) % 2 = 0 ∧
    Instr.redcA 0 = .redcA (BitVec.ofNat 10 ((1280 - 1280) / 2)) :=
  ⟨runningA_running _ (by decide), by decide⟩
theorem witness_InttAEngineSteps_freeze :
    RunningA 1791 (runningA .inttA 1791 []) ∧ 1791 < 1792 ∧ (1791 - 1280) % 2 = 1 ∧
    Instr.freezeA 255 = .freezeA (BitVec.ofNat 10 ((1791 - 1280) / 2)) :=
  ⟨runningA_running _ (by decide), by decide⟩

theorem witness_TransformBEngineSteps_forward :
    RunningB 5119 (runningB (.nttB 10) 5119 []) ∧ 5119 < 10 * (2 ^ 10 / 2) ∧
    Instr.bfctB 1022 0 1023 = .bfctB (BitVec.ofNat 10 (511 / 1 * (2 ^ 10 / 2 ^ 9) + 511 % 1)) (BitVec.ofNat 4 (10 - 1 - 9))
      (BitVec.ofNat 10 (2 ^ 9 + 511 / 1)) :=
  ⟨runningB_running _ (by decide), by decide, by decide⟩
theorem witness_TransformBEngineSteps_inverse :
    RunningB 0 (runningB (.inttB 1) 0 []) ∧ 0 < 1 * (2 ^ 1 / 2) ∧
    Instr.bfgsB 0 0 1 = .bfgsB (BitVec.ofNat 10 (0 / 1 * 2 * 1 + 0 % 1)) (BitVec.ofNat 4 0)
      (BitVec.ofNat 10 (2 * (2 ^ 1 / 2 ^ 1) - 1 - 0 / 1)) :=
  ⟨runningB_running _ (by decide), by decide, by decide⟩
theorem witness_TransformBEngineSteps_scale :
    RunningB 6143 (runningB (.inttB 10) 6143 []) ∧ 10 * (2 ^ 10 / 2) ≤ 6143 ∧ 6143 < 10 * (2 ^ 10 / 2) + 2 ^ 10 ∧
    Instr.nscaleB 1023 10 = .nscaleB (BitVec.ofNat 10 (6143 - 10 * (2 ^ 10 / 2))) 10 :=
  ⟨runningB_running _ (by decide), by decide⟩

theorem witness_OutOfRangeLognIsUndefinedInBufB :
    (runningB (.nttB 0) 0 []).b.busy = true ∧ (0#4).toNat = 0 ∧ (runningB (.inttB 11) 0 []).b.busy = true ∧
    11 ≤ (11#4).toNat := by decide

/-- The state of the statements about whole runs of ENG_A commands: zero preservation, the loop nests. -/
theorem witness_RingAMacrosRunTheirLoopNests : RunningA 0 (runningA .inttA 0 []) := runningA_running _ (by decide)

theorem witness_RingBMacrosRunTheirLoopNests :
    1 ≤ (10#4).toNat ∧ (10#4).toNat ≤ 10 ∧ RunningB 0 (runningB (.inttB 10) 0 []) :=
  ⟨by decide, by decide, runningB_running _ (by decide)⟩

/-- A buffer whose entries are all the largest the bound admits. -/
def allA (v : Int) : State := { runningA .nttA 0 [] with bufA := Vector.replicate 256 (int32 v) }

/-- A buffer whose entries are all `v`. -/
def allB (i : Instr) (v : Nat) : State := { runningB i 0 [] with bufB := Vector.replicate 1024 (u16 v) }

theorem coefA_allA (v : Int) {n : Nat} (h : n < 256) : (allA v).coefA n = (int32 v).toInt := by
  simp [State.coefA, State.entryA, allA, h]

theorem coefB_allB (i : Instr) (v : Nat) {n : Nat} (h : n < 1024) : (allB i v).coefB n = (u16 v).toNat := by
  simp [State.coefB, State.entryB, allB, h]

theorem witness_ForwardTransformBound :
    RunningA 0 (allA 2080440319) ∧ BoundedA 2080440319 (allA 2080440319) ∧ (2080440319 : Int) ≤ 2080440319 :=
  ⟨⟨rfl, rfl, rfl⟩, fun i h => by rw [coefA_allA _ h]; decide, by decide⟩
theorem witness_ForwardTransformBound_below_q :
    RunningA 0 (allA 8380416) ∧ BoundedA 8380416 (allA 8380416) ∧ (8380416 : Int) < 8380417 ∧ 8 ≤ 8 :=
  ⟨⟨rfl, rfl, rfl⟩, fun i h => by rw [coefA_allA _ h]; decide, by decide, by decide⟩

theorem witness_InverseTransformBound : RunningA 0 (allA 8388607) ∧ BoundedA 8388607 (allA 8388607) :=
  ⟨⟨rfl, rfl, rfl⟩, fun i h => by rw [coefA_allA _ h]; decide⟩

theorem witness_ZeroBufferIsAFixedPoint_a : RunningA 0 (allA 0) ∧ ∀ i, i < 256 → (allA 0).coefA i = 0 :=
  ⟨⟨rfl, rfl, rfl⟩, fun i h => by rw [coefA_allA _ h]; decide⟩
theorem witness_ZeroBufferIsAFixedPoint_b :
    RunningB 0 (allB (.nttB 10) 0) ∧ 1 ≤ (10#4).toNat ∧ (10#4).toNat ≤ 10 ∧
    ∀ i, i < 2 ^ (10#4).toNat → (allB (.nttB 10) 0).coefB i = 0 :=
  ⟨⟨rfl, rfl, rfl⟩, by decide, by decide, fun i h => by rw [coefB_allB _ _ h]; decide⟩

theorem witness_NttAOutputOrder : RunningA 0 (allA (-2080440319)) ∧ BoundedA 2080440319 (allA (-2080440319)) :=
  ⟨⟨rfl, rfl, rfl⟩, fun i h => by rw [coefA_allA _ h]; decide⟩

theorem witness_NttBOutputOrder :
    RunningB 0 (allB (.nttB 10) 12288) ∧ 1 ≤ (10#4).toNat ∧ (10#4).toNat ≤ 10 ∧
    CanonicalBufB (2 ^ (10#4).toNat) (allB (.nttB 10) 12288) :=
  ⟨⟨rfl, rfl, rfl⟩, by decide, by decide, fun i h => by rw [coefB_allB _ _ h]; decide⟩

theorem witness_RoundTripA :
    RunningA 0 (allA (-8380416)) ∧ (∀ i, i < 256 → |(allA (-8380416)).coefA i| < 8380417) ∧
    ∀ t : State, ∃ u : State, u.bufA = t.bufA ∧ RunningA 0 u :=
  ⟨⟨rfl, rfl, rfl⟩, fun i h => by rw [coefA_allA _ h]; decide,
    fun t => ⟨{ runningA .inttA 0 [] with bufA := t.bufA }, rfl, rfl, rfl, rfl⟩⟩

theorem witness_RoundTripB :
    RunningB 0 (allB (.nttB 1) 12288) ∧ 1 ≤ (1#4).toNat ∧ (1#4).toNat ≤ 10 ∧
    CanonicalBufB (2 ^ (1#4).toNat) (allB (.nttB 1) 12288) ∧
    ∀ t : State, ∃ u : State, u.bufB = t.bufB ∧ RunningB 0 u :=
  ⟨⟨rfl, rfl, rfl⟩, by decide, by decide,
    fun i h => by rw [coefB_allB _ _ (Nat.lt_of_lt_of_le h (by decide))]; decide,
    fun t => ⟨{ runningB (.inttB 1) 0 [] with bufB := t.bufB }, rfl, rfl, rfl, rfl⟩⟩

theorem witness_RingBStaysCanonical :
    unitOf (.bfctB 511 9 1023) = .b ∧ (Instr.bfctB 511 9 1023).WellFormed ∧ stepCount (.bfctB 511 9 1023) = some 1 ∧
    RunningB 0 (allB (.bfctB 511 9 1023) 12288) ∧ CanonicalBufB 1024 (allB (.bfctB 511 9 1023) 12288) :=
  ⟨rfl, by decide, rfl, ⟨rfl, rfl, rfl⟩, fun i h => by rw [coefB_allB _ _ h]; decide⟩

/-- A running unit, all of whose buffer the host has made undefined. -/
def undefinedA (i : Instr) : State := { runningA i 0 [] with undefA := indices 256 }

def undefinedB (i : Instr) : State := { runningB i 0 [] with undefB := indices 1024 }

theorem witness_WindowReads :
    zeroed.a.busy = false ∧ zeroed.b.busy = false ∧ 255 ∉ zeroed.undefA ∧ 1023 ∉ zeroed.undefB ∧
    (runningA .nopA 0 []).a.busy = true ∧ (runningB .nopB 0 []).b.busy = true ∧
    0x003C % 4 = 0 ∧ 0x0FFC % 4 = 0 ∧ 0x1800 % 4 = 0 ∧ 0x1FFC % 4 = 0 := by decide
theorem witness_WindowReads_undefined :
    let s : State := { zeroed with undefA := [255], undefB := [1023] }
    s.a.busy = false ∧ 255 ∈ s.undefA ∧ s.b.busy = false ∧ 1023 ∈ s.undefB := by decide

theorem witness_WindowWrites :
    zeroed.a.busy = false ∧ zeroed.b.busy = false ∧ 255 < 256 ∧ 1023 < 1024 ∧ 0x000C % 4 = 0 ∧ 0x0FFC % 4 = 0 ∧
    0x1400 % 4 = 0 ∧ 0x3FFC % 4 = 0 := by decide

theorem witness_BusyBufferWriteMakesTheBufferUndefined_write :
    255 < 256 ∧ (runningA .nttA 0 []).a.busy = true ∧ 1023 < 1024 ∧ (runningB (.nttB 10) 0 []).b.busy = true := by decide
/-- Some entries marked, and none. -/
theorem witness_BusyBufferWriteMakesTheBufferUndefined_step :
    unitOf (.freezeA 255) = .a ∧ (undefinedA (.freezeA 255)).a.busy = true ∧ 255 ∈ (undefinedA (.freezeA 255)).undefA ∧
    unitOf .nopB = .b ∧ (undefinedB .nopB).b.busy = true ∧ (undefinedB .nopB).undefB ≠ [] ∧
    (runningB .nopB 0 []).undefB = [] := by
  refine ⟨rfl, rfl, ?_, rfl, rfl, List.ne_nil_of_mem (a := 1023) ?_, rfl⟩
  · simp [undefinedA]
  · simp [undefinedB]
theorem witness_BusyBufferWriteMakesTheBufferUndefined_rewrite :
    let s : State := { zeroed with undefA := [0, 255], sched := [.agent .host], port := [.txn (.write 0x13FC 4 7)] }
    let u : State := { zeroed with undefB := [1023], sched := [.agent .host], port := [.txn (.write 0x2FFC 4 7)] }
    255 ∈ s.undefA ∧ ends (step s) (fun t => t.undefA == [0]) = true ∧
    1023 ∈ u.undefB ∧ ends (step u) (fun t => t.undefB == []) = true := by decide +kernel

theorem witness_MalformedTransactionsAreBusErrors : 0x3FFF < 0x4000 ∧ 0x3FFF % 4 ≠ 0 ∧ 2 ≠ 4 := by decide

theorem witness_StepRunsTheCommandWritten :
    let s : State := { zeroed with sched := [.agent .host], port := [.txn (.write 0x0004 4 0x00240081)] }
    s.sched = .agent .host :: [] ∧ s.port = .txn (.write 0x0004 4 0x00240081) :: [] ∧
    s.busy (unitField 0x00240081) = false ∧ decode 0x00240081 = .ok (.nttB 9) ∧
    decodeTableWord 32 0x00240081 = some (.nttB 9) := by decide
/-- A STATUS write, a wait on a busy and on an idle unit, and nothing pending. -/
theorem witness_StepRunsTheCommandWritten_other :
    let s (u : State) (ops : List HostOp) : State := { u with sched := [.agent .host], port := ops }
    (s zeroed [.txn (.write 0x0008 4 2)]).port = .txn (.write 0x0008 4 2) :: [] ∧
    (s (runningB .nopB 0 []) [.wait .b]).port = .wait .b :: [] ∧ (s (runningB .nopB 0 []) [.wait .b]).busy .b = true ∧
    (s zeroed [.wait .a]).port = .wait .a :: [] ∧ (s zeroed [.wait .a]).busy .a = false ∧
    (s zeroed []).port = [] ∧ (s zeroed []).sched = .agent .host :: [] := by decide

theorem witness_StepRunsTheRunningCommand_a :
    let s : State := { runningA (.redcA 3) 0 [] with sched := [.agent .engA] }
    s.sched = .agent .engA :: [] ∧ s.a.busy = true ∧ decode s.a.cur = .ok (.redcA 3) ∧ unitOf (.redcA 3) = .a := by decide
theorem witness_StepRunsTheRunningCommand_b :
    let s : State := { runningB (.nscaleB 5 9) 0 [] with sched := [.agent .engB] }
    s.sched = .agent .engB :: [] ∧ s.b.busy = true ∧ decode s.b.cur = .ok (.nscaleB 5 9) ∧
    unitOf (.nscaleB 5 9) = .b := by decide

theorem witness_ResetState : ({ zeroed with sched := [.reset] } : State).sched = .reset :: [] := rfl

theorem witness_EveryStepKeepsLegal :
    State.Legal { runningA (.bfctA 127 7 255) 0 [] with sched := [.agent .engA] } ∧
    ∃ t, step { runningA (.bfctA 127 7 255) 0 [] with sched := [.agent .engA] } = .next t :=
  ⟨⟨runningA_legal.a, runningA_legal.b, runningA_legal.runA, runningA_legal.runB, runningA_legal.undefA,
    runningA_legal.undefB⟩, _, rfl⟩

theorem witness_LegalStatesStopOnlyOutsideTheWindow : zeroed.Legal := zeroed_legal

/-- A completion, and an acceptance. -/
theorem witness_BusyChangesOnlyByAcceptanceCompletionOrReset_falls :
    ends (step { runningB .nopB 0 [] with sched := [.agent .engB] }) (fun t => !t.b.busy) = true := by decide +kernel
theorem witness_BusyChangesOnlyByAcceptanceCompletionOrReset_rises :
    ends (step { zeroed with sched := [.agent .host], port := [.txn (.write 0x0004 4 0)] }) (fun t => t.a.busy) = true := by
  decide +kernel

theorem witness_FaultsComeOnlyFromTheHost :
    ends (step { zeroed with sched := [.agent .host], port := [.txn (.write 0x0004 4 4)] })
      (fun t => t.a.err != zeroed.a.err && t.a.cause != zeroed.a.cause) = true := by decide +kernel

theorem witness_EngineStepsCommute :
    let s : State := { runningA .nopA 0 [] with b := (runningB .nopB 0 []).b }
    ∃ t u, playTurn (.agent .engA) s = .next t ∧ playTurn (.agent .engB) t = .next u ∧ NothingUndefined s u :=
  ⟨_, _, rfl, rfl, rfl⟩

theorem runningA_two_left_legal : (runningA .nttA 1022 []).Legal := by
  refine ⟨⟨?_, ?_⟩, ⟨?_, ?_⟩, ?_, ?_, List.nil_sublist _, List.nil_sublist _⟩
  iterate 4 decide
  · exact fun _ => ⟨.nttA, by decide, rfl, by decide, by intro n hn; cases hn; decide⟩
  · exact fun h => Bool.noConfusion h

/-- Two steps left of `ntt.a`; and the last step of `intt.b 10`. -/
theorem witness_RunningCommandsComplete_a :
    let s : State := { runningA .nttA 1022 [] with sched := List.replicate 2 (.agent .engA) ++ [] }
    s.Legal ∧ s.a.busy = true ∧ decode s.a.cur = .ok .nttA ∧ stepCount .nttA = some 1024 ∧
    2 = 1024 - s.a.seq.toNat ∧ 1 < 2 :=
  ⟨⟨runningA_two_left_legal.a, runningA_two_left_legal.b, runningA_two_left_legal.runA,
    runningA_two_left_legal.runB, runningA_two_left_legal.undefA,
    runningA_two_left_legal.undefB⟩,
    rfl, by decide, rfl, by decide, by decide⟩
theorem witness_RunningCommandsComplete_b :
    let s : State := { runningB (.inttB 10) 6143 [] with sched := List.replicate 1 (.agent .engB) ++ [] }
    s.Legal ∧ s.b.busy = true ∧ decode s.b.cur = .ok (.inttB 10) ∧ stepCount (.inttB 10) = some 6144 ∧
    1 = 6144 - s.b.seq.toNat :=
  ⟨⟨runningB_legal.a, runningB_legal.b, runningB_legal.runA, runningB_legal.runB, runningB_legal.undefA,
    runningB_legal.undefB⟩, rfl, by decide, rfl, rfl⟩

theorem witness_FairnessEndsEveryCommand_a :
    let s : State := { runningA (.bfctA 127 7 255) 0 [] with port := [.txn (.read 0x3FFF 4)] }
    s.Legal ∧ (∀ x, HostOp.txn x ∈ s.port → x.InWindow) ∧ stepCount (.bfctA 127 7 255) = some 1 ∧ s.a.busy = true ∧
    decode s.a.cur = .ok (.bfctA 127 7 255) :=
  ⟨⟨runningA_legal.a, runningA_legal.b, runningA_legal.runA, runningA_legal.runB, runningA_legal.undefA,
    runningA_legal.undefB⟩,
    by intro x hx; simp at hx; subst hx; decide, rfl, rfl, by decide⟩
theorem witness_FairnessEndsEveryCommand_b :
    let s : State := { runningB (.inttB 10) 6143 [] with port := [.txn (.write 0 4 0)] }
    s.Legal ∧ (∀ x, HostOp.txn x ∈ s.port → x.InWindow) ∧ stepCount (.inttB 10) = some 6144 ∧ s.b.busy = true ∧
    decode s.b.cur = .ok (.inttB 10) :=
  ⟨⟨runningB_legal.a, runningB_legal.b, runningB_legal.runA, runningB_legal.runB, runningB_legal.undefA,
    runningB_legal.undefB⟩,
    by intro x hx; simp at hx; subst hx; decide, rfl, rfl, by decide⟩
theorem witness_FairnessEndsEveryCommand_polling :
    let s : State := { runningB (.inttB 10) 6143 [] with port := [.wait .b] }
    s.Legal ∧ s.port = .wait .b :: [] ∧ s.busy .b = true ∧ decode (s.cur .b) = .ok (.inttB 10) ∧
    stepCount (.inttB 10) = some 6144 :=
  ⟨⟨runningB_legal.a, runningB_legal.b, runningB_legal.runA, runningB_legal.runB, runningB_legal.undefA,
    runningB_legal.undefB⟩, rfl, rfl, by decide, rfl⟩
theorem witness_FairnessEndsEveryCommand_polled :
    let s : State := { zeroed with port := [.wait .b], sched := [.agent .engA, .agent .host] }
    s.Legal ∧ s.port = .wait .b :: [] ∧ s.busy .b = false ∧
    (∀ k, k < 1 → (s.afterTurns k).nextTurn ≠ .agent .host) ∧ (s.afterTurns 1).nextTurn = .agent .host :=
  ⟨⟨zeroed_legal.a, zeroed_legal.b, zeroed_legal.runA, zeroed_legal.runB, zeroed_legal.undefA,
    zeroed_legal.undefB⟩, rfl, rfl,
    by intro k hk; obtain rfl : k = 0 := by omega
       decide, by decide⟩
/-- A turn of the host with a pending transaction, which has a next state. -/
theorem witness_FairnessEndsEveryCommand_step :
    ends (step { zeroed with sched := [.agent .host], port := [.txn (.write 0x0008 4 2)] }) (fun _ => true) = true := by
  decide +kernel

end Sys2Proof.Tests
end

/-! The two units never interfere (00_scope.md R2, 20_memory.md R70, 60_exceptions.md R233).

A unit's turn depends on its own run state, its own buffer with the marks of its undefined entries, and the count of free
values, and on nothing of the other unit. The count is the one thing the two units share, and no turn lowers it; so when it stands at the end where it stood at
the start, neither turn moved it, and the two turns commute. -/

namespace Sys2Proof.Machine

/-! ### The part of the state that belongs to one unit -/

/-- `s` with ENG_A's run state and BUF_A as they are in `r`. -/
def State.withUnitA (r s : State) : State := { s with a := r.a, bufA := r.bufA }

/-- `s` with ENG_B's run state and BUF_B as they are in `r`. -/
def State.withUnitB (r s : State) : State := { s with b := r.b, bufB := r.bufB }

section Units
variable (q r s : State)

@[simp] theorem withUnitA_b : (s.withUnitA r).b = r.b := rfl
@[simp] theorem withUnitA_undefB : (s.withUnitA r).undefB = r.undefB := rfl
@[simp] theorem withUnitB_a : (s.withUnitB r).a = r.a := rfl
@[simp] theorem withUnitB_undefA : (s.withUnitB r).undefA = r.undefA := rfl

@[simp] theorem withUnitA_self : s.withUnitA s = s := rfl
@[simp] theorem withUnitA_withUnitA : q.withUnitA (r.withUnitA s) = q.withUnitA s := rfl
theorem withUnitA_withUnitB : q.withUnitA (r.withUnitB s) = r.withUnitB (q.withUnitA s) := rfl

end Units

/-! ### Engine steps and the other unit -/

theorem engineStepA_withUnitB (n : Nat) (uop : Nat → MicroA) (r s : State) :
    engineStepA n uop (r.withUnitB s) = r.withUnitB (engineStepA n uop s) := by
  have hm (m : MicroA) : microA m (r.withUnitB s) = r.withUnitB (microA m s) := by cases m <;> rfl
  simp only [engineStepA, withUnitB_a, hm]
  rfl

theorem refreshA_withUnitB (r s : State) : (r.withUnitB s).refreshA = r.withUnitB s.refreshA := by
  by_cases h : s.undefA = []
  · rw [refreshA_defined s h, refreshA_defined (r.withUnitB s) h]
  · simp only [State.refreshA, withUnitB_undefA, h, if_false]
    rfl

theorem storePairB_withUnitA (j lg x y : Nat) (r s : State) :
    storePairB j lg x y (r.withUnitA s) = r.withUnitA (storePairB j lg x y s) := by
  by_cases h : CanonicalB (s.coefB j) ∧ CanonicalB (s.coefB (partner j lg))
  · rw [show storePairB j lg x y s = _ from if_pos h]
    exact if_pos h
  · rw [show storePairB j lg x y s = _ from if_neg h]
    exact if_neg h

theorem microB_withUnitA (m : MicroB) (r s : State) : microB m (r.withUnitA s) = r.withUnitA (microB m s) := by
  cases m with
  | nothing => rfl
  | bfct j lg x => exact storePairB_withUnitA _ _ _ _ r s
  | bfgs j lg x => exact storePairB_withUnitA _ _ _ _ r s
  | nscale j logn =>
    by_cases h : CanonicalB (s.coefB j)
    · rw [show microB (.nscale j logn) s = _ from if_pos h]
      exact if_pos h
    · rw [show microB (.nscale j logn) s = _ from if_neg h]
      exact if_neg h

theorem engineStepB_withUnitA (n : Nat) (uop : Nat → MicroB) (r s : State) :
    engineStepB n uop (r.withUnitA s) = r.withUnitA (engineStepB n uop s) := by
  simp only [engineStepB, withUnitA_b, microB_withUnitA]
  rfl

theorem undefinedStepB_withUnitA (r s : State) :
    undefinedStepB (r.withUnitA s) = r.withUnitA (undefinedStepB s) := rfl

theorem refreshB_withUnitA (r s : State) : (r.withUnitA s).refreshB = r.withUnitA s.refreshB := by
  by_cases h : s.undefB = []
  · rw [refreshB_defined s h, refreshB_defined (r.withUnitA s) h]
  · simp only [State.refreshB, withUnitA_undefB, h, if_false]
    rfl

/-! ### Engine steps and the count of free values -/

theorem le_st32_draws (v : Int) (n : Nat) : n ≤ (st32 v n).2 := by
  rcases st32_cases v n with ⟨_, h⟩ | ⟨_, h⟩ <;> simp [h]

theorem microA_draws_le (m : MicroA) (s : State) : s.draws ≤ (microA m s).draws := by
  cases m with
  | bfct j lg k => exact (le_st32_draws _ _).trans (le_st32_draws _ _)
  | bfgs j lg k =>
    refine (le_st32_draws (s.coefA j + s.coefA (partner j lg)) s.draws).trans ?_
    simp only [microA, bfgsAOp]
    split
    · exact le_rfl
    · exact Nat.le_succ _
  | nothing => exact le_rfl
  | fscale j => exact le_rfl
  | redc j => exact le_rfl
  | freeze j => exact le_rfl

theorem storePairB_draws_le (j lg x y : Nat) (s : State) : s.draws ≤ (storePairB j lg x y s).draws := by
  rcases storePairB_cases j lg x y s with ⟨_, _, h⟩ | ⟨_, h⟩ <;> simp [h]

theorem microB_draws_le (m : MicroB) (s : State) : s.draws ≤ (microB m s).draws := by
  cases m with
  | nothing => exact le_rfl
  | bfct j lg x => exact storePairB_draws_le _ _ _ _ s
  | bfgs j lg x => exact storePairB_draws_le _ _ _ _ s
  | nscale j logn =>
    simp only [microB, nscaleBOp]
    split <;> simp

theorem refreshA_draws_le (s : State) : s.draws ≤ s.refreshA.draws := by
  rw [refreshA_draws]; split <;> omega

theorem refreshB_draws_le (s : State) : s.draws ≤ s.refreshB.draws := by
  rw [refreshB_draws]; split <;> omega

/-! ### Running commands -/

/-- The bare step of an ENG_A command is an engine step of its schedule. -/
theorem bareStep_a_eq {i : Instr} (h : unitOf i = .a) : ∃ n uop, bareStep i = engineStepA n uop := by
  cases i with
  | nopA | nttA | inttAMont | inttA | bfctA | bfgsA | fscaleA | redcA | freezeA =>
    simp only [bareStep]
    exact ⟨_, _, rfl⟩
  | _ => simp [unitOf] at h

/-- The step of a Ring-B transform is an engine step of its schedule, or the undefined one (R187). -/
theorem transformStepB_eq (l n : Nat) (uop : Nat → MicroB) :
    transformStepB l n uop = engineStepB n uop ∨ transformStepB l n uop = undefinedStepB := by
  by_cases hl : legalLogn l = true
  · exact .inl (funext fun _ => if_pos hl)
  · exact .inr (funext fun _ => if_neg hl)

/-- The bare step of an ENG_B command is an engine step of its schedule, or the undefined one (R187). -/
theorem bareStep_b_eq {i : Instr} (h : unitOf i = .b) :
    (∃ n uop, bareStep i = engineStepB n uop) ∨ bareStep i = undefinedStepB := by
  cases i with
  | nopB | bfctB | bfgsB | nscaleB =>
    simp only [bareStep]
    exact .inl ⟨_, _, rfl⟩
  | nttB | inttB => exact (transformStepB_eq _ _ _).imp_left fun ht => ⟨_, _, ht⟩
  | _ => simp [unitOf] at h

theorem runStep_a_eq {i : Instr} (h : unitOf i = .a) (s : State) : runStep i s = (bareStep i s).refreshA := by
  simp only [runStep, h]

theorem runStep_b_eq {i : Instr} (h : unitOf i = .b) (s : State) : runStep i s = (bareStep i s).refreshB := by
  simp only [runStep, h]

/-- A step of a running ENG_A command neither reads nor writes ENG_B's run state or BUF_B. -/
theorem runStep_a_withUnitB {i : Instr} (h : unitOf i = .a) (r s : State) :
    runStep i (r.withUnitB s) = r.withUnitB (runStep i s) := by
  obtain ⟨n, uop, hs⟩ := bareStep_a_eq h
  rw [runStep_a_eq h, runStep_a_eq h, hs, engineStepA_withUnitB, refreshA_withUnitB]

/-- A step of a running ENG_B command neither reads nor writes ENG_A's run state or BUF_A. -/
theorem runStep_b_withUnitA {i : Instr} (h : unitOf i = .b) (r s : State) :
    runStep i (r.withUnitA s) = r.withUnitA (runStep i s) := by
  rw [runStep_b_eq h, runStep_b_eq h]
  rcases bareStep_b_eq h with ⟨n, uop, hs⟩ | hs
  · rw [hs, engineStepB_withUnitA, refreshB_withUnitA]
  · rw [hs, undefinedStepB_withUnitA, refreshB_withUnitA]

/-- No step of a running command gives a free value back. -/
theorem runStep_draws_le (i : Instr) (s : State) : s.draws ≤ (runStep i s).draws := by
  cases h : unitOf i with
  | a =>
    obtain ⟨n, uop, hs⟩ := bareStep_a_eq h
    rw [runStep_a_eq h, hs]
    exact (microA_draws_le _ s).trans (refreshA_draws_le (engineStepA n uop s))
  | b =>
    rw [runStep_b_eq h]
    refine le_trans ?_ (refreshB_draws_le _)
    rcases bareStep_b_eq h with ⟨n, uop, hs⟩ | hs
    · rw [hs]; exact microB_draws_le _ s
    · rw [hs]; exact Nat.le_add_right s.draws 1024

/-- A step of a running ENG_A command that draws no free value changes ENG_A's run state and BUF_A, nothing else. -/
theorem runStep_a_drawless {i : Instr} (h : unitOf i = .a) {s : State} (hd : (runStep i s).draws = s.draws) :
    runStep i s = (runStep i s).withUnitA s := by
  obtain ⟨n, buf, k, _, hs⟩ := runStep_a_frame h s
  rw [hs] at hd ⊢
  subst hd
  rfl

/-- A step of a running ENG_B command that draws no free value changes ENG_B's run state and BUF_B, nothing else. -/
theorem runStep_b_drawless {i : Instr} (h : unitOf i = .b) {s : State} (hd : (runStep i s).draws = s.draws) :
    runStep i s = (runStep i s).withUnitB s := by
  have hf : ∃ buf k e, runStep i s = { s with bufB := buf, draws := k, b := e } := by
    rcases runStep_b_frame h s with ⟨n, buf, k, _, hs⟩ | ⟨_, hs⟩
    · exact ⟨buf, k, _, hs⟩
    · obtain ⟨buf, k, hc | hc⟩ := undefinedStepB_cases s <;> exact ⟨buf, k, _, hs.trans hc⟩
  obtain ⟨buf, k, e, hs⟩ := hf
  rw [hs] at hd ⊢
  subst hd
  rfl

/-! ### Turns of a unit -/

theorem engineTurn_idle {x : Eng} {s : State} (h : s.busy x = false) : engineTurn x s = .next s := by
  simp [engineTurn, h]

theorem engineTurn_busy {x : Eng} {s : State} {i : Instr} (hb : s.busy x = true) (hd : decode (s.cur x) = .ok i)
    (hu : unitOf i = x) : engineTurn x s = .next (runStep i s) := by
  subst hu
  simp [engineTurn, hb, hd, exec_busy hb]

theorem engineTurn_draws_le {x : Eng} {s t : State} (h : engineTurn x s = .next t) : s.draws ≤ t.draws := by
  rcases engineTurn_next h with ⟨_, rfl⟩ | ⟨_, i, _, _, rfl⟩
  · exact le_rfl
  · exact runStep_draws_le i s

/-- ENG_A's turn is the same whatever ENG_B's run state and BUF_B hold, and leaves them. -/
theorem engineTurn_a_withUnitB {s t : State} (h : engineTurn .a s = .next t) (r : State) :
    engineTurn .a (r.withUnitB s) = .next (r.withUnitB t) := by
  rcases engineTurn_next h with ⟨hb, rfl⟩ | ⟨hb, i, hd, hu, rfl⟩
  · exact engineTurn_idle hb
  · rw [← runStep_a_withUnitB hu]
    exact engineTurn_busy hb hd hu

/-- ENG_B's turn is the same whatever ENG_A's run state and BUF_A hold, and leaves them. -/
theorem engineTurn_b_withUnitA {s t : State} (h : engineTurn .b s = .next t) (r : State) :
    engineTurn .b (r.withUnitA s) = .next (r.withUnitA t) := by
  rcases engineTurn_next h with ⟨hb, rfl⟩ | ⟨hb, i, hd, hu, rfl⟩
  · exact engineTurn_idle hb
  · rw [← runStep_b_withUnitA hu]
    exact engineTurn_busy hb hd hu

/-- A turn of ENG_A that draws no free value changes ENG_A's run state and BUF_A, nothing else. -/
theorem engineTurn_a_drawless {s t : State} (h : engineTurn .a s = .next t) (hd : t.draws = s.draws) :
    t = t.withUnitA s := by
  rcases engineTurn_next h with ⟨_, rfl⟩ | ⟨_, i, _, hu, rfl⟩
  · rfl
  · exact runStep_a_drawless hu hd

/-- A turn of ENG_B that draws no free value changes ENG_B's run state and BUF_B, nothing else. -/
theorem engineTurn_b_drawless {s t : State} (h : engineTurn .b s = .next t) (hd : t.draws = s.draws) :
    t = t.withUnitB s := by
  rcases engineTurn_next h with ⟨_, rfl⟩ | ⟨_, i, _, hu, rfl⟩
  · rfl
  · exact runStep_b_drawless hu hd

/-- Settles O58: as the count of free values never falls, neither turn drew one, so `t` differs from `s` in ENG_A's part
alone and `u` from `t` in ENG_B's part alone; the state between the two turns in the other order is `s` with ENG_B's part
of `u`. -/
theorem engineStepsCommute : Obligations.EngineStepsCommute := by
  intro s t u hA hB hdraws
  have hst : s.draws ≤ t.draws := engineTurn_draws_le hA
  have htu : t.draws ≤ u.draws := engineTurn_draws_le hB
  have hus : u.draws = s.draws := hdraws
  have ht : t = t.withUnitA s := engineTurn_a_drawless hA (by omega)
  have hu : u = u.withUnitB t := engineTurn_b_drawless hB (by omega)
  have hs : s.withUnitA t = s := by rw [ht, withUnitA_withUnitA, withUnitA_self]
  have hbetween : s.withUnitA u = u.withUnitB s :=
    calc s.withUnitA u = s.withUnitA (u.withUnitB t) := congrArg _ hu
      _ = u.withUnitB (s.withUnitA t) := withUnitA_withUnitB s u t
      _ = u.withUnitB s := by rw [hs]
  refine ⟨u.withUnitB s, ?_, ?_⟩
  · have hBs := engineTurn_b_withUnitA hB s
    rwa [hs, hbetween] at hBs
  · have hAu := engineTurn_a_withUnitB hA u
    rwa [← hu] at hAu

end Sys2Proof.Machine

/-! Command words: the decoder reads back exactly the words the encoder writes (30_encoding.md R91 to R94, R104). -/

namespace Sys2Proof

/-- A word is assembled from its own fields (R91). -/
theorem assemble_fields {w : Word} {o : Opcode} (ho : o.code = opcField w) :
    assemble o (idxField w) (lgField w) (twField w) = w := by
  apply BitVec.eq_of_getLsbD_eq
  intro k hk
  rw [getLsbD_assemble, ho]
  split
  · simp [opcField, *]
  · split
    · simp [idxField, show k - 8 < 10 by omega, show 8 + (k - 8) = k by omega]
    · split
      · simp [lgField, show k - 18 < 4 by omega, show 18 + (k - 18) = k by omega]
      · simp [twField, show k - 22 < 10 by omega, show 22 + (k - 22) = k by omega]

/-- A bit above the opcode that the format fixes is 0 in a word that passes the field check (R92, R98). -/
theorem getLsbD_of_masked {w : Word} {o : Opcode} (h : w &&& o.format.mask = o.code.setWidth 32) {k : Nat}
    (hk : 8 ≤ k) (hm : o.format.mask.getLsbD k = true) : w.getLsbD k = false := by
  have hbit : (w &&& o.format.mask).getLsbD k = (o.code.setWidth 32).getLsbD k := by rw [h]
  have hcode : o.code.getLsbD k = false := BitVec.getLsbD_of_ge _ _ hk
  simpa [BitVec.getLsbD_and, hm, BitVec.getLsbD_setWidth, hcode] using hbit

section Masked
variable {w : Word} {o : Opcode} (h : w &&& o.format.mask = o.code.setWidth 32)
include h

theorem idxField_of_masked (hm : ∀ k, k < 10 → o.format.mask.getLsbD (8 + k) = true) : idxField w = 0 := by
  apply BitVec.eq_of_getLsbD_eq
  intro k hk
  simp [idxField, getLsbD_of_masked h (Nat.le_add_right 8 k) (hm k hk)]

theorem lgField_of_masked (hm : ∀ k, k < 4 → o.format.mask.getLsbD (18 + k) = true) : lgField w = 0 := by
  apply BitVec.eq_of_getLsbD_eq
  intro k hk
  simp [lgField, getLsbD_of_masked h (show 8 ≤ 18 + k by omega) (hm k hk)]

theorem twField_of_masked (hm : ∀ k, k < 10 → o.format.mask.getLsbD (22 + k) = true) : twField w = 0 := by
  apply BitVec.eq_of_getLsbD_eq
  intro k hk
  simp [twField, getLsbD_of_masked h (show 8 ≤ 22 + k by omega) (hm k hk)]

/-- The fields a format leaves unused are 0 in a word that passes the field check, so encoding drops nothing (R92). -/
theorem encode_command :
    encode (o.command (idxField w) (lgField w) (twField w)) = assemble o (idxField w) (lgField w) (twField w) := by
  cases o with
  | nopA | nttA | inttAMont | inttA | nopB =>
    rw [idxField_of_masked h (by decide), lgField_of_masked h (by decide), twField_of_masked h (by decide)]
    rfl
  | fscaleA | redcA | freezeA =>
    rw [lgField_of_masked h (by decide), twField_of_masked h (by decide)]
    rfl
  | nttB | inttB =>
    rw [idxField_of_masked h (by decide), twField_of_masked h (by decide)]
    rfl
  | nscaleB =>
    rw [twField_of_masked h (by decide)]
    rfl
  | bfctA | bfgsA | bfctB | bfgsB => rfl

end Masked

/-- A word that decodes is the word of its command. -/
theorem encode_of_decode {w : Word} {i : Instr} (h : decode w = .ok i) : encode i = w := by
  unfold decode at h
  split at h
  · cases h
  · rename_i o ho
    split at h
    · rename_i hm
      cases h
      rw [encode_command hm, assemble_fields (code_of_opcodeOf ho)]
    · cases h

/-- Bit 7 of a command's word names its unit (R94). -/
theorem unitField_encode (i : Instr) : unitField (encode i) = Machine.unitOf i := by
  cases i <;> exact Laws.UnitBit.unitField_assemble _ _ _ _

/-- A word that decodes goes to the unit of its command. -/
theorem unitField_of_decode {w : Word} {i : Instr} (h : decode w = .ok i) : unitField w = Machine.unitOf i := by
  rw [← unitField_encode, encode_of_decode h]

end Sys2Proof

/-! What one step can do to a unit's run state and to the marks of undefined entries, said once (10_state.md R33, R40 to R42,
30_encoding.md R104, 60_exceptions.md R224, R225). The invariant of legal states and the statements on BUSY, ERR and CAUSE
are read off it. -/

namespace Sys2Proof.Machine

/-! ### Step counts -/

theorem legalLogn_iff (l : Nat) : legalLogn l = true ↔ 1 ≤ l ∧ l ≤ 10 := by simp [legalLogn]

theorem two_pow_half {l : Nat} (h : 1 ≤ l) : 2 ^ l / 2 = 2 ^ (l - 1) := by
  obtain ⟨m, rfl⟩ := Nat.exists_eq_add_of_le' h
  simp [Nat.pow_succ]

/-- Every command that has a step count takes at least one step (R158, R182). -/
theorem stepCount_pos {i : Instr} {n : Nat} (h : stepCount i = some n) : 0 < n := by
  cases i with
  | nttB logn =>
    obtain ⟨hl, hn⟩ := Option.ite_none_right_eq_some.mp h
    obtain ⟨h1, -⟩ := (legalLogn_iff _).mp hl
    cases hn
    rw [stepsNttB, two_pow_half h1]
    exact Nat.mul_pos h1 (Nat.two_pow_pos _)
  | inttB logn =>
    obtain ⟨-, hn⟩ := Option.ite_none_right_eq_some.mp h
    cases hn
    exact Nat.add_pos_right _ (Nat.two_pow_pos _)
  | _ => cases h; decide

/-! ### What a step can do to one unit -/

/-- It is the host's turn, and its oldest operation is a write of the word `v` at offset `off`. -/
def State.HostWrites (off : Nat) (v : Word) (s : State) : Prop :=
  s.nextTurn = .agent .host ∧ ∃ ops, s.port = .txn (.write off 4 v) :: ops

/-- What the step taken in `s` can make of the run state `e` of unit X, and when. -/
inductive RunChange (s : State) (x : Eng) {w : Nat} (e : Engine w) : Engine w → Prop where
  /-- Nothing of X changes. -/
  | kept : RunChange s x e e
  /-- The reset input is pulsed (R250). -/
  | reset (turn : s.nextTurn = .reset) (cur : Word) (seq : BitVec w) (n : Nat) :
      RunChange s x e { Engine.atReset cur seq with completions := n }
  /-- The host writes STATUS (R34). -/
  | cleared {v : Word} (host : s.HostWrites 0x0008 v) (d r : Bool) : RunChange s x e (e.clearFlags d r)
  /-- The host writes CMD, and the command is rejected (R104, R224). -/
  | rejected {v : Word} (host : s.HostWrites 0x0004 v) {c : Cause} (hc : c ≠ .none) : RunChange s x e (e.raise c)
  /-- The host writes CMD, and the command is accepted (R104). -/
  | accepted {v : Word} {i : Instr} (host : s.HostWrites 0x0004 v) (hd : decode v = .ok i) (hu : unitOf i = x)
      (hw : i.WellFormed) : RunChange s x e (e.accept v)
  /-- X performs a micro-operation that is not its command's last (R40). -/
  | advanced {i : Instr} {n : Nat} (turn : s.nextTurn = unitTurn x) (hd : decode e.cur = .ok i)
      (hn : stepCount i = some n) (more : e.seq.toNat + 1 ≠ n) : RunChange s x e { e with seq := e.seq + 1 }
  /-- X completes its command (R40, R42). -/
  | completed (turn : s.nextTurn = unitTurn x) (cur : Word) (seq : BitVec w) : RunChange s x e (e.complete cur seq)
  /-- X goes on with a command that has no step count (R187). -/
  | scrambled {i : Instr} (turn : s.nextTurn = unitTurn x) (hd : decode e.cur = .ok i) (hn : stepCount i = none)
      (seq : BitVec w) : RunChange s x e { e with seq := seq }

/-- What a step can make of the marks `u` of a buffer of `n` entries: it keeps, sets or clears all, or clears one (R73). -/
def Remarked (n : Nat) (u v : List Nat) : Prop := v = u ∨ v = indices n ∨ v = [] ∨ ∃ i, v = u.filter (· != i)

theorem Remarked.refl (n : Nat) (u : List Nat) : Remarked n u u := .inl rfl

theorem Remarked.sublist {n : Nat} {u v : List Nat} (h : Remarked n u v) (hu : u.Sublist (indices n)) :
    v.Sublist (indices n) := by
  rcases h with rfl | rfl | rfl | ⟨i, rfl⟩
  · exact hu
  · exact List.Sublist.refl _
  · exact List.nil_sublist _
  · exact List.filter_sublist.trans hu

/-- What the step from `s` to `t` can do to both units and to all marks. -/
structure StepChange (s t : State) : Prop where
  a : RunChange s .a s.a t.a
  b : RunChange s .b s.b t.b
  undefA : Remarked 256 s.undefA t.undefA
  undefB : Remarked 1024 s.undefB t.undefB

/-- `r` and `s` have the same run states and the same marks. -/
structure SameRun (s r : State) : Prop where
  a : r.a = s.a
  b : r.b = s.b
  undefA : r.undefA = s.undefA
  undefB : r.undefB = s.undefB

/-! ### What each turn can do -/

section Turns
variable {s r t : State}

theorem SameRun.stepChange (h : SameRun s r) : StepChange s r where
  a := h.a ▸ .kept
  b := h.b ▸ .kept
  undefA := .inl h.undefA
  undefB := .inl h.undefB

theorem pulseReset_change (turn : s.nextTurn = .reset) : StepChange s s.takeTurn.pulseReset where
  a := .reset turn _ _ _
  b := .reset turn _ _ _
  undefA := .inr (.inr (.inl rfl))
  undefB := .inr (.inr (.inl rfl))

theorem poke_change {off : Nat} {v : Word} (host : s.HostWrites off v) (h : SameRun s r) :
    StepChange s (r.poke off v) := by
  obtain ⟨ha, hb, huA, huB⟩ := h
  rcases poke_cases off v r with
    ⟨rfl, ht⟩ | ⟨_, ht⟩ | ⟨_, ht⟩ | ⟨_, _, i, _, ht⟩ | ⟨_, _, i, _, ht⟩ | ht <;> rw [ht]
  · exact ⟨ha ▸ .cleared host _ _, hb ▸ .cleared host _ _, .inl huA, .inl huB⟩
  · exact ⟨ha ▸ .kept, hb ▸ .kept, .inr (.inl rfl), .inl huB⟩
  · exact ⟨ha ▸ .kept, hb ▸ .kept, .inl huA, .inr (.inl rfl)⟩
  · exact ⟨ha ▸ .kept, hb ▸ .kept, .inr (.inr (.inr ⟨i, by rw [← huA]⟩)), .inl huB⟩
  · exact ⟨ha ▸ .kept, hb ▸ .kept, .inl huA, .inr (.inr (.inr ⟨i, by rw [← huB]⟩))⟩
  · exact SameRun.stepChange ⟨ha, hb, huA, huB⟩

theorem raise_change {v : Word} (host : s.HostWrites 0x0004 v) (h : SameRun s r) (x : Eng) {c : Cause} (hc : c ≠ .none) :
    StepChange s (r.raise x c) := by
  obtain ⟨ha, hb, huA, huB⟩ := h
  cases x with
  | a => exact ⟨ha ▸ .rejected host hc, hb ▸ .kept, .inl huA, .inl huB⟩
  | b => exact ⟨ha ▸ .kept, hb ▸ .rejected host hc, .inl huA, .inl huB⟩

theorem causeOf_ne_none (e : DecodeError) : causeOf e ≠ .none := by cases e <;> decide

theorem present_change {v : Word} {i : Instr} (host : s.HostWrites 0x0004 v) (hd : decode v = .ok i) (h : SameRun s r) :
    StepChange s (present i r) := by
  obtain ⟨ha, hb, huA, huB⟩ := h
  have hv : encode i = v := encode_of_decode hd
  rcases present_cases i r with ⟨hw, hu, ht⟩ | ⟨hw, hu, ht⟩ | ⟨_, ht⟩ <;> rw [ht]
  · rw [hv]
    exact ⟨ha ▸ .accepted host hd hu hw, hb ▸ .kept, .inl huA, .inl huB⟩
  · rw [hv]
    exact ⟨ha ▸ .kept, hb ▸ .accepted host hd hu hw, .inl huA, .inl huB⟩
  · exact raise_change host ⟨ha, hb, huA, huB⟩ _ (by decide)

/-- A command word for an idle unit presents its command: bit 7 of the word names the command's own unit (R94). -/
theorem presentCommand_idle {v : Word} {i : Instr} (hd : decode v = .ok i) (hb : r.busy (unitField v) = false) :
    exec i r = .next (present i r) :=
  exec_idle (unitField_of_decode hd ▸ hb)

theorem presentCommand_change {v : Word} (host : s.HostWrites 0x0004 v) (ht : presentCommand v r = .next t)
    (h : SameRun s r) : StepChange s t := by
  rcases presentCommand_cases v r with ⟨_, hp⟩ | ⟨_, e, _, hp⟩ | ⟨hb, i, hd, hp⟩ <;> rw [hp] at ht
  · cases ht
    exact raise_change host h _ (by decide)
  · cases ht
    exact raise_change host h _ (causeOf_ne_none e)
  · rw [presentCommand_idle hd hb] at ht
    cases ht
    exact present_change host hd h

theorem hostTurn_change (turn : s.nextTurn = .agent .host) (h : hostTurn s.takeTurn = .next t) : StepChange s t := by
  rcases hostTurn_next h with ⟨_, rfl⟩ | ⟨tx, rest, hp, ht⟩ | ⟨x, rest, _, rfl⟩
  · exact SameRun.stepChange ⟨rfl, rfl, rfl, rfl⟩
  · rcases transact_next ht with ⟨reply, n, rfl⟩ | ⟨off, v, _, rfl, rfl⟩ | ⟨v, rfl, hc⟩
    · exact SameRun.stepChange ⟨rfl, rfl, rfl, rfl⟩
    · exact poke_change ⟨turn, rest, hp⟩ ⟨rfl, rfl, rfl, rfl⟩
    · exact presentCommand_change ⟨turn, rest, hp⟩ hc ⟨rfl, rfl, rfl, rfl⟩
  · exact SameRun.stepChange ⟨rfl, rfl, rfl, rfl⟩

/-- The advance of a running unit is one of the two changes it names. -/
theorem advance_change {x : Eng} {w : Nat} {e : Engine w} {i : Instr} {n : Nat} (turn : s.nextTurn = unitTurn x)
    (hd : decode e.cur = .ok i) (hn : stepCount i = some n) (cur : Word) (seq : BitVec w) :
    RunChange s x e (e.advance n (e.complete cur seq)) := by
  rcases e.advance_cases (e.complete cur seq) n with ⟨_, h⟩ | ⟨hmore, h⟩ <;> rw [h]
  · exact .completed turn _ _
  · exact .advanced turn hd hn hmore

theorem engineTurn_a_change (turn : s.nextTurn = .agent .engA) (h : engineTurn .a s.takeTurn = .next t) :
    StepChange s t := by
  rcases engineTurn_next h with ⟨_, rfl⟩ | ⟨_, i, hd, hu, rfl⟩
  · exact SameRun.stepChange ⟨rfl, rfl, rfl, rfl⟩
  · obtain ⟨n, buf, k, hn, ht⟩ := runStep_a_frame hu s.takeTurn
    rw [ht]
    exact ⟨advance_change turn hd hn _ _, .kept, .refl _ _, .refl _ _⟩

theorem engineTurn_b_change (turn : s.nextTurn = .agent .engB) (h : engineTurn .b s.takeTurn = .next t) :
    StepChange s t := by
  rcases engineTurn_next h with ⟨_, rfl⟩ | ⟨_, i, hd, hu, rfl⟩
  · exact SameRun.stepChange ⟨rfl, rfl, rfl, rfl⟩
  · rcases runStep_b_frame hu s.takeTurn with ⟨n, buf, k, hn, ht⟩ | ⟨hn, ht⟩
    · rw [ht]
      exact ⟨.kept, advance_change turn hd hn _ _, .refl _ _, .refl _ _⟩
    · obtain ⟨buf, k, hc | hc⟩ := undefinedStepB_cases s.takeTurn <;> rw [ht, hc]
      · exact ⟨.kept, .completed turn _ _, .refl _ _, .refl _ _⟩
      · exact ⟨.kept, .scrambled turn hd hn _, .refl _ _, .refl _ _⟩

/-- What a step can do, whoever has the turn. -/
theorem step_change (h : step s = .next t) : StepChange s t := by
  unfold step at h
  cases hturn : s.nextTurn with
  | reset =>
    rw [hturn] at h
    cases h
    exact pulseReset_change hturn
  | agent x =>
    rw [hturn] at h
    cases x with
    | host => exact hostTurn_change hturn h
    | engA => exact engineTurn_a_change hturn h
    | engB => exact engineTurn_b_change hturn h

end Turns

/-! ### Legal states -/

/-- The part of `State.Legal` that speaks of unit X: its flags, and the command it runs. -/
structure Engine.LegalAs {w : Nat} (x : Eng) (e : Engine w) : Prop where
  flags : e.Legal
  run : e.busy = true → ∃ i, decode e.cur = .ok i ∧ unitOf i = x ∧ i.WellFormed ∧
    ∀ n, stepCount i = some n → e.seq.toNat < n

theorem State.legal_iff (s : State) :
    s.Legal ↔ s.a.LegalAs .a ∧ s.b.LegalAs .b ∧ s.undefA.Sublist (indices 256) ∧ s.undefB.Sublist (indices 1024) :=
  ⟨fun h => ⟨⟨h.a, h.runA⟩, ⟨h.b, h.runB⟩, h.undefA, h.undefB⟩,
    fun ⟨ha, hb, huA, huB⟩ => ⟨ha.flags, hb.flags, ha.run, hb.run, huA, huB⟩⟩

section Legal
variable {w : Nat} {x : Eng} {e : Engine w}

/-- An idle unit with its flags as reset leaves them is legal. -/
theorem legalAs_atReset (cur : Word) (seq : BitVec w) (n : Nat) :
    ({ Engine.atReset cur seq with completions := n } : Engine w).LegalAs x :=
  ⟨⟨by simp [Engine.atReset], by simp [Engine.atReset]⟩, by simp [Engine.atReset]⟩

/-- The first of two causes is kept and no fault's cause is 0, so CAUSE is not 0 after a fault (R226). -/
theorem Engine.LegalAs.raise (h : e.LegalAs x) {c : Cause} (hc : c ≠ .none) : (e.raise c).LegalAs x := by
  refine ⟨⟨?_, h.flags.done⟩, h.run⟩
  cases he : e.err
  · simp [he, hc]
  · have : e.cause ≠ .none := fun hn => by simp [h.flags.cause.mp hn] at he
    simp [he, this]

/-- Clearing ERR clears CAUSE with it (R225). -/
theorem Engine.LegalAs.clearFlags (h : e.LegalAs x) (d r : Bool) : (e.clearFlags d r).LegalAs x := by
  refine ⟨⟨?_, fun hb => by simp [h.flags.done hb]⟩, h.run⟩
  cases r <;> simp [h.flags.cause]

theorem Engine.LegalAs.accept (h : e.LegalAs x) {v : Word} {i : Instr} (hd : decode v = .ok i) (hu : unitOf i = x)
    (hw : i.WellFormed) : (e.accept v).LegalAs x :=
  ⟨⟨h.flags.cause, fun _ => rfl⟩, fun _ => ⟨i, hd, hu, hw, fun n hn => by simpa using stepCount_pos hn⟩⟩

theorem Engine.LegalAs.complete (h : e.LegalAs x) (cur : Word) (seq : BitVec w) : (e.complete cur seq).LegalAs x :=
  ⟨⟨h.flags.cause, fun hb => by cases hb⟩, fun hb => by cases hb⟩

/-- A running unit stays legal when its counter moves to any value below the step count of its command. -/
theorem Engine.LegalAs.setSeq (h : e.LegalAs x) {i : Instr} (hd : decode e.cur = .ok i) (seq : BitVec w)
    (hs : e.busy = true → ∀ n, stepCount i = some n → seq.toNat < n) : { e with seq := seq }.LegalAs x := by
  refine ⟨⟨h.flags.cause, h.flags.done⟩, fun hb => ?_⟩
  obtain ⟨j, hj, hu, hw, -⟩ := h.run hb
  cases hd.symm.trans hj
  exact ⟨i, hd, hu, hw, hs hb⟩

/-- The counter of a running unit is below its command's step count (R40). -/
theorem Engine.LegalAs.seq_lt (h : e.LegalAs x) (hb : e.busy = true) {i : Instr} {n : Nat} (hd : decode e.cur = .ok i)
    (hn : stepCount i = some n) : e.seq.toNat < n := by
  obtain ⟨j, hj, -, -, hs⟩ := h.run hb
  cases hd.symm.trans hj
  exact hs n hn

theorem toNat_add_one_le (v : BitVec w) : (v + 1).toNat ≤ v.toNat + 1 := by
  rw [BitVec.toNat_add]
  refine (Nat.mod_le _ _).trans (Nat.add_le_add_left ?_ _)
  simp only [BitVec.ofNat_eq_ofNat, BitVec.toNat_ofNat]
  exact Nat.mod_le _ _

/-- Whatever a step does to a unit keeps it legal. -/
theorem RunChange.keeps_legal {s : State} {e' : Engine w} (hc : RunChange s x e e') (h : e.LegalAs x) : e'.LegalAs x := by
  cases hc with
  | kept => exact h
  | reset _ cur seq n => exact legalAs_atReset cur seq n
  | cleared _ d r => exact h.clearFlags d r
  | rejected _ hc => exact h.raise hc
  | accepted _ hd hu hw => exact h.accept hd hu hw
  | @advanced i n _ hd hn hmore =>
    refine h.setSeq hd _ fun hb m hm => ?_
    cases hn.symm.trans hm
    have hlt : e.seq.toNat < n := h.seq_lt hb hd hn
    have hle : (e.seq + 1).toNat ≤ e.seq.toNat + 1 := toNat_add_one_le e.seq
    omega
  | completed _ cur seq => exact h.complete cur seq
  | scrambled _ hd hn seq => exact h.setSeq hd seq fun _ m hm => by simp [hn] at hm

end Legal

/-- Settles O53: whatever a step does to a unit keeps the unit legal, and what it does to the marks keeps them in rising
order. -/
theorem everyStepKeepsLegal : Obligations.EveryStepKeepsLegal := by
  intro s t hs h
  obtain ⟨ha, hb, huA, huB⟩ := s.legal_iff.mp hs
  have hc : StepChange s t := step_change h
  exact t.legal_iff.mpr ⟨hc.a.keeps_legal ha, hc.b.keeps_legal hb, hc.undefA.sublist huA, hc.undefB.sublist huB⟩

/-- Settles O54: reset leaves both units idle with their flags clear, and no mark. -/
theorem resetIsLegal : Obligations.ResetIsLegal :=
  State.reset.legal_iff.mpr
    ⟨legalAs_atReset _ _ _, legalAs_atReset _ _ _, List.nil_sublist _, List.nil_sublist _⟩

/-! ### BUSY, ERR and CAUSE -/

section Changes
variable {s : State} {x : Eng} {w : Nat} {e e' : Engine w}

/-- BUSY falls only by completion, which sets DONE, or by reset (R42). -/
theorem RunChange.busy_falls (h : RunChange s x e e') (hb : e.busy = true) (hb' : e'.busy = false) :
    s.nextTurn = .reset ∨ (s.nextTurn = unitTurn x ∧ e'.done = true) := by
  cases h with
  | reset turn => exact .inl turn
  | completed turn => exact .inr ⟨turn, rfl⟩
  | accepted => cases hb'
  | kept | cleared | rejected | advanced | scrambled => exact absurd (hb.symm.trans hb') (by decide)

/-- BUSY rises only by acceptance, which clears DONE (R42, R104). -/
theorem RunChange.busy_rises (h : RunChange s x e e') (hb : e.busy = false) (hb' : e'.busy = true) :
    s.nextTurn = .agent .host ∧ e'.done = false ∧ e'.seq = 0 ∧
      ∃ v ops, s.port = .txn (.write 0x0004 4 v) :: ops ∧ e'.cur = v := by
  cases h with
  | @accepted v i host =>
    obtain ⟨turn, ops, hp⟩ := host
    exact ⟨turn, rfl, rfl, v, ops, hp, rfl⟩
  | reset | completed => cases hb'
  | kept | cleared | rejected | advanced | scrambled => exact absurd (hb.symm.trans hb') (by decide)

/-- ERR and CAUSE change only by a write to CMD or STATUS, or by reset (R42, R220). -/
theorem RunChange.err_changes (h : RunChange s x e e') (hne : e'.err ≠ e.err ∨ e'.cause ≠ e.cause) :
    s.nextTurn = .reset ∨
    (s.nextTurn = .agent .host ∧ ∃ off v ops, s.port = .txn (.write off 4 v) :: ops ∧ (off = 0x0004 ∨ off = 0x0008)) := by
  cases h with
  | reset turn => exact .inl turn
  | @cleared v host =>
    obtain ⟨turn, ops, hp⟩ := host
    exact .inr ⟨turn, 0x0008, v, ops, hp, .inr rfl⟩
  | @rejected v host =>
    obtain ⟨turn, ops, hp⟩ := host
    exact .inr ⟨turn, 0x0004, v, ops, hp, .inl rfl⟩
  | kept | accepted | advanced | completed | scrambled => exact (hne.elim (· rfl) (· rfl)).elim

end Changes

/-- Settles O56, by the changes a step can make to a unit. -/
theorem busyChangesOnlyByAcceptanceCompletionOrReset : Obligations.BusyChangesOnlyByAcceptanceCompletionOrReset := by
  intro s t h
  obtain ⟨ha, hb, -, -⟩ := step_change h
  exact ⟨ha.busy_falls, hb.busy_falls, ha.busy_rises, hb.busy_rises⟩

/-- Settles O57, by the changes a step can make to a unit. -/
theorem faultsComeOnlyFromTheHost : Obligations.FaultsComeOnlyFromTheHost := by
  intro s t h hne
  obtain ⟨ha, hb, -, -⟩ := step_change h
  rcases hne with hne | hne | hne | hne
  · exact ha.err_changes (.inl hne)
  · exact ha.err_changes (.inr hne)
  · exact hb.err_changes (.inl hne)
  · exact hb.err_changes (.inr hne)

end Sys2Proof.Machine

/-! The turns of the schedule, the STATUS register and reset: what a step does when its turn is known (10_state.md R32 to R34,
R40, R45, 20_memory.md R62, R70), and that from a legal state only a transaction outside the window stops the machine (R36). -/

namespace Sys2Proof.Machine

/-! ### STATUS -/

section StatusByte
variable {w : Nat} (e : Engine w)

/-- Each bit of a unit's STATUS byte (R33). -/
theorem getLsbD_statusByte (k : Nat) :
    e.statusByte.getLsbD k =
      if k = 0 then e.busy else if k = 1 then e.done else if k = 2 then e.err else if k = 3 then false
      else e.cause.code.getLsbD (k - 4) := by
  change BitVec.getLsbD (w := 4 + 1 + 1 + 1 + 1)
    (e.cause.code ++ 0#1 ++ BitVec.ofBool e.err ++ BitVec.ofBool e.done ++ BitVec.ofBool e.busy) k = _
  simp only [BitVec.getLsbD_append]
  rcases k with _ | _ | _ | _ | k <;> simp

theorem getLsbD_statusByte_cause (k : Nat) : e.statusByte.getLsbD (4 + k) = e.cause.code.getLsbD k := by
  simp [getLsbD_statusByte, show 4 + k ≠ 1 by omega, show 4 + k ≠ 2 by omega, show 4 + k ≠ 3 by omega]

/-- The STATUS byte of a unit after reset is 0 (R45). -/
theorem statusByte_atReset (cur : Word) (seq : BitVec w) (n : Nat) :
    ({ Engine.atReset cur seq with completions := n } : Engine w).statusByte = 0 := by
  apply BitVec.eq_of_getLsbD_eq
  intro k _
  rw [getLsbD_statusByte]
  simp [Engine.atReset, Cause.code]

end StatusByte

section Status
variable (s : State)

/-- Each bit of STATUS: ENG_A's byte, ENG_B's byte, then zeros (R33). -/
theorem getLsbD_status (k : Nat) :
    s.status.getLsbD k =
      if k < 8 then s.a.statusByte.getLsbD k else if k < 16 then s.b.statusByte.getLsbD (k - 8) else false := by
  change BitVec.getLsbD (w := 16 + 8 + 8) (0#16 ++ s.b.statusByte ++ s.a.statusByte) k = _
  simp only [BitVec.getLsbD_append]
  by_cases h : k < 8
  · simp [h]
  · by_cases h' : k < 16
    · simp [h, h', show k - 8 < 8 by omega]
    · simp [h, h', show ¬ k - 8 < 8 by omega]

theorem status_eq_zero (ha : s.a.statusByte = 0) (hb : s.b.statusByte = 0) : s.status = 0 := by
  apply BitVec.eq_of_getLsbD_eq
  intro k _
  simp [getLsbD_status, ha, hb]

theorem extractLsb'_status_a : s.status.extractLsb' 4 4 = s.a.cause.code := by
  apply BitVec.eq_of_getLsbD_eq
  intro k hk
  rw [BitVec.getLsbD_extractLsb', getLsbD_status, if_pos (by omega : 4 + k < 8), getLsbD_statusByte_cause]
  simp [hk]

theorem extractLsb'_status_b : s.status.extractLsb' 12 4 = s.b.cause.code := by
  apply BitVec.eq_of_getLsbD_eq
  intro k hk
  rw [BitVec.getLsbD_extractLsb', getLsbD_status, if_neg (by omega : ¬ 12 + k < 8), if_pos (by omega : 12 + k < 16),
    show 12 + k - 8 = 4 + k by omega, getLsbD_statusByte_cause]
  simp [hk]

theorem extractLsb'_status_reserved : s.status.extractLsb' 16 16 = 0 := by
  apply BitVec.eq_of_getLsbD_eq
  intro k _
  simp [getLsbD_status, show ¬ 16 + k < 8 by omega]

end Status

/-- Settles O44, bit by bit. -/
theorem statusLayout : Obligations.StatusLayout := by
  intro s
  refine ⟨?_, ?_, ?_, ?_, extractLsb'_status_a s, ?_, ?_, ?_, ?_, extractLsb'_status_b s, extractLsb'_status_reserved s,
    rfl, rfl, rfl, rfl, rfl⟩ <;> simp only [getLsbD_status, getLsbD_statusByte] <;> rfl

/-! ### Transactions -/

section Transactions
variable {off : Nat} (v : Word) (s : State)

/-- A legal write in the window, anywhere but at CMD (R64, R66). -/
theorem transact_write (hw : off < WINDOW_SIZE) (ha : off % 4 = 0) (hc : off ≠ offCmd) :
    transact (.write off 4 v) s = .next ({ s with reply := some .written }.poke off v) := by
  simp only [transact, if_neg (Nat.not_le.mpr hw), if_pos (show LegalAccess off 4 from ⟨rfl, ha⟩), if_neg hc]

/-- A write to CMD (R104). -/
theorem transact_cmd : transact (.write 0x0004 4 v) s = presentCommand v { s with reply := some .written } := rfl

end Transactions

/-- Settles O45: STATUS lies in the window, and the write is legal. -/
theorem statusWriteOneToClear : Obligations.StatusWriteOneToClear := by
  intro s w
  exact transact_write w s (by decide) (by decide) (by decide)

/-- A CMD write always has an answer. -/
theorem presentCommand_answers (v : Word) (s : State) : ∃ t, presentCommand v s = .next t := by
  rcases presentCommand_cases v s with ⟨_, h⟩ | ⟨_, _, _, h⟩ | ⟨_, i, _, h⟩
  · exact ⟨_, h⟩
  · exact ⟨_, h⟩
  · exact ⟨_, h.trans (exec_eq i s)⟩

/-- A transaction in the window always has an answer (R66). -/
theorem transact_answers {tx : Txn} (h : tx.InWindow) (s : State) : ∃ t, transact tx s = .next t := by
  cases tx with
  | read off size =>
    simp only [transact, if_neg (Nat.not_le.mpr h)]
    split <;> exact ⟨_, rfl⟩
  | write off size v =>
    simp only [transact, if_neg (Nat.not_le.mpr h)]
    split
    · split
      · exact presentCommand_answers v _
      · exact ⟨_, rfl⟩
    · exact ⟨_, rfl⟩

/-- A transaction outside the window is not NTTE's to answer (R36). -/
theorem transact_outside {tx : Txn} (h : ¬ tx.InWindow) (s : State) : transact tx s = .fault .outsideWindow := by
  cases tx with
  | read off size => exact if_pos (Nat.not_lt.mp h)
  | write off size v => exact if_pos (Nat.not_lt.mp h)

/-! ### Turns -/

section Turns
variable {s : State}

/-- A step whose turn stands in the list. -/
theorem step_cons {t : Turn} {turns : List Turn} (h : s.sched = t :: turns) :
    step s = playTurn t { s with sched := turns } := by
  rw [step, nextTurn_cons s h, takeTurn_cons s h]

theorem hostTurn_idle (h : s.port = []) : hostTurn s = .next s := by
  simp only [hostTurn, h]

theorem hostTurn_txn {tx : Txn} {ops : List HostOp} (h : s.port = .txn tx :: ops) :
    hostTurn s = transact tx { s with port := ops } := by
  simp only [hostTurn, h]

theorem hostTurn_wait {x : Eng} {ops : List HostOp} (h : s.port = .wait x :: ops) :
    hostTurn s =
      .next { s with reply := some (.data s.status), port := if s.busy x then s.port else ops } := by
  simp only [hostTurn, h]

theorem engineTurn_eq_exec {x : Eng} {i : Instr} (hb : s.busy x = true) (hd : decode (s.cur x) = .ok i)
    (hu : unitOf i = x) : engineTurn x s = exec i s := by
  rw [engineTurn_busy hb hd hu, exec_busy (hu ▸ hb)]

/-- From a legal state a unit's turn always has an answer: a busy unit runs a command of its own. -/
theorem engineTurn_answers (hs : s.Legal) (x : Eng) : ∃ t, engineTurn x s = .next t := by
  cases hb : s.busy x with
  | false => exact ⟨s, engineTurn_idle hb⟩
  | true =>
    have hrun : ∃ i, decode (s.cur x) = .ok i ∧ unitOf i = x := by
      cases x with
      | a => obtain ⟨i, hd, hu, -⟩ := hs.runA hb; exact ⟨i, hd, hu⟩
      | b => obtain ⟨i, hd, hu, -⟩ := hs.runB hb; exact ⟨i, hd, hu⟩
    obtain ⟨i, hd, hu⟩ := hrun
    exact ⟨_, engineTurn_busy hb hd hu⟩

/-- The host's turn has an answer, or its oldest operation is a transaction outside the window. -/
theorem hostTurn_answers (s : State) :
    (∃ t, hostTurn s = .next t) ∨
    (hostTurn s = .fault .outsideWindow ∧ ∃ tx ops, s.port = .txn tx :: ops ∧ ¬ tx.InWindow) := by
  cases hp : s.port with
  | nil => exact .inl ⟨s, hostTurn_idle hp⟩
  | cons op ops =>
    cases op with
    | wait x => exact .inl ⟨_, hostTurn_wait hp⟩
    | txn tx =>
      rw [hostTurn_txn hp]
      by_cases hw : tx.InWindow
      · exact .inl (transact_answers hw _)
      · exact .inr ⟨transact_outside hw _, tx, ops, rfl, hw⟩

end Turns

theorem legal_takeTurn {s : State} (h : s.Legal) : s.takeTurn.Legal := ⟨h.a, h.b, h.runA, h.runB, h.undefA, h.undefB⟩

/-- Settles O55: of the turns only the host's can stop, and only at a transaction outside the window. -/
theorem legalStatesStopOnlyOutsideTheWindow : Obligations.LegalStatesStopOnlyOutsideTheWindow := by
  intro s hs
  unfold step
  cases s.nextTurn with
  | reset => exact .inl ⟨_, rfl⟩
  | agent y =>
    cases y with
    | engA => exact .inl (engineTurn_answers (legal_takeTurn hs) .a)
    | engB => exact .inl (engineTurn_answers (legal_takeTurn hs) .b)
    | host =>
      refine (hostTurn_answers s.takeTurn).imp_right fun ⟨hf, tx, ops, hp, hw⟩ => ⟨hf, ?_⟩
      cases tx with
      | read off size => exact ⟨_, ops, off, size, 0, hp, Nat.not_lt.mp hw, .inl rfl⟩
      | write off size v => exact ⟨_, ops, off, size, v, hp, Nat.not_lt.mp hw, .inr rfl⟩

/-! ### The host's turn -/

/-- A command word written to CMD of an idle unit runs its command (R104). -/
theorem presentCommand_exec {w : Word} {i : Instr} {s : State} (hb : s.busy (unitField w) = false)
    (hd : decode w = .ok i) : presentCommand w s = exec i s := by
  simp [presentCommand, hb, hd]

theorem step_cmd {s : State} {turns : List Turn} {ops : List HostOp} {w : Word} {i : Instr}
    (hs : s.sched = .agent .host :: turns) (hp : s.port = .txn (.write 0x0004 4 w) :: ops)
    (hb : s.busy (unitField w) = false) (hd : decode w = .ok i) :
    step s = exec i { s with sched := turns, port := ops, reply := some .written } := by
  calc step s = hostTurn { s with sched := turns } := step_cons hs
    _ = transact (.write 0x0004 4 w) { s with sched := turns, port := ops } :=
      hostTurn_txn (s := { s with sched := turns }) hp
    _ = presentCommand w { s with sched := turns, port := ops, reply := some .written } := transact_cmd w _
    _ = exec i { s with sched := turns, port := ops, reply := some .written } :=
      presentCommand_exec (by cases hu : unitField w <;> simpa [hu] using hb) hd

/-- What the decoder reads from a table word of 32 bits. -/
theorem decode_of_decodeTableWord {w : Nat} {i : Instr} (h : decodeTableWord 32 w = some i) :
    decode (BitVec.ofNat 32 (w % 2 ^ 32)) = .ok i := by
  simp only [decodeTableWord, le_refl, if_true] at h
  split at h
  · cases h
    assumption
  · cases h

/-- Settles O50, by the host's oldest pending operation. -/
theorem stepRunsTheCommandWritten : Obligations.StepRunsTheCommandWritten := by
  refine ⟨fun s turns ops hs => ⟨fun t hp => ?_, fun w i hp hb hd => step_cmd hs hp hb hd, fun x hp hb => ?_,
    fun x hp hb => ?_, fun hp => ?_⟩, fun s w i hlt hb hd => ?_⟩
  · exact (step_cons hs).trans (hostTurn_txn (s := { s with sched := turns }) hp)
  · refine (step_cons hs).trans ((hostTurn_wait (s := { s with sched := turns }) hp).trans ?_)
    have hb' : ({ s with sched := turns } : State).busy x = true := hb
    rw [hb']
    rfl
  · refine (step_cons hs).trans ((hostTurn_wait (s := { s with sched := turns }) hp).trans ?_)
    have hb' : ({ s with sched := turns } : State).busy x = false := hb
    rw [hb']
    rfl
  · exact (step_cons hs).trans (hostTurn_idle (s := { s with sched := turns }) hp)
  · have hw : BitVec.ofNat 32 (w % 2 ^ 32) = BitVec.ofNat 32 w := by rw [Nat.mod_eq_of_lt hlt]
    refine step_cmd (s := s.withFetchWord 32 w) rfl rfl ?_ (decode_of_decodeTableWord hd)
    rw [hw]
    exact hb

/-- Settles O51, for each unit by what its turn does while it is busy. -/
theorem stepRunsTheRunningCommand : Obligations.StepRunsTheRunningCommand := by
  intro s i turns
  refine ⟨fun hs hb hd hu => ?_, fun hs hb hd hu => ?_⟩
  · exact (step_cons hs).trans (engineTurn_eq_exec (s := { s with sched := turns }) (x := .a) hb hd hu)
  · exact (step_cons hs).trans (engineTurn_eq_exec (s := { s with sched := turns }) (x := .b) hb hd hu)

/-! ### Reset -/

theorem reset_status : State.reset.status = 0 :=
  status_eq_zero _ (statusByte_atReset _ _ 0) (statusByte_atReset _ _ 0)

theorem pulseReset_status (s : State) : s.pulseReset.status = 0 :=
  status_eq_zero _ (statusByte_atReset _ _ _) (statusByte_atReset _ _ _)

theorem atReset_entryA (r : Nat) {i : Nat} (h : i < 256) : (State.atReset r).entryA i = Config.initA r i := by
  simp [State.entryA, State.atReset, getElem?_tabulate _ h]

theorem atReset_entryB (r : Nat) {i : Nat} (h : i < 1024) : (State.atReset r).entryB i = Config.initB r i := by
  simp [State.entryB, State.atReset, getElem?_tabulate _ h]

/-- Settles O52: both forms of reset leave the state `State.atReset` describes, up to what lies outside NTTE. -/
theorem resetState : Obligations.ResetState := by
  refine ⟨⟨reset_status, rfl, rfl, fun i hi => atReset_entryA 0 hi, fun i hi => atReset_entryB 0 hi⟩,
    fun s turns hs => ⟨_, step_cons hs, pulseReset_status _, rfl, rfl, fun i hi => ?_, fun i hi => ?_, rfl, rfl, rfl, rfl⟩⟩
  · exact (entryA_congr rfl i).trans (atReset_entryA (s.resets + 1) hi)
  · exact (entryB_congr rfl i).trans (atReset_entryB (s.resets + 1) hi)

end Sys2Proof.Machine

/-! Engine steps of the whole transforms: each is the single-step command that the schedule names, whose operands are in range
(10_state.md R40, 42_ring_a_transforms.md R158, 44_ring_b_transforms.md R182). -/

namespace Sys2Proof.Machine

/-! ### The command of a micro-operation -/

/-- The single-step command that issues a micro-operation of ENG_A (R140). -/
def MicroA.command : MicroA → Instr
  | .nothing => .nopA
  | .bfct j lg k => .bfctA (.ofNat 10 j) (.ofNat 4 lg) (.ofNat 10 k)
  | .bfgs j lg k => .bfgsA (.ofNat 10 j) (.ofNat 4 lg) (.ofNat 10 k)
  | .fscale j => .fscaleA (.ofNat 10 j)
  | .redc j => .redcA (.ofNat 10 j)
  | .freeze j => .freezeA (.ofNat 10 j)

/-- The operands are in the ranges of R93. -/
def MicroA.InRange : MicroA → Prop
  | .nothing => True
  | .bfct j lg k => butterflyRangeA j lg k = true
  | .bfgs j lg k => butterflyRangeA j lg k = true
  | .fscale j => indexRangeA j = true
  | .redc j => indexRangeA j = true
  | .freeze j => indexRangeA j = true

/-- The single-step command that issues a micro-operation of ENG_B (R170). -/
def MicroB.command : MicroB → Instr
  | .nothing => .nopB
  | .bfct j lg x => .bfctB (.ofNat 10 j) (.ofNat 4 lg) (.ofNat 10 x)
  | .bfgs j lg x => .bfgsB (.ofNat 10 j) (.ofNat 4 lg) (.ofNat 10 x)
  | .nscale j logn => .nscaleB (.ofNat 10 j) (.ofNat 4 logn)

/-- The operands are in the ranges of R93. -/
def MicroB.InRange : MicroB → Prop
  | .nothing => True
  | .bfct j lg x => butterflyRangeB j lg = true ∧ x ≤ 1023
  | .bfgs j lg x => butterflyRangeB j lg = true ∧ x ≤ 1023
  | .nscale j logn => j ≤ 1023 ∧ legalLogn logn = true

theorem butterflyRangeA_iff (j lg k : Nat) :
    butterflyRangeA j lg k = true ↔ lg ≤ 7 ∧ j + 2 ^ lg ≤ 255 ∧ 1 ≤ k ∧ k ≤ 255 := by
  have hpos := Nat.two_pow_pos lg
  simp only [butterflyRangeA, Bool.and_eq_true, decide_eq_true_eq]
  simp only [partner, distance]
  omega

theorem butterflyRangeB_iff (j lg : Nat) : butterflyRangeB j lg = true ↔ lg ≤ 9 ∧ j + 2 ^ lg ≤ 1023 := by
  simp only [butterflyRangeB, Bool.and_eq_true, decide_eq_true_eq]
  rfl

theorem indexRangeA_iff (j : Nat) : indexRangeA j = true ↔ j ≤ 255 := by simp [indexRangeA]

theorem ofNat10_toNat {v : Nat} (h : v ≤ 1023) : (BitVec.ofNat 10 v).toNat = v := by
  rw [BitVec.toNat_ofNat]
  omega

theorem ofNat4_toNat {v : Nat} (h : v ≤ 15) : (BitVec.ofNat 4 v).toNat = v := by
  rw [BitVec.toNat_ofNat]
  omega

theorem MicroA.unitOf_command (m : MicroA) : unitOf m.command = .a := by cases m <;> rfl

theorem MicroB.unitOf_command (m : MicroB) : unitOf m.command = .b := by cases m <;> rfl

/-- Operands in range fit their fields, so the command issues the micro-operation itself, and its check passes. -/
theorem MicroA.command_issues {m : MicroA} (h : m.InRange) :
    m.command.WellFormed ∧ bareStep m.command = engineStepA 1 fun _ => m := by
  cases m with
  | nothing => exact ⟨rfl, rfl⟩
  | bfct j lg k | bfgs j lg k =>
    obtain ⟨hlg, hj, -, hk⟩ := (butterflyRangeA_iff j lg k).mp h
    have ej : (BitVec.ofNat 10 j).toNat = j := ofNat10_toNat ((Nat.le_add_right j (2 ^ lg)).trans (by omega))
    have elg : (BitVec.ofNat 4 lg).toNat = lg := ofNat4_toNat (by omega)
    have ek : (BitVec.ofNat 10 k).toNat = k := ofNat10_toNat (by omega)
    simp only [Instr.WellFormed, command, operandsInRange, bareStep, ej, elg, ek]
    exact ⟨h, trivial⟩
  | fscale j | redc j | freeze j =>
    have ej : (BitVec.ofNat 10 j).toNat = j := ofNat10_toNat (by have := (indexRangeA_iff j).mp h; omega)
    simp only [Instr.WellFormed, command, operandsInRange, bareStep, ej]
    exact ⟨h, trivial⟩

/-- Operands in range fit their fields, so the command issues the micro-operation itself, and its check passes. -/
theorem MicroB.command_issues {m : MicroB} (h : m.InRange) :
    m.command.WellFormed ∧ bareStep m.command = engineStepB 1 fun _ => m := by
  cases m with
  | nothing => exact ⟨rfl, rfl⟩
  | bfct j lg x | bfgs j lg x =>
    obtain ⟨hr, hx⟩ := h
    obtain ⟨hlg, hj⟩ := (butterflyRangeB_iff j lg).mp hr
    have ej : (BitVec.ofNat 10 j).toNat = j := ofNat10_toNat ((Nat.le_add_right j (2 ^ lg)).trans (by omega))
    have elg : (BitVec.ofNat 4 lg).toNat = lg := ofNat4_toNat (by omega)
    have ex : (BitVec.ofNat 10 x).toNat = x := ofNat10_toNat hx
    simp only [Instr.WellFormed, command, operandsInRange, bareStep, ej, elg, ex]
    exact ⟨hr, trivial⟩
  | nscale j logn =>
    obtain ⟨hj, hl⟩ := h
    have ej : (BitVec.ofNat 10 j).toNat = j := ofNat10_toNat hj
    have el : (BitVec.ofNat 4 logn).toNat = logn := ofNat4_toNat (by have := (legalLogn_iff logn).mp hl; omega)
    simp only [Instr.WellFormed, command, operandsInRange, bareStep, ej, el]
    exact ⟨hl, trivial⟩

/-! ### The operands of the schedules are in range -/

/-- Butterfly `p` of a layer of `b` blocks of `len` butterflies lies in one of them. -/
theorem block_lt {b len p : Nat} (h : p < b * len) : p / len < b := Nat.div_lt_of_lt_mul (by rwa [Nat.mul_comm])

/-- Butterfly `p` of a layer of `b` blocks of `2·len` entries: its second index lies in the layer's last block. -/
theorem blockIndex_lt {b len p : Nat} (h : p < b * len) : 2 * len * (p / len) + p % len + len < 2 * (b * len) := by
  have hlen : 0 < len := Nat.pos_of_ne_zero fun h0 => by simp [h0] at h
  have hmod : p % len < len := Nat.mod_lt p hlen
  have hblock : p / len + 1 ≤ b := block_lt h
  calc 2 * len * (p / len) + p % len + len < 2 * len * (p / len + 1) := by rw [Nat.mul_succ]; omega
    _ ≤ 2 * len * b := Nat.mul_le_mul_left _ hblock
    _ = 2 * (b * len) := by ring

/-- The twiddle index of block `q`, counted down from the end of its layer's range. -/
theorem mirror_bounds {b q n : Nat} (hq : q < b) (hb : 2 * b ≤ n) : 1 ≤ 2 * b - 1 - q ∧ 2 * b - 1 - q < n := by omega

/-- The `2^(l-1)` butterflies of layer `d` of a transform of size `2^l` are `2^d` blocks of `2^(l-1-d)`, or the reverse. -/
theorem two_pow_layer {d l : Nat} (h : d < l) : 2 ^ d * 2 ^ (l - 1 - d) = 2 ^ (l - 1) := by
  rw [← Nat.pow_add]
  congr 1
  omega

theorem two_pow_div {d l : Nat} (h : d < l) : 2 ^ l / 2 ^ d = 2 * 2 ^ (l - 1 - d) := by
  rw [Nat.pow_div h.le (by decide), ← Nat.pow_succ']
  congr 1
  omega

theorem two_pow_div_succ {d l : Nat} (h : d < l) : 2 ^ l / 2 ^ (d + 1) = 2 ^ (l - 1 - d) := by
  rw [Nat.pow_div h (by decide)]
  congr 1
  omega

/-- Butterfly `p` of layer `d` of `ntt.a` (R158). -/
def forwardA (d p : Nat) : MicroA :=
  .bfct (2 * 2 ^ (7 - d) * (p / 2 ^ (7 - d)) + p % 2 ^ (7 - d)) (7 - d) (2 ^ d + p / 2 ^ (7 - d))

/-- Butterfly `p` of layer `d` of the inverse transforms of ENG_A (R158). -/
def inverseA (d p : Nat) : MicroA :=
  .bfgs (2 * 2 ^ d * (p / 2 ^ d) + p % 2 ^ d) d (2 ^ (8 - d) - 1 - p / 2 ^ d)

theorem uopNttA_eq (k : Nat) : uopNttA k = forwardA (k / 128) (k % 128) := rfl

theorem uopInverseLayersA_eq (k : Nat) : uopInverseLayersA k = inverseA (k / 128) (k % 128) := rfl

theorem forwardA_inRange {d p : Nat} (hd : d < 8) (hp : p < 128) : (forwardA d p).InRange := by
  have hlayer : 2 ^ d * 2 ^ (7 - d) = 128 := two_pow_layer (l := 8) hd
  have hpow : 2 ^ d ≤ 2 ^ 7 := Nat.pow_le_pow_right (by decide) (by omega)
  have hidx := blockIndex_lt (hlayer.symm ▸ hp)
  have hblk := block_lt (hlayer.symm ▸ hp)
  exact (butterflyRangeA_iff _ _ _).mpr
    ⟨by omega, by omega, Nat.one_le_two_pow.trans (Nat.le_add_right _ _), by omega⟩

theorem inverseA_inRange {d p : Nat} (hd : d < 8) (hp : p < 128) : (inverseA d p).InRange := by
  have hlayer : 2 ^ (7 - d) * 2 ^ d = 128 := (Nat.mul_comm _ _).trans (two_pow_layer (l := 8) hd)
  have hpow : 2 ^ (7 - d) ≤ 2 ^ 7 := Nat.pow_le_pow_right (by decide) (by omega)
  have hdouble : 2 ^ (8 - d) = 2 * 2 ^ (7 - d) := by rw [← Nat.pow_succ']; congr 1; omega
  have hidx := blockIndex_lt (hlayer.symm ▸ hp)
  obtain ⟨hlow, hhigh⟩ := mirror_bounds (n := 256) (block_lt (hlayer.symm ▸ hp)) (by omega)
  rw [← hdouble] at hlow hhigh
  exact (butterflyRangeA_iff _ _ _).mpr ⟨by omega, by omega, hlow, Nat.le_of_lt_succ hhigh⟩

theorem uopNttA_inRange {k : Nat} (h : k < 1024) : (uopNttA k).InRange :=
  forwardA_inRange (by omega) (Nat.mod_lt _ (by decide))

theorem uopInverseLayersA_inRange {k : Nat} (h : k < 1024) : (uopInverseLayersA k).InRange :=
  inverseA_inRange (by omega) (Nat.mod_lt _ (by decide))

/-- Butterfly `p` of layer `d` of `ntt.b l` (R182). -/
def forwardB (l d p : Nat) : MicroB :=
  .bfct (2 * 2 ^ (l - 1 - d) * (p / 2 ^ (l - 1 - d)) + p % 2 ^ (l - 1 - d)) (l - 1 - d) (2 ^ d + p / 2 ^ (l - 1 - d))

/-- Butterfly `p` of layer `d` of `intt.b l` (R182). -/
def inverseB (l d p : Nat) : MicroB :=
  .bfgs (2 * 2 ^ d * (p / 2 ^ d) + p % 2 ^ d) d (2 * 2 ^ (l - 1 - d) - 1 - p / 2 ^ d)

section ScheduleB
variable {l k : Nat} (hl : 1 ≤ l)
include hl

theorem uopNttB_eq (h : k < l * 2 ^ (l - 1)) :
    uopNttB l k = forwardB l (k / 2 ^ (l - 1)) (k % 2 ^ (l - 1)) := by
  have ht := two_pow_div (block_lt h)
  simp only [uopNttB, forwardB, two_pow_half hl, ht, Nat.mul_div_cancel_left _ (Nat.two_pos), MicroB.bfct.injEq,
    and_true]
  rw [Nat.mul_comm]

theorem uopInttB_eq (h : k < l * 2 ^ (l - 1)) :
    uopInttB l k = inverseB l (k / 2 ^ (l - 1)) (k % 2 ^ (l - 1)) := by
  have ht := two_pow_div_succ (block_lt h)
  simp only [uopInttB, inverseB, two_pow_half hl, if_pos h, ht, MicroB.bfgs.injEq, and_true]
  ring

theorem uopInttB_scale (h : l * 2 ^ (l - 1) ≤ k) : uopInttB l k = .nscale (k - l * 2 ^ (l - 1)) l := by
  simp only [uopInttB, two_pow_half hl, if_neg (Nat.not_lt.mpr h)]

end ScheduleB

section RangesB
variable {l d p : Nat} (hl : l ≤ 10) (hd : d < l) (hp : p < 2 ^ (l - 1))
include hl hd hp

theorem forwardB_inRange : (forwardB l d p).InRange := by
  have hlayer : 2 ^ d * 2 ^ (l - 1 - d) = 2 ^ (l - 1) := two_pow_layer hd
  have hsize : 2 ^ (l - 1) ≤ 2 ^ 9 := Nat.pow_le_pow_right (by decide) (by omega)
  have hpow : 2 ^ d ≤ 2 ^ 9 := Nat.pow_le_pow_right (by decide) (by omega)
  have hidx := blockIndex_lt (hlayer.symm ▸ hp)
  have hblk := block_lt (hlayer.symm ▸ hp)
  exact ⟨(butterflyRangeB_iff _ _).mpr ⟨by omega, by omega⟩, by omega⟩

theorem inverseB_inRange : (inverseB l d p).InRange := by
  have hlayer : 2 ^ (l - 1 - d) * 2 ^ d = 2 ^ (l - 1) := (Nat.mul_comm _ _).trans (two_pow_layer hd)
  have hsize : 2 ^ (l - 1) ≤ 2 ^ 9 := Nat.pow_le_pow_right (by decide) (by omega)
  have hpow : 2 ^ (l - 1 - d) ≤ 2 ^ 9 := Nat.pow_le_pow_right (by decide) (by omega)
  have hidx := blockIndex_lt (hlayer.symm ▸ hp)
  obtain ⟨-, hhigh⟩ := mirror_bounds (n := 1024) (block_lt (hlayer.symm ▸ hp)) (by omega)
  exact ⟨(butterflyRangeB_iff _ _).mpr ⟨by omega, by omega⟩, Nat.le_of_lt_succ hhigh⟩

end RangesB

/-! ### Engine steps of a schedule -/

/-- A micro-operation neither reads nor writes the run state of its unit. -/
theorem microA_runState (m : MicroA) (e : Engine 11) (s : State) :
    microA m { s with a := e } = { microA m s with a := e } := by
  cases m <;> rfl

theorem storePairB_runState (j lg x y : Nat) (e : Engine 13) (s : State) :
    storePairB j lg x y { s with b := e } = { storePairB j lg x y s with b := e } := by
  by_cases h : CanonicalB (s.coefB j) ∧ CanonicalB (s.coefB (partner j lg))
  · rw [show storePairB j lg x y s = _ from if_pos h]
    exact if_pos h
  · rw [show storePairB j lg x y s = _ from if_neg h]
    exact if_neg h

theorem microB_runState (m : MicroB) (e : Engine 13) (s : State) :
    microB m { s with b := e } = { microB m s with b := e } := by
  cases m with
  | nothing => rfl
  | bfct j lg x => exact storePairB_runState _ _ _ _ e s
  | bfgs j lg x => exact storePairB_runState _ _ _ _ e s
  | nscale j logn =>
    by_cases h : CanonicalB (s.coefB j)
    · rw [show microB (.nscale j logn) s = _ from if_pos h]
      exact if_pos h
    · rw [show microB (.nscale j logn) s = _ from if_neg h]
      exact if_neg h

/-- `m` is the micro-operation, and `i` the single-step command, that step `k` of the ENG_A command `j` of `n` steps
performs: what R158 says of the schedule. -/
def StepsAsA (j : Instr) (n k : Nat) (m : MicroA) : Prop :=
  unitOf j = .a ∧ ∃ uop, bareStep j = engineStepA n uop ∧ uop k = m

/-- The same for ENG_B (R182). -/
def StepsAsB (j : Instr) (n k : Nat) (m : MicroB) : Prop :=
  unitOf j = .b ∧ ∃ uop, bareStep j = engineStepB n uop ∧ uop k = m

section StepsA
variable {j : Instr} {n k : Nat} {m : MicroA} {s : State}

/-- Engine step `k` of a running ENG_A command: the micro-operation of its schedule, then the advance. -/
theorem exec_schedule_a (hj : StepsAsA j n k m) (hs : RunningA k s) :
    exec j s = .next { microA m s with a := advancedA k n s } := by
  obtain ⟨hu, uop, hb, hm⟩ := hj
  have hbusy : s.busy (unitOf j) = true := hu ▸ hs.busy
  rw [exec_busy hbusy, runStep_a_defined hu hs.defined, hb, engineStepA, advance_runningA hs n, hs.seq, hm]

/-- A single-step command run with the counter at 0 leaves the buffer as the engine step of any schedule that names it. -/
theorem exec_command_a (hm : m.InRange) (hs : RunningA k s) :
    ∃ q, exec m.command { s with a := { s.a with seq := 0 } } = .next q ∧
      ∀ e, { q with a := e } = { microA m s with a := e } := by
  have h0 : RunningA 0 { s with a := { s.a with seq := 0 } } := ⟨hs.busy, hs.defined, rfl⟩
  refine ⟨_, exec_schedule_a ⟨m.unitOf_command, _, (MicroA.command_issues hm).2, rfl⟩ h0, fun e => ?_⟩
  rw [microA_runState]

/-- Engine step `k` of a scheduled command is the single-step command of its micro-operation, then the advance. -/
theorem exec_schedule_a_eq_command (hm : m.InRange) (hj : StepsAsA j n k m) (hs : RunningA k s) :
    m.command.WellFormed ∧ ∃ q, exec m.command { s with a := { s.a with seq := 0 } } = .next q ∧
      exec j s = .next { q with a := advancedA k n s } := by
  obtain ⟨q, hq, he⟩ := exec_command_a hm hs
  exact ⟨(MicroA.command_issues hm).1, q, hq, by rw [he]; exact exec_schedule_a hj hs⟩

end StepsA

section StepsB
variable {j : Instr} {n k : Nat} {m : MicroB} {s : State}

/-- Engine step `k` of a running ENG_B command: the micro-operation of its schedule, then the advance. -/
theorem exec_schedule_b (hj : StepsAsB j n k m) (hs : RunningB k s) :
    exec j s = .next { microB m s with b := advancedB k n s } := by
  obtain ⟨hu, uop, hb, hm⟩ := hj
  have hbusy : s.busy (unitOf j) = true := hu ▸ hs.busy
  rw [exec_busy hbusy, runStep_b_defined hu hs.defined, hb, engineStepB, advance_runningB hs n, hs.seq, hm]

/-- A single-step command run with the counter at 0 leaves the buffer as the engine step of any schedule that names it. -/
theorem exec_command_b (hm : m.InRange) (hs : RunningB k s) :
    ∃ q, exec m.command { s with b := { s.b with seq := 0 } } = .next q ∧
      ∀ e, { q with b := e } = { microB m s with b := e } := by
  have h0 : RunningB 0 { s with b := { s.b with seq := 0 } } := ⟨hs.busy, hs.defined, rfl⟩
  refine ⟨_, exec_schedule_b ⟨m.unitOf_command, _, (MicroB.command_issues hm).2, rfl⟩ h0, fun e => ?_⟩
  rw [microB_runState]

/-- Engine step `k` of a scheduled command is the single-step command of its micro-operation, then the advance. -/
theorem exec_schedule_b_eq_command (hm : m.InRange) (hj : StepsAsB j n k m) (hs : RunningB k s) :
    m.command.WellFormed ∧ ∃ q, exec m.command { s with b := { s.b with seq := 0 } } = .next q ∧
      exec j s = .next { q with b := advancedB k n s } := by
  obtain ⟨q, hq, he⟩ := exec_command_b hm hs
  exact ⟨(MicroB.command_issues hm).1, q, hq, by rw [he]; exact exec_schedule_b hj hs⟩

end StepsB

theorem nttA_stepsAs (k : Nat) : StepsAsA .nttA 1024 k (uopNttA k) := ⟨rfl, _, rfl, rfl⟩

theorem inttAMont_stepsAs (k : Nat) : StepsAsA .inttAMont 1280 k (uopInttAMont k) := ⟨rfl, _, rfl, rfl⟩

theorem inttA_stepsAs (k : Nat) : StepsAsA .inttA 1792 k (uopInttA k) := ⟨rfl, _, rfl, rfl⟩

section LegalSizes
variable {logn : BitVec 4} (h1 : 1 ≤ logn.toNat) (h10 : logn.toNat ≤ 10)
include h1 h10

theorem nttB_stepsAs (k : Nat) :
    StepsAsB (.nttB logn) (stepsNttB logn.toNat) k (uopNttB logn.toNat k) :=
  ⟨rfl, _, funext fun _ => if_pos ((legalLogn_iff _).mpr ⟨h1, h10⟩), rfl⟩

theorem inttB_stepsAs (k : Nat) :
    StepsAsB (.inttB logn) (stepsInttB logn.toNat) k (uopInttB logn.toNat k) :=
  ⟨rfl, _, funext fun _ => if_pos ((legalLogn_iff _).mpr ⟨h1, h10⟩), rfl⟩

end LegalSizes

/-- Settles O29: the single-step command is the one whose micro-operation the schedule has at step `k`. -/
theorem nttAEngineStep : Obligations.NttAEngineStep := by
  rintro k s l p lg len hk hs rfl rfl rfl rfl i rfl
  exact exec_schedule_a_eq_command (uopNttA_inRange hk) (nttA_stepsAs k) hs

/-- The first 1280 steps of `intt.a` are those of `intt.a.mont` (R153), with operands in range. -/
theorem uopInttA_shared {k : Nat} (h : k < 1280) :
    uopInttA k = uopInttAMont k ∧ (uopInttAMont k).InRange := by
  by_cases h' : k < 1024
  · simp only [uopInttA, uopInttAMont, if_pos h']
    exact ⟨trivial, uopInverseLayersA_inRange h'⟩
  · simp only [uopInttA, uopInttAMont, if_neg h', if_pos h]
    exact ⟨trivial, (indexRangeA_iff _).mpr (by omega)⟩

theorem uopInttA_finish {k : Nat} (h : 1280 ≤ k) :
    uopInttA k = if (k - 1280) % 2 = 0 then .redc ((k - 1280) / 2) else .freeze ((k - 1280) / 2) := by
  simp only [uopInttA, if_neg (show ¬ k < 1024 by omega), if_neg (Nat.not_lt.mpr h)]

/-- Settles O30: below step 1280 the two commands share their schedule, and from there `intt.a` goes on alone. -/
theorem inttAEngineSteps : Obligations.InttAEngineSteps := by
  intro k s i hs
  have shared (hk : k < 1280) (hi : i = (uopInttAMont k).command) :
      i.WellFormed ∧ ∃ q, exec i { s with a := { s.a with seq := 0 } } = .next q ∧
        exec .inttAMont s = .next { q with a := advancedA k 1280 s } ∧
        exec .inttA s = .next { q with a := advancedA k 1792 s } := by
    subst hi
    obtain ⟨hsame, hm⟩ := uopInttA_shared hk
    obtain ⟨q, hq, he⟩ := exec_command_a hm hs
    refine ⟨(MicroA.command_issues hm).1, q, hq, ?_, ?_⟩ <;> rw [he]
    · exact exec_schedule_a (inttAMont_stepsAs k) hs
    · exact exec_schedule_a (hsame ▸ inttA_stepsAs k) hs
  have alone {m : MicroA} (hm : m.InRange) (hk : uopInttA k = m) (hi : i = m.command) :
      i.WellFormed ∧ ∃ q, exec i { s with a := { s.a with seq := 0 } } = .next q ∧
        exec .inttA s = .next { q with a := advancedA k 1792 s } := by
    subst hi
    exact exec_schedule_a_eq_command hm (hk ▸ inttA_stepsAs k) hs
  refine ⟨?_, ?_⟩
  · rintro (⟨l, p, len, hk, rfl, rfl, rfl, rfl⟩ | ⟨hlow, hk, rfl⟩)
    · exact shared (by omega) (by rw [uopInttAMont, if_pos hk]; rfl)
    · exact shared hk (by rw [uopInttAMont, if_neg (Nat.not_lt.mpr hlow)]; rfl)
  · rintro (⟨hlow, hk, heven, rfl⟩ | ⟨hlow, hk, hodd, rfl⟩)
    · exact alone (m := .redc _) ((indexRangeA_iff _).mpr (by omega))
        ((uopInttA_finish hlow).trans (if_pos heven)) rfl
    · exact alone (m := .freeze _) ((indexRangeA_iff _).mpr (by omega))
        ((uopInttA_finish hlow).trans (if_neg (by omega))) rfl

section RangesOfSchedulesB
variable {l k : Nat} (h1 : 1 ≤ l) (h10 : l ≤ 10)
include h1 h10

theorem uopNttB_inRange (h : k < l * 2 ^ (l - 1)) : (uopNttB l k).InRange := by
  rw [uopNttB_eq h1 h]
  exact forwardB_inRange h10 (block_lt h) (Nat.mod_lt _ (Nat.two_pow_pos _))

theorem uopInttB_inRange (h : k < l * 2 ^ (l - 1) + 2 ^ l) : (uopInttB l k).InRange := by
  by_cases hk : k < l * 2 ^ (l - 1)
  · rw [uopInttB_eq h1 hk]
    exact inverseB_inRange h10 (block_lt hk) (Nat.mod_lt _ (Nat.two_pow_pos _))
  · have hn : 2 ^ l ≤ 2 ^ 10 := Nat.pow_le_pow_right (by decide) h10
    rw [uopInttB_scale h1 (Nat.not_lt.mp hk)]
    exact ⟨by omega, (legalLogn_iff l).mpr ⟨h1, h10⟩⟩

end RangesOfSchedulesB

/-- Settles O31: the micro-operation of the schedule at step `k` is the one each clause writes out, and its operands are in
range. -/
theorem transformBEngineSteps : Obligations.TransformBEngineSteps := by
  rintro logn k s n h h1 h10 rfl rfl hs
  have hhalf : 2 ^ logn.toNat / 2 = 2 ^ (logn.toNat - 1) := two_pow_half h1
  refine ⟨?_, ?_, ?_⟩
  · rintro d p ht i hk rfl rfl rfl rfl
    have hm : (uopNttB logn.toNat k).InRange := uopNttB_inRange h1 h10 (hhalf ▸ hk)
    exact exec_schedule_b_eq_command hm (nttB_stepsAs h1 h10 k) hs
  · rintro d p t hm i hk rfl rfl rfl rfl rfl
    have hin : (uopInttB logn.toNat k).InRange := uopInttB_inRange h1 h10 (Nat.lt_add_right _ (hhalf ▸ hk))
    have hstep := exec_schedule_b_eq_command hin (inttB_stepsAs h1 h10 k) hs
    have huop : uopInttB logn.toNat k = .bfgs _ _ _ := if_pos hk
    rw [huop] at hstep
    exact hstep
  · rintro i hlow hk rfl
    have hin : (uopInttB logn.toNat k).InRange := uopInttB_inRange h1 h10 (hhalf ▸ hk)
    have hstep := exec_schedule_b_eq_command hin (inttB_stepsAs h1 h10 k) hs
    have huop : uopInttB logn.toNat k = .nscale _ _ := if_neg (Nat.not_lt.mpr hlow)
    have hlogn : BitVec.ofNat 4 logn.toNat = logn := by simp
    rw [huop, MicroB.command, hlogn] at hstep
    exact hstep

end Sys2Proof.Machine

/-! Whole transforms: the schedules of R158 and R182 enumerate the loop nests of R150, R151, R153, R180 and R181 in their
written order, so a whole run of a transform applies its loop nest. -/

namespace Sys2Proof.Machine

/-! ### Lists of numbers -/

/-- Counting to `b·len` is counting blocks of `len`. -/
theorem map_range_mul {α : Type} (b len : Nat) (f : Nat → Nat → α) :
    (List.range (b * len)).map (fun x => f (x / len) (x % len)) =
      (List.range b).flatMap fun i => (List.range len).map (f i) := by
  induction b with
  | zero => simp
  | succ b ih =>
    have hlast : (List.range len).map (fun t => f ((b * len + t) / len) ((b * len + t) % len)) =
        (List.range len).map (f b) := by
      refine List.map_congr_left fun t ht => ?_
      have htlen : t < len := List.mem_range.mp ht
      have hdiv : (b * len + t) / len = b := by
        rw [Nat.add_comm, Nat.add_mul_div_right _ _ (by omega), Nat.div_eq_of_lt htlen, Nat.zero_add]
      have hmod : (b * len + t) % len = t := by
        rw [Nat.add_comm, Nat.add_mul_mod_self_right, Nat.mod_eq_of_lt htlen]
      rw [hdiv, hmod]
    rw [Nat.succ_mul, List.range_add, List.map_append, List.map_map, ih, List.range_succ, List.flatMap_append,
      List.flatMap_singleton]
    exact congrArg _ hlast

theorem map_range_add {α : Type} (a b : Nat) (f : Nat → α) :
    (List.range (a + b)).map f = (List.range a).map f ++ (List.range b).map fun x => f (a + x) := by
  rw [List.range_add, List.map_append, List.map_map]
  rfl

/-- A loop that carries a counter: where the counter before round `b` is `c b`, round `b` adds the list `g b`. -/
theorem foldl_counter {β : Type} (F : Nat → Nat → Nat × List β) (c : Nat → Nat) (g : Nat → List β) (n : Nat)
    (hF : ∀ b, b < n → F (c b) b = (c (b + 1), g b)) :
    (List.range n).foldl (fun acc b => ((F acc.1 b).1, acc.2 ++ (F acc.1 b).2)) (c 0, []) =
      (c n, (List.range n).flatMap g) := by
  induction n with
  | zero => rfl
  | succ n ih =>
    rw [List.range_succ, List.foldl_append, ih fun b hb => hF b (by omega)]
    simp [hF n (by omega)]

/-! ### Loop nests of ENG_A -/

/-- One layer of R150, from the counter the layers before it leave. -/
theorem forwardLayerA_eq {d : Nat} (hd : d < 8) :
    forwardLayerA (2 ^ d - 1) (7 - d) = (2 ^ (d + 1) - 1, (List.range 128).map (forwardA d)) := by
  have hsize : 2 ^ d * 2 ^ (7 - d) = 128 := two_pow_layer (l := 8) hd
  have hblocks : 256 / (2 * 2 ^ (7 - d)) = 2 ^ d :=
    Nat.div_eq_of_eq_mul_left (by positivity) (by rw [Nat.mul_left_comm, hsize])
  have hpos := Nat.two_pow_pos d
  have hcount : 2 ^ d - 1 + 2 ^ d = 2 ^ (d + 1) - 1 := by rw [Nat.pow_succ]; omega
  have hlayer := map_range_mul (2 ^ d) (2 ^ (7 - d)) fun i t => MicroA.bfct (2 * 2 ^ (7 - d) * i + t) (7 - d) (2 ^ d + i)
  rw [hsize] at hlayer
  rw [forwardLayerA, startsA, hblocks, List.foldl_map, ← hcount]
  refine (foldl_counter
    (fun k b => (k + 1, (List.range (2 ^ (7 - d))).map fun t => MicroA.bfct (b * (2 * 2 ^ (7 - d)) + t) (7 - d) (k + 1)))
    (fun b => 2 ^ d - 1 + b) _ _ fun b _ => rfl).trans (Prod.ext rfl ?_)
  refine Eq.trans ?_ hlayer.symm
  refine List.flatMap_congr fun i _ => List.map_congr_left fun t _ => ?_
  rw [Nat.mul_comm i, show 2 ^ d - 1 + i + 1 = 2 ^ d + i by omega]

theorem map_uopNttA : (List.range 1024).map uopNttA = loopNttA := by
  have hfold := foldl_counter (fun k d => forwardLayerA k (7 - d)) (fun d => 2 ^ d - 1)
    (fun d => (List.range 128).map (forwardA d)) 8 fun d hd => forwardLayerA_eq hd
  calc (List.range 1024).map uopNttA = (List.range 8).flatMap fun d => (List.range 128).map (forwardA d) :=
        map_range_mul 8 128 forwardA
    _ = loopNttA := (congrArg Prod.snd hfold).symm

/-- One layer of R151, from the counter the layers before it leave. -/
theorem inverseLayerA_eq {d : Nat} (hd : d < 8) :
    inverseLayerA (2 ^ (8 - d)) d = (2 ^ (8 - (d + 1)), (List.range 128).map (inverseA d)) := by
  have hsize : 2 ^ (7 - d) * 2 ^ d = 128 := (Nat.mul_comm _ _).trans (two_pow_layer (l := 8) hd)
  have hblocks : 256 / (2 * 2 ^ d) = 2 ^ (7 - d) :=
    Nat.div_eq_of_eq_mul_left (by positivity) (by rw [Nat.mul_left_comm, hsize])
  have hcount : 2 ^ (8 - d) - 2 ^ (7 - d) = 2 ^ (8 - (d + 1)) := by
    rw [show 8 - d = 7 - d + 1 by omega, show 8 - (d + 1) = 7 - d by omega, Nat.pow_succ]
    omega
  have hlayer := map_range_mul (2 ^ (7 - d)) (2 ^ d) fun i t => MicroA.bfgs (2 * 2 ^ d * i + t) d (2 ^ (8 - d) - 1 - i)
  rw [hsize] at hlayer
  rw [inverseLayerA, startsA, hblocks, List.foldl_map, ← hcount]
  refine (foldl_counter
    (fun k b => (k - 1, (List.range (2 ^ d)).map fun t => MicroA.bfgs (b * (2 * 2 ^ d) + t) d (k - 1)))
    (fun b => 2 ^ (8 - d) - b) _ _ fun b _ => rfl).trans (Prod.ext rfl ?_)
  refine Eq.trans ?_ hlayer.symm
  refine List.flatMap_congr fun i _ => List.map_congr_left fun t _ => ?_
  rw [Nat.mul_comm i, Nat.sub_right_comm]

/-- The schedule of the inverse butterflies, then the scalings (R151). -/
theorem map_uopInttAMont : (List.range 1280).map uopInttAMont = loopInttAMont := by
  have hfold := foldl_counter (fun k d => inverseLayerA k d) (fun d => 2 ^ (8 - d))
    (fun d => (List.range 128).map (inverseA d)) 8 fun d hd => inverseLayerA_eq hd
  have hbutterflies : (List.range 1024).map uopInttAMont =
      (List.range 8).flatMap fun d => (List.range 128).map (inverseA d) :=
    (List.map_congr_left fun k hk => if_pos (List.mem_range.mp hk)).trans (map_range_mul 8 128 inverseA)
  have hscalings : (List.range 256).map (fun x => uopInttAMont (1024 + x)) = (List.range 256).map fun j => .fscale j :=
    List.map_congr_left fun j _ => by
      rw [uopInttAMont, if_neg (Nat.not_lt.mpr (Nat.le_add_right _ _)), Nat.add_sub_cancel_left]
  calc (List.range 1280).map uopInttAMont
      = (List.range 1024).map uopInttAMont ++ (List.range 256).map fun x => uopInttAMont (1024 + x) :=
        map_range_add 1024 256 uopInttAMont
    _ = loopInttAMont := by
        rw [hbutterflies, hscalings]
        exact congrArg (· ++ _) (congrArg Prod.snd hfold).symm

/-- The schedule of `intt.a`: that of `intt.a.mont`, then reductions and freezes by turns (R153). -/
theorem map_uopInttA : (List.range 1792).map uopInttA = loopInttA := by
  have hshared : (List.range 1280).map uopInttA = loopInttAMont :=
    (List.map_congr_left fun k hk => (uopInttA_shared (List.mem_range.mp hk)).1).trans map_uopInttAMont
  have hfinish : (List.range 512).map (fun x => uopInttA (1280 + x)) =
      (List.range 256).flatMap fun i => [.redc i, .freeze i] :=
    (List.map_congr_left fun x _ => by rw [uopInttA_finish (Nat.le_add_right _ _), Nat.add_sub_cancel_left]).trans
      (map_range_mul 256 2 fun i o => if o = 0 then MicroA.redc i else .freeze i)
  calc (List.range 1792).map uopInttA
      = (List.range 1280).map uopInttA ++ (List.range 512).map fun x => uopInttA (1280 + x) :=
        map_range_add 1280 512 uopInttA
    _ = loopInttA := by rw [hshared, hfinish, loopInttA]

/-! ### Loop nests of ENG_B -/

/-- The outer loop of R180 with `e` layers done and `k` left. -/
theorem forwardLoopB_eq {l : Nat} (k e : Nat) (h : e + k = l) :
    forwardLoopB k (2 ^ k) (2 ^ e) =
      (List.range k).flatMap fun d => (List.range (2 ^ (l - 1))).map (forwardB l (e + d)) := by
  induction k generalizing e with
  | zero => rfl
  | succ k ih =>
    have hk : l - 1 - e = k := by omega
    have hlayer := map_range_mul (2 ^ e) (2 ^ k) fun i o => MicroB.bfct (2 * 2 ^ k * i + o) k (2 ^ e + i)
    have hfirst : forwardLayerB (2 ^ e) (2 ^ (k + 1)) k = (List.range (2 ^ (l - 1))).map (forwardB l e) := by
      rw [← two_pow_layer (show e < l by omega), hk]
      refine Eq.trans ?_ (hlayer.symm.trans ?_)
      · simp only [forwardLayerB, Nat.pow_succ', Nat.mul_div_cancel_left _ Nat.two_pos]
        exact List.flatMap_congr fun i _ => List.map_congr_left fun o _ => by rw [Nat.mul_comm i]
      · exact List.map_congr_left fun p _ => by rw [forwardB, hk]
    rw [forwardLoopB, hfirst, Nat.pow_succ', Nat.mul_div_cancel_left _ Nat.two_pos, ← Nat.pow_succ',
      ih (e + 1) (by omega), List.range_succ_eq_map, List.flatMap_cons, List.flatMap_map]
    simp only [Nat.add_zero, Nat.succ_eq_add_one, Nat.add_assoc, Nat.add_comm 1]

theorem map_uopNttB {l : Nat} (hl : 1 ≤ l) : (List.range (l * 2 ^ (l - 1))).map (uopNttB l) = loopNttB l := by
  calc (List.range (l * 2 ^ (l - 1))).map (uopNttB l)
      = (List.range (l * 2 ^ (l - 1))).map fun k => forwardB l (k / 2 ^ (l - 1)) (k % 2 ^ (l - 1)) :=
        List.map_congr_left fun k hk => uopNttB_eq hl (List.mem_range.mp hk)
    _ = (List.range l).flatMap fun d => (List.range (2 ^ (l - 1))).map (forwardB l d) := map_range_mul _ _ _
    _ = loopNttB l := by simpa [loopNttB] using (forwardLoopB_eq l 0 (Nat.zero_add l)).symm

/-- The outer loop of R181 with `e` layers done and `k` left. -/
theorem inverseLoopB_eq {l : Nat} (k e : Nat) (h : e + k = l) :
    inverseLoopB k e (2 ^ e) (2 ^ k) =
      (List.range k).flatMap fun d => (List.range (2 ^ (l - 1))).map (inverseB l (e + d)) := by
  induction k generalizing e with
  | zero => rfl
  | succ k ih =>
    have hk : l - 1 - e = k := by omega
    have hlayer := map_range_mul (2 ^ k) (2 ^ e) fun i o => MicroB.bfgs (2 * 2 ^ e * i + o) e (2 * 2 ^ k - 1 - i)
    have hfirst : inverseLayerB (2 ^ k) (2 ^ e) e = (List.range (2 ^ (l - 1))).map (inverseB l e) := by
      rw [← two_pow_layer (show e < l by omega), hk, Nat.mul_comm]
      refine Eq.trans ?_ (hlayer.symm.trans ?_)
      · rw [inverseLayerB]
        exact List.flatMap_congr fun i _ => List.map_congr_left fun o _ => by rw [Nat.mul_assoc, Nat.mul_comm i]
      · exact List.map_congr_left fun p _ => by rw [inverseB, hk]
    rw [inverseLoopB, Nat.pow_succ', Nat.mul_div_cancel_left _ Nat.two_pos, hfirst, ← Nat.pow_succ',
      ih (e + 1) (by omega), List.range_succ_eq_map, List.flatMap_cons, List.flatMap_map]
    simp only [Nat.add_zero, Nat.succ_eq_add_one, Nat.add_assoc, Nat.add_comm 1]

theorem map_uopInttB {l : Nat} (hl : 1 ≤ l) :
    (List.range (l * 2 ^ (l - 1) + 2 ^ l)).map (uopInttB l) = loopInttB l := by
  have hbutterflies : (List.range (l * 2 ^ (l - 1))).map (uopInttB l) = inverseLoopB l 0 1 (2 ^ l) :=
    calc (List.range (l * 2 ^ (l - 1))).map (uopInttB l)
        = (List.range (l * 2 ^ (l - 1))).map fun k => inverseB l (k / 2 ^ (l - 1)) (k % 2 ^ (l - 1)) :=
          List.map_congr_left fun k hk => uopInttB_eq hl (List.mem_range.mp hk)
      _ = (List.range l).flatMap fun d => (List.range (2 ^ (l - 1))).map (inverseB l d) := map_range_mul _ _ _
      _ = inverseLoopB l 0 1 (2 ^ l) := by simpa using (inverseLoopB_eq l 0 (Nat.zero_add l)).symm
  have hscalings : (List.range (2 ^ l)).map (fun x => uopInttB l (l * 2 ^ (l - 1) + x)) =
      (List.range (2 ^ l)).map fun j => .nscale j l :=
    List.map_congr_left fun j _ => by rw [uopInttB_scale hl (Nat.le_add_right _ _), Nat.add_sub_cancel_left]
  rw [map_range_add, hbutterflies, hscalings, loopInttB]

/-! ### Whole runs -/

theorem microA_undefA (m : MicroA) (s : State) : (microA m s).undefA = s.undefA := by
  obtain ⟨_, _, h⟩ := microA_frame m s
  rw [h]

theorem microB_undefB (m : MicroB) (s : State) : (microB m s).undefB = s.undefB := by
  obtain ⟨_, _, h⟩ := microB_frame m s
  rw [h]

theorem runMicroA_runState (ms : List MicroA) (e : Engine 11) (s : State) :
    runMicroA ms { s with a := e } = { runMicroA ms s with a := e } := by
  induction ms generalizing s with
  | nil => rfl
  | cons m ms ih =>
    simp only [runMicroA, List.foldl_cons] at ih ⊢
    rw [microA_runState, ih]

theorem runMicroB_runState (ms : List MicroB) (e : Engine 13) (s : State) :
    runMicroB ms { s with b := e } = { runMicroB ms s with b := e } := by
  induction ms generalizing s with
  | nil => rfl
  | cons m ms ih =>
    simp only [runMicroB, List.foldl_cons] at ih ⊢
    rw [microB_runState, ih]

theorem execTimes_succ {i : Instr} {s t : State} (h : exec i s = .next t) (k : Nat) :
    execTimes i (k + 1) s = execTimes i k t := by
  rw [execTimes, h]

/-- A running ENG_A command with `r` steps left performs the rest of its schedule and completes. -/
theorem execTimes_schedule_a {j : Instr} {n : Nat} {uop : Nat → MicroA} (hj : ∀ k, StepsAsA j n k (uop k))
    (hn : n ≤ 2048) (r k : Nat) (s : State) (hs : RunningA k s) (hr : k + (r + 1) = n) :
    execTimes j (r + 1) s =
      .next { runMicroA ((List.range (r + 1)).map fun x => uop (k + x)) s with a := finishedA s } := by
  induction r generalizing k s with
  | zero =>
    rw [execTimes_succ (exec_schedule_a (hj k) hs), advancedA, if_pos hr]
    rfl
  | succ r ih =>
    have hmore : advancedA k n s = { s.a with seq := BitVec.ofNat 11 (k + 1) } := if_neg (by omega)
    have hnext : RunningA (k + 1) { microA (uop k) s with a := advancedA k n s } := by
      rw [hmore]
      exact ⟨hs.busy, (microA_undefA _ s).trans hs.defined, by simp only [BitVec.toNat_ofNat]; omega⟩
    have hfin : finishedA { microA (uop k) s with a := advancedA k n s } = finishedA s := by rw [hmore]; rfl
    rw [execTimes_succ (exec_schedule_a (hj k) hs), ih (k + 1) _ hnext (by omega), hfin, runMicroA_runState,
      List.range_succ_eq_map (n := r + 1), List.map_cons, List.map_map]
    simp only [runMicroA, List.foldl_cons, Nat.add_zero, Function.comp_def, Nat.succ_eq_add_one, Nat.add_assoc,
      Nat.add_comm 1]

/-- A running ENG_B command with `r` steps left performs the rest of its schedule and completes. -/
theorem execTimes_schedule_b {j : Instr} {n : Nat} {uop : Nat → MicroB} (hj : ∀ k, StepsAsB j n k (uop k))
    (hn : n ≤ 8192) (r k : Nat) (s : State) (hs : RunningB k s) (hr : k + (r + 1) = n) :
    execTimes j (r + 1) s =
      .next { runMicroB ((List.range (r + 1)).map fun x => uop (k + x)) s with b := finishedB s } := by
  induction r generalizing k s with
  | zero =>
    rw [execTimes_succ (exec_schedule_b (hj k) hs), advancedB, if_pos hr]
    rfl
  | succ r ih =>
    have hmore : advancedB k n s = { s.b with seq := BitVec.ofNat 13 (k + 1) } := if_neg (by omega)
    have hnext : RunningB (k + 1) { microB (uop k) s with b := advancedB k n s } := by
      rw [hmore]
      exact ⟨hs.busy, (microB_undefB _ s).trans hs.defined, by simp only [BitVec.toNat_ofNat]; omega⟩
    have hfin : finishedB { microB (uop k) s with b := advancedB k n s } = finishedB s := by rw [hmore]; rfl
    rw [execTimes_succ (exec_schedule_b (hj k) hs), ih (k + 1) _ hnext (by omega), hfin, runMicroB_runState,
      List.range_succ_eq_map (n := r + 1), List.map_cons, List.map_map]
    simp only [runMicroB, List.foldl_cons, Nat.add_zero, Function.comp_def, Nat.succ_eq_add_one, Nat.add_assoc,
      Nat.add_comm 1]

/-- A whole run of an ENG_A command from its acceptance. -/
theorem execTimes_run_a {j : Instr} {n : Nat} {uop : Nat → MicroA} (hj : ∀ k, StepsAsA j n k (uop k)) (hpos : 0 < n)
    (hn : n ≤ 2048) {s : State} (hs : RunningA 0 s) :
    execTimes j n s = .next { runMicroA ((List.range n).map uop) s with a := finishedA s } := by
  obtain ⟨r, rfl⟩ := Nat.exists_eq_add_of_le' hpos
  simpa only [Nat.zero_add] using execTimes_schedule_a hj hn r 0 s hs (Nat.zero_add _)

/-- A whole run of an ENG_B command from its acceptance. -/
theorem execTimes_run_b {j : Instr} {n : Nat} {uop : Nat → MicroB} (hj : ∀ k, StepsAsB j n k (uop k)) (hpos : 0 < n)
    (hn : n ≤ 8192) {s : State} (hs : RunningB 0 s) :
    execTimes j n s = .next { runMicroB ((List.range n).map uop) s with b := finishedB s } := by
  obtain ⟨r, rfl⟩ := Nat.exists_eq_add_of_le' hpos
  simpa only [Nat.zero_add] using execTimes_schedule_b hj hn r 0 s hs (Nat.zero_add _)

/-- Settles O34: the schedule of each command enumerates its loop nest. -/
theorem ringAMacrosRunTheirLoopNests : Obligations.RingAMacrosRunTheirLoopNests := by
  intro s hs
  refine ⟨?_, ?_, ?_⟩
  · rw [execTimes_run_a nttA_stepsAs (by decide) (by decide) hs, map_uopNttA]
  · rw [execTimes_run_a inttAMont_stepsAs (by decide) (by decide) hs, map_uopInttAMont]
  · rw [execTimes_run_a inttA_stepsAs (by decide) (by decide) hs, map_uopInttA]

/-- The step counts of the Ring-B transforms of legal size fit the schedule counter (R182). -/
theorem steps_transformB_le {l : Nat} (h10 : l ≤ 10) : l * 2 ^ (l - 1) + 2 ^ l ≤ 8192 := by
  have hhalf : 2 ^ (l - 1) ≤ 2 ^ 9 := Nat.pow_le_pow_right (by decide) (by omega)
  have hsize : 2 ^ l ≤ 2 ^ 10 := Nat.pow_le_pow_right (by decide) h10
  have hlayers : l * 2 ^ (l - 1) ≤ 10 * 2 ^ 9 := Nat.mul_le_mul h10 hhalf
  omega

theorem stepsNttB_eq {l : Nat} (hl : 1 ≤ l) : stepsNttB l = l * 2 ^ (l - 1) := by
  rw [stepsNttB, two_pow_half hl]

theorem stepsInttB_eq {l : Nat} (hl : 1 ≤ l) : stepsInttB l = l * 2 ^ (l - 1) + 2 ^ l := by
  rw [stepsInttB, two_pow_half hl]

/-- Settles O35: the schedule of each command enumerates its loop nest. -/
theorem ringBMacrosRunTheirLoopNests : Obligations.RingBMacrosRunTheirLoopNests := by
  rintro logn s n m h1 h10 rfl rfl hs
  have hle := steps_transformB_le h10
  have hpos : 0 < logn.toNat * 2 ^ (logn.toNat - 1) := Nat.mul_pos h1 (Nat.two_pow_pos _)
  refine ⟨?_, ?_⟩
  · rw [execTimes_run_b (stepsNttB_eq h1 ▸ nttB_stepsAs h1 h10) hpos ((Nat.le_add_right _ _).trans hle) hs, map_uopNttB h1]
  · rw [execTimes_run_b (stepsInttB_eq h1 ▸ inttB_stepsAs h1 h10) (Nat.add_pos_left hpos _) hle hs, map_uopInttB h1]

end Sys2Proof.Machine

/-! Running commands complete: every turn of a busy unit is one engine step of its command, so the turns that are left of the
step count are exactly those it needs (10_state.md R40, 70_reset_and_hazards.md R262). -/

namespace Sys2Proof.Machine

/-! ### Step counts fit the schedule counters -/

theorem stepCount_a_le {i : Instr} {n : Nat} (hu : unitOf i = .a) (h : stepCount i = some n) : n ≤ 2 ^ 11 := by
  cases i with
  | nopA | nttA | inttAMont | inttA | bfctA | bfgsA | fscaleA | redcA | freezeA => cases h; decide
  | _ => cases hu

theorem stepCount_b_le {i : Instr} {n : Nat} (hu : unitOf i = .b) (h : stepCount i = some n) : n ≤ 2 ^ 13 := by
  cases i with
  | nopB | bfctB | bfgsB | nscaleB => cases h; decide
  | nttB logn =>
    obtain ⟨hl, hn⟩ := Option.ite_none_right_eq_some.mp h
    obtain ⟨h1, h10⟩ := (legalLogn_iff _).mp hl
    cases hn
    exact stepsNttB_eq h1 ▸ (Nat.le_add_right _ _).trans (steps_transformB_le h10)
  | inttB logn =>
    obtain ⟨hl, hn⟩ := Option.ite_none_right_eq_some.mp h
    obtain ⟨h1, h10⟩ := (legalLogn_iff _).mp hl
    cases hn
    exact stepsInttB_eq h1 ▸ steps_transformB_le h10
  | _ => cases hu

/-! ### Runs of the machine -/

theorem run_succ {s t : State} (h : step s = .next t) (k : Nat) : core.run (k + 1) s = core.run k t := by
  have hcore : core.step s = .next t := h
  simp only [Host.Core.run, hcore]

theorem run_add {j : Nat} {s t : State} (h : core.run j s = .next t) (k : Nat) : core.run (j + k) s = core.run k t := by
  induction j generalizing s with
  | zero =>
    cases h
    rw [Nat.zero_add]
  | succ j ih =>
    cases hstep : step s with
    | next u =>
      rw [run_succ hstep] at h
      rw [Nat.add_right_comm, run_succ hstep, ih h]
    | fault r =>
      have hcore : core.step s = .fault r := hstep
      simp only [Host.Core.run, hcore] at h
      cases h
    | refused r =>
      have hcore : core.step s = .refused r := hstep
      simp only [Host.Core.run, hcore] at h
      cases h

/-! ### The turns of a busy unit -/

/-- A counter below its last value counts up without wrapping. -/
theorem toNat_add_one_of_lt {w : Nat} {v : BitVec w} (h : v.toNat + 1 < 2 ^ w) : (v + 1).toNat = v.toNat + 1 := by
  have hone : (1 : BitVec w).toNat = 1 := by
    rw [BitVec.ofNat_eq_ofNat, BitVec.toNat_ofNat, Nat.mod_eq_of_lt ((Nat.le_add_left 1 _).trans_lt h)]
  rw [BitVec.toNat_add_of_lt (by rwa [hone]), hone]

/-- Each turn of unit X, whose run state is `e`, while it runs command `i` of `n` steps, is an advance, and leaves the other
unit, whose run state is `o`, as it is. -/
def AdvancesBy (x : Eng) (i : Instr) (n : Nat) {w v : Nat} (e : State → Engine w) (o : State → Engine v) : Prop :=
  ∀ (s : State) (turns : List Turn), s.sched = unitTurn x :: turns → (e s).busy = true → decode (e s).cur = .ok i →
    ∃ t cur seq, step s = .next t ∧ e t = (e s).advance n ((e s).complete cur seq) ∧ o t = o s ∧ t.sched = turns

theorem advancesBy_a {i : Instr} {n : Nat} (hu : unitOf i = .a) (hn : stepCount i = some n) :
    AdvancesBy .a i n State.a State.b := by
  intro s turns hs hb hd
  obtain ⟨n', buf, k, hn', ht⟩ := runStep_a_frame hu { s with sched := turns }
  cases hn.symm.trans hn'
  have hturn := engineTurn_busy (x := .a) (s := { s with sched := turns }) hb hd hu
  rw [ht] at hturn
  exact ⟨_, _, _, (step_cons hs).trans hturn, rfl, rfl, rfl⟩

theorem advancesBy_b {i : Instr} {n : Nat} (hu : unitOf i = .b) (hn : stepCount i = some n) :
    AdvancesBy .b i n State.b State.a := by
  intro s turns hs hb hd
  have hturn := engineTurn_busy (x := .b) (s := { s with sched := turns }) hb hd hu
  rcases runStep_b_frame hu { s with sched := turns } with ⟨n', buf, k, hn', ht⟩ | ⟨hnone, -⟩
  · cases hn.symm.trans hn'
    rw [ht] at hturn
    exact ⟨_, _, _, (step_cons hs).trans hturn, rfl, rfl, rfl⟩
  · cases hn.symm.trans hnone

section Advance
variable {x : Eng} {i : Instr} {n w v : Nat} {e : State → Engine w} {o : State → Engine v}

/-- Turns that do not reach the step count: only the counter of the unit has moved. -/
theorem AdvancesBy.run_busy (h : AdvancesBy x i n e o) (hn : n ≤ 2 ^ w) (k : Nat) {s : State} {turns : List Turn}
    (hb : (e s).busy = true) (hd : decode (e s).cur = .ok i) (hk : (e s).seq.toNat + k < n)
    (hs : s.sched = List.replicate k (unitTurn x) ++ turns) :
    ∃ t : State, core.run k s = .next t ∧ e t = { e s with seq := (e t).seq } ∧ (e t).seq.toNat = (e s).seq.toNat + k ∧
      o t = o s ∧ t.sched = turns := by
  induction k generalizing s with
  | zero => exact ⟨s, rfl, rfl, rfl, rfl, hs⟩
  | succ k ih =>
    obtain ⟨t, cur, seq, hstep, he, ho, hsched⟩ := h s _ hs hb hd
    rw [(e s).advance_more _ (by omega)] at he
    have hseq : (e t).seq.toNat = (e s).seq.toNat + 1 := by
      rw [he]
      exact toNat_add_one_of_lt (by omega)
    obtain ⟨u, hrun, heu, hsequ, hou, hschedu⟩ :=
      ih (s := t) (by rw [he]; exact hb) (by rw [he]; exact hd) (by omega) hsched
    refine ⟨u, (run_succ hstep k).trans hrun, ?_, by omega, hou.trans ho, hschedu⟩
    rw [heu, he]

/-- A running command of `n` steps is busy until its last turn, and idle after it. -/
theorem AdvancesBy.completes (h : AdvancesBy x i n e o) (hn : n ≤ 2 ^ w) {s : State} {turns : List Turn} {m : Nat}
    (hlegal : (e s).LegalAs x) (hb : (e s).busy = true) (hd : decode (e s).cur = .ok i) (hcount : stepCount i = some n)
    (hm : m = n - (e s).seq.toNat) (hs : s.sched = List.replicate m (unitTurn x) ++ turns) :
    (∀ k, k < m → ∃ t : State, core.run k s = .next t ∧ (e t).busy = true ∧ (e t).done = false ∧ (e t).cur = (e s).cur ∧
      (e t).seq.toNat = (e s).seq.toNat + k) ∧
    ∃ t : State, core.run m s = .next t ∧ (e t).busy = false ∧ (e t).done = true ∧ o t = o s ∧ t.sched = turns := by
  have hlt : (e s).seq.toNat < n := hlegal.seq_lt hb hd hcount
  refine ⟨fun k hk => ?_, ?_⟩
  · have hsplit : s.sched = List.replicate k (unitTurn x) ++ (List.replicate (m - k) (unitTurn x) ++ turns) := by
      rw [hs, ← List.append_assoc, List.replicate_append_replicate, Nat.add_sub_cancel' hk.le]
    obtain ⟨t, hrun, he, hseq, -, -⟩ := h.run_busy hn k hb hd (by omega) hsplit
    exact ⟨t, hrun, by rw [he]; exact hb, by rw [he]; exact hlegal.flags.done hb, by rw [he], hseq⟩
  · obtain ⟨k, rfl⟩ : ∃ k, m = k + 1 := Nat.exists_eq_add_of_le' (by omega)
    have hsplit : s.sched = List.replicate k (unitTurn x) ++ (unitTurn x :: turns) := by
      rw [hs, List.replicate_succ', List.append_assoc, List.singleton_append]
    obtain ⟨t, hrun, he, hseq, ho, hsched⟩ := h.run_busy hn k hb hd (by omega) hsplit
    obtain ⟨u, cur, seq, hstep, heu, hou, hschedu⟩ :=
      h t turns hsched (by rw [he]; exact hb) (by rw [he]; exact hd)
    rw [(e t).advance_last _ (by omega)] at heu
    exact ⟨u, (run_add hrun 1).trans (run_succ hstep 0), by rw [heu]; rfl, by rw [heu]; rfl, hou.trans ho, hschedu⟩

end Advance

/-- Settles O59: a legal state's busy unit runs a command of its own, each of its turns is an advance, and the counter does
not wrap. -/
theorem runningCommandsComplete : Obligations.RunningCommandsComplete := by
  intro s i n m turns hs
  obtain ⟨ha, hb, -, -⟩ := s.legal_iff.mp hs
  refine ⟨fun hbusy hd hn hm hsched => ?_, fun hbusy hd hn hm hsched => ?_⟩
  · obtain ⟨j, hj, hu, -⟩ := ha.run hbusy
    cases hd.symm.trans hj
    exact (advancesBy_a hu hn).completes (stepCount_a_le hu hn) ha hbusy hd hn hm hsched
  · obtain ⟨j, hj, hu, -⟩ := hb.run hbusy
    cases hd.symm.trans hj
    exact (advancesBy_b hu hn).completes (stepCount_b_le hu hn) hb hbusy hd hn hm hsched

end Sys2Proof.Machine

/-! The host window: what a legal read returns and a legal write does at every location, what a malformed transaction does, and
what a write into a busy unit's buffer leaves behind (20_memory.md R63, R64, R66, R73, 93_implementation_defined.md U3). -/

namespace Sys2Proof.Machine

/-! ### Malformed transactions -/

section Malformed
variable {off size : Nat} (s : State)

theorem transact_read_malformed (hw : off < WINDOW_SIZE) (hm : ¬ LegalAccess off size) :
    transact (.read off size) s = .next { s with reply := some .error } := by
  simp only [transact, if_neg (Nat.not_le.mpr hw), if_neg hm]

theorem transact_write_malformed (v : Word) (hw : off < WINDOW_SIZE) (hm : ¬ LegalAccess off size) :
    transact (.write off size v) s = .next { s with reply := some .error } := by
  simp only [transact, if_neg (Nat.not_le.mpr hw), if_neg hm]

end Malformed

/-- Settles O49: such a transaction lies in the window and is no legal access. -/
theorem malformedTransactionsAreBusErrors : Obligations.MalformedTransactionsAreBusErrors := by
  intro s off size v hw hm
  have hmalformed : ¬ LegalAccess off size := fun ⟨hsize, halign⟩ => hm.elim (· hsize) (· halign)
  exact ⟨transact_read_malformed s hw hmalformed, transact_write_malformed s v hw hmalformed⟩

/-! ### Reads -/

section Reads
variable {off i : Nat} (s : State)

/-- A legal read in the window (R63, R66). -/
theorem transact_read (hw : off < 0x4000) (ha : off % 4 = 0) :
    transact (.read off 4) s = .next (s.readWindow off) := by
  simp only [transact, if_neg (Nat.not_le.mpr (show off < WINDOW_SIZE from hw)),
    if_pos (show LegalAccess off 4 from ⟨rfl, ha⟩)]

/-- Byte offset `base + 4·i` is that of entry `i`. -/
theorem entry_index (base i : Nat) : (base + 4 * i - base) / 4 = i := by omega

/-- A read from a busy unit's buffer (R73, U3). -/
theorem readWindow_busy (h : s.InBusyBuffer off) :
    s.readWindow off = { s with reply := some (.data (Config.freeRead s.draws)), draws := s.draws + 1 } := if_pos h

/-- A read outside the two buffers. -/
theorem readWindow_outside (hA : ¬ InBufA off) (hB : ¬ InBufB off) :
    s.readWindow off = { s with reply := some (.data (s.peek off)) } := by
  simp only [State.readWindow, State.InBusyBuffer, hA, hB, false_and, or_self, if_false]

/-- A read of an entry of BUF_A while ENG_A is idle. -/
theorem readWindow_bufA (hi : i < 256) (hb : s.a.busy = false) :
    s.readWindow (0x1000 + 4 * i) =
      if i ∈ s.undefA then { s with reply := some (.data (Config.freeA s.draws)), draws := s.draws + 1 }
      else { s with reply := some (.data (s.entryA i)) } := by
  have hA : InBufA (0x1000 + 4 * i) := ⟨by omega, by omega⟩
  have hB : ¬ InBufB (0x1000 + 4 * i) := fun h => by omega
  have hpeek : s.peek (0x1000 + 4 * i) = s.entryA i := by
    rw [State.peek, if_neg (by unfold offStatus; omega), if_pos hA, entry_index]
  have hidle : ¬ s.InBusyBuffer (0x1000 + 4 * i) :=
    fun h => h.elim (fun h => Bool.noConfusion (hb.symm.trans h.2)) (fun h => hB h.1)
  rw [State.readWindow, if_neg hidle, entry_index]
  by_cases hu : i ∈ s.undefA
  · rw [if_pos ⟨hA, hu⟩, if_pos hu]
  · rw [if_neg (fun h => hu h.2), if_neg (fun h => hB h.1), if_neg hu, hpeek]

/-- A read of an entry of BUF_B while ENG_B is idle. -/
theorem readWindow_bufB (hi : i < 1024) (hb : s.b.busy = false) :
    s.readWindow (0x2000 + 4 * i) =
      if i ∈ s.undefB then
        { s with reply := some (.data ((Config.freeB s.draws).setWidth 32)), draws := s.draws + 1 }
      else { s with reply := some (.data ((s.entryB i).setWidth 32)) } := by
  have hA : ¬ InBufA (0x2000 + 4 * i) := fun h => by omega
  have hB : InBufB (0x2000 + 4 * i) := ⟨by omega, by omega⟩
  have hpeek : s.peek (0x2000 + 4 * i) = (s.entryB i).setWidth 32 := by
    rw [State.peek, if_neg (by unfold offStatus; omega), if_neg hA, if_neg (fun h : InZetaA _ => by omega), if_pos hB,
      entry_index]
  have hidle : ¬ s.InBusyBuffer (0x2000 + 4 * i) :=
    fun h => h.elim (fun h => hA h.1) (fun h => Bool.noConfusion (hb.symm.trans h.2))
  rw [State.readWindow, if_neg hidle, if_neg (fun h => hA h.1), entry_index]
  by_cases hu : i ∈ s.undefB
  · rw [if_pos ⟨hB, hu⟩, if_pos hu]
  · rw [if_neg (fun h => hu h.2), if_neg hu, hpeek]

/-- The window of ZETA_A holds the ROM (R35). -/
theorem peek_zetaA {k : Nat} (hk : k < 256) : s.peek (0x1400 + 4 * k) = int32 (zetaA k) := by
  rw [State.peek, if_neg (by unfold offStatus; omega), if_neg (fun h : InBufA _ => by omega),
    if_pos (show InZetaA _ from ⟨by omega, by omega⟩), entry_index]

/-- The window of W_B holds the ROM (R35). -/
theorem peek_wB {x : Nat} (hx : x < 1024) : s.peek (0x3000 + 4 * x) = BitVec.ofNat 32 (wB x) := by
  rw [State.peek, if_neg (by unfold offStatus; omega), if_neg (fun h : InBufA _ => by omega),
    if_neg (fun h : InZetaA _ => by omega), if_neg (fun h : InBufB _ => by omega),
    if_pos (show InWB _ from ⟨by omega, by omega⟩), entry_index]

/-- Outside the buffers and ROMs, but for STATUS, a location holds what `constantRegister` says. -/
theorem peek_constant (hs : off ≠ 0x0008) (h : off < 0x1000 ∨ (0x1800 ≤ off ∧ off < 0x2000)) :
    s.peek off = constantRegister off := by
  rw [State.peek, if_neg (show off ≠ offStatus from hs), if_neg (fun h : InBufA _ => by omega),
    if_neg (fun h : InZetaA _ => by omega), if_neg (fun h : InBufB _ => by omega), if_neg (fun h : InWB _ => by omega)]

/-- The reserved offsets (R36). -/
theorem constantRegister_reserved
    (h : off = 0x000C ∨ off = 0x0028 ∨ off = 0x002C ∨ (0x003C ≤ off ∧ off < 0x1000) ∨ (0x1800 ≤ off ∧ off < 0x2000)) :
    constantRegister off = 0 := by
  unfold constantRegister
  iterate 10 rw [if_neg (by omega)]

/-- A legal read outside the two buffers returns what the location holds. -/
theorem transact_read_outside (hw : off < 0x4000) (ha : off % 4 = 0) (hA : ¬ InBufA off) (hB : ¬ InBufB off) :
    transact (.read off 4) s = .next { s with reply := some (.data (s.peek off)) } := by
  rw [transact_read s hw ha, readWindow_outside s hA hB]

/-- A read of the registers below the buffers, STATUS apart. -/
theorem transact_read_register (ha : off % 4 = 0) (hs : off ≠ 0x0008)
    (h : off < 0x1000 ∨ (0x1800 ≤ off ∧ off < 0x2000)) :
    transact (.read off 4) s = .next { s with reply := some (.data (constantRegister off)) } := by
  rw [transact_read_outside s (by omega) ha (fun h => by omega) (fun h => by omega),
    peek_constant s hs h]

end Reads

/-- Settles O46, location by location. -/
theorem windowReads : Obligations.WindowReads := by
  intro s
  refine ⟨fun c hc => ?_, fun i hi hb hu => ?_, fun k hk => ?_, fun i hi hb hu => ?_, fun x hx => ?_, fun off ha h => ?_,
    fun i hi hb => ?_, fun i hi hb => ?_, fun i hi hb hu => ?_, fun i hi hb hu => ?_⟩
  · simp only [List.mem_cons, List.not_mem_nil, or_false] at hc
    rcases hc with rfl | rfl | rfl | hc
    · exact transact_read_register s (by decide) (by decide) (by decide)
    · exact transact_read_register s (by decide) (by decide) (by decide)
    · exact transact_read_outside (off := 0x0008) s (by decide) (by decide) (by decide) (by decide)
    · rcases hc with rfl | rfl | rfl | rfl | rfl | rfl | rfl | rfl | rfl <;>
        exact transact_read_register s (by decide) (by decide) (by decide)
  · rw [transact_read s (by omega) (by omega), readWindow_bufA s hi hb, if_neg hu]
  · rw [transact_read_outside s (by omega) (by omega) (fun h => by omega) (fun h => by omega), peek_zetaA s hk]
  · rw [transact_read s (by omega) (by omega), readWindow_bufB s hi hb, if_neg hu]
  · rw [transact_read_outside s (by omega) (by omega) (fun h => by omega) (fun h => by omega), peek_wB s hx]
  · rw [transact_read_register s ha (by omega) (by omega), constantRegister_reserved h]
  · rw [transact_read s (by omega) (by omega), readWindow_busy s (.inl ⟨⟨by omega, by omega⟩, hb⟩)]
  · rw [transact_read s (by omega) (by omega), readWindow_busy s (.inr ⟨⟨by omega, by omega⟩, hb⟩)]
  · rw [transact_read s (by omega) (by omega), readWindow_bufA s hi hb, if_pos hu]
  · rw [transact_read s (by omega) (by omega), readWindow_bufB s hi hb, if_pos hu]

/-! ### Writes -/

section Writes
variable {off i : Nat} (v : Word) (s : State)

theorem poke_bufA (hi : i < 256) : s.poke (0x1000 + 4 * i) v = s.hostWriteA i v := by
  rw [State.poke, if_neg (by unfold offStatus; omega), if_pos (show InBufA _ from ⟨by omega, by omega⟩), entry_index]

theorem poke_bufB (hi : i < 1024) : s.poke (0x2000 + 4 * i) v = s.hostWriteB i v := by
  rw [State.poke, if_neg (by unfold offStatus; omega), if_neg (fun h : InBufA _ => by omega),
    if_pos (show InBufB _ from ⟨by omega, by omega⟩), entry_index]

/-- Constants, ROMs and reserved offsets ignore a write (R64). -/
theorem poke_ignored (hs : off ≠ 0x0008) (hA : ¬ InBufA off) (hB : ¬ InBufB off) : s.poke off v = s := by
  rw [State.poke, if_neg (show off ≠ offStatus from hs), if_neg hA, if_neg hB]

theorem transact_write_bufA (hi : i < 256) :
    transact (.write (0x1000 + 4 * i) 4 v) s = .next (State.hostWriteA i v { s with reply := some .written }) := by
  rw [transact_write v s (by unfold WINDOW_SIZE; omega) (by omega) (by unfold offCmd; omega), poke_bufA v _ hi]

theorem transact_write_bufB (hi : i < 1024) :
    transact (.write (0x2000 + 4 * i) 4 v) s = .next (State.hostWriteB i v { s with reply := some .written }) := by
  rw [transact_write v s (by unfold WINDOW_SIZE; omega) (by omega) (by unfold offCmd; omega), poke_bufB v _ hi]

/-- A write into an idle unit's buffer writes one entry, which is then defined (R64, R73). -/
theorem hostWriteA_idle (i : Nat) (hb : s.a.busy = false) :
    s.hostWriteA i v = { s.putA i v with undefA := s.undefA.filter (· != i) } := by
  rw [State.hostWriteA, hb]
  rfl

theorem hostWriteB_idle (i : Nat) (hb : s.b.busy = false) :
    s.hostWriteB i v = { s.putB i (v.setWidth 16) with undefB := s.undefB.filter (· != i) } := by
  rw [State.hostWriteB, hb]
  rfl

/-- A write into a busy unit's buffer makes the whole buffer undefined (R73, U3). -/
theorem hostWriteA_busy (i : Nat) (hb : s.a.busy = true) :
    s.hostWriteA i v = { s.scrambleA with undefA := indices 256 } := if_pos hb

theorem hostWriteB_busy (i : Nat) (hb : s.b.busy = true) :
    s.hostWriteB i v = { s.scrambleB with undefB := indices 1024 } := if_pos hb

end Writes

/-- Settles O47, location by location. -/
theorem windowWrites : Obligations.WindowWrites := by
  intro s v
  refine ⟨transact_cmd v s, transact_write v s (by decide) (by decide) (by decide), fun i hi hb => ?_, fun i hi hb => ?_,
    fun off ha h => ?_⟩
  · refine ⟨_, (transact_write_bufA v s hi).trans (congrArg _ (hostWriteA_idle v _ i hb)), ?_, fun n hn => ?_, rfl⟩
    · exact congrArg BitVec.toInt (entryA_putA_same _ hi v)
    · exact entryA_putA_ne _ hn.symm v
  · refine ⟨_, (transact_write_bufB v s hi).trans (congrArg _ (hostWriteB_idle v _ i hb)), ?_, fun n hn => ?_, rfl⟩
    · exact (congrArg BitVec.toNat (entryB_putB_same _ hi _)).trans (BitVec.toNat_setWidth 16 v)
    · exact entryB_putB_ne _ hn.symm _
  · rw [transact_write v s (by unfold WINDOW_SIZE; omega) ha (by unfold offCmd; omega),
      poke_ignored v _ (by omega) (fun h => by omega) (fun h => by omega)]

/-! ### Engine steps and the marks of undefined entries -/

/-- Refreshing in full: its buffer, and 256 free values where an entry is undefined. -/
theorem refreshA_eq (s : State) :
    s.refreshA = { s with bufA := s.refreshA.bufA, draws := s.draws + if s.undefA = [] then 0 else 256 } := by
  by_cases h : s.undefA = []
  · rw [refreshA_defined s h, if_pos h, Nat.add_zero]
  · simp only [State.refreshA, if_neg h]

theorem refreshB_eq (s : State) :
    s.refreshB = { s with bufB := s.refreshB.bufB, draws := s.draws + if s.undefB = [] then 0 else 1024 } := by
  by_cases h : s.undefB = []
  · rw [refreshB_defined s h, if_pos h, Nat.add_zero]
  · simp only [State.refreshB, if_neg h]

/-- The engine step of a busy unit and the same step without marks, next to one another: the marks are kept, the marked
entries are drawn afresh (R73). -/
theorem exec_a_marks {i : Instr} (hu : unitOf i = .a) {s : State} (hb : s.a.busy = true) :
    ∃ q, exec i { s with undefA := [] } = .next q ∧ exec i s = .next { q with undefA := s.undefA }.refreshA := by
  have hbusy : s.busy (unitOf i) = true := hu ▸ hb
  have hbusy' : ({ s with undefA := [] } : State).busy (unitOf i) = true := hu ▸ hb
  refine ⟨_, exec_busy hbusy', ?_⟩
  have hmarks : { bareStep i { s with undefA := [] } with undefA := s.undefA } = bareStep i s := by
    rw [← bareStep_a_marks hu s.undefA { s with undefA := [] }]
  rw [exec_busy hbusy, runStep_a_eq hu, runStep_a_defined hu rfl, hmarks]

theorem exec_b_marks {i : Instr} (hu : unitOf i = .b) {s : State} (hb : s.b.busy = true) :
    ∃ q, exec i { s with undefB := [] } = .next q ∧ exec i s = .next { q with undefB := s.undefB }.refreshB := by
  have hbusy : s.busy (unitOf i) = true := hu ▸ hb
  have hbusy' : ({ s with undefB := [] } : State).busy (unitOf i) = true := hu ▸ hb
  refine ⟨_, exec_busy hbusy', ?_⟩
  have hmarks : { bareStep i { s with undefB := [] } with undefB := s.undefB } = bareStep i s := by
    rw [← bareStep_b_marks hu s.undefB { s with undefB := [] }]
  rw [exec_busy hbusy, runStep_b_eq hu, runStep_b_defined hu rfl, hmarks]

/-- An engine step keeps the marks of both buffers. -/
theorem runStep_undef (i : Instr) (s : State) :
    (runStep i s).undefA = s.undefA ∧ (runStep i s).undefB = s.undefB := by
  obtain ⟨hA, hB⟩ := bareStep_undef i s
  cases hu : unitOf i with
  | a => rw [runStep_a_eq hu, refreshA_undefA, refreshA_undefB]; exact ⟨hA, hB⟩
  | b => rw [runStep_b_eq hu, refreshB_undefA, refreshB_undefB]; exact ⟨hA, hB⟩

/-! ### What removes a mark -/

/-- `t` has the marks of `s`. -/
structure SameMarks (s t : State) : Prop where
  undefA : t.undefA = s.undefA
  undefB : t.undefB = s.undefB

section Marks
variable {s t : State} {n : Nat}

theorem engineTurn_sameMarks {x : Eng} (h : engineTurn x s = .next t) : SameMarks s t := by
  rcases engineTurn_next h with ⟨_, rfl⟩ | ⟨_, i, _, _, rfl⟩
  · exact ⟨rfl, rfl⟩
  · exact ⟨(runStep_undef i s).1, (runStep_undef i s).2⟩

theorem presentCommand_sameMarks {v : Word} (h : presentCommand v s = .next t) : SameMarks s t := by
  rcases presentCommand_cases v s with ⟨_, hp⟩ | ⟨_, e, _, hp⟩ | ⟨hb, i, hd, hp⟩ <;> rw [hp] at h
  · cases h
    exact ⟨raise_undefA _ _ _, raise_undefB _ _ _⟩
  · cases h
    exact ⟨raise_undefA _ _ _, raise_undefB _ _ _⟩
  · rw [presentCommand_idle hd hb] at h
    cases h
    rcases present_cases i s with ⟨_, _, ht⟩ | ⟨_, _, ht⟩ | ⟨_, ht⟩ <;> rw [ht]
    · exact ⟨rfl, rfl⟩
    · exact ⟨rfl, rfl⟩
    · exact ⟨raise_undefA _ _ _, raise_undefB _ _ _⟩

/-- A mark of BUF_A goes by no write but one to its entry with ENG_A idle. -/
theorem poke_unmarksA {off : Nat} {v : Word} (hn : n < 256) (ha : off % 4 = 0) (hm : n ∈ s.undefA)
    (hm' : n ∉ (s.poke off v).undefA) : s.a.busy = false ∧ off = 0x1000 + 4 * n := by
  rcases poke_cases off v s with ⟨_, ht⟩ | ⟨_, ht⟩ | ⟨_, ht⟩ | ⟨hb, hin, i, hi, ht⟩ | ⟨_, _, i, _, ht⟩ | ht <;>
    rw [ht] at hm'
  case inr.inl => exact absurd (mem_indices.mpr hn) hm'
  case inr.inr.inr.inl =>
    have hni : n = i := by simpa [hm] using hm'
    exact ⟨hb, by omega⟩
  all_goals exact absurd hm hm'

/-- A mark of BUF_B goes by no write but one to its entry with ENG_B idle. -/
theorem poke_unmarksB {off : Nat} {v : Word} (hn : n < 1024) (ha : off % 4 = 0) (hm : n ∈ s.undefB)
    (hm' : n ∉ (s.poke off v).undefB) : s.b.busy = false ∧ off = 0x2000 + 4 * n := by
  rcases poke_cases off v s with ⟨_, ht⟩ | ⟨_, ht⟩ | ⟨_, ht⟩ | ⟨_, _, i, _, ht⟩ | ⟨hb, hin, i, hi, ht⟩ | ht <;>
    rw [ht] at hm'
  case inr.inr.inl => exact absurd (mem_indices.mpr hn) hm'
  case inr.inr.inr.inr.inl =>
    have hni : n = i := by simpa [hm] using hm'
    exact ⟨hb, by omega⟩
  all_goals exact absurd hm hm'

/-- The marks after a transaction that is answered: as before, or those a legal write leaves. -/
theorem transact_marks {tx : Txn} (h : transact tx s = .next t) :
    SameMarks s t ∨
    ∃ off v, off % 4 = 0 ∧ tx = .write off 4 v ∧ t = State.poke off v { s with reply := some .written } := by
  rcases transact_next h with ⟨r, k, rfl⟩ | ⟨off, v, _, rfl, ht⟩ | ⟨v, rfl, hc⟩
  · exact .inl ⟨rfl, rfl⟩
  · by_cases ha : off % 4 = 0
    · exact .inr ⟨off, v, ha, rfl, ht⟩
    · have hw : off < WINDOW_SIZE := by
        by_contra hw
        rw [transact_outside (tx := .write off 4 v) hw] at h
        cases h
      rw [transact_write_malformed s v hw fun hl => ha hl.2] at h
      cases h
      exact .inl ⟨rfl, rfl⟩
  · obtain ⟨hA, hB⟩ := presentCommand_sameMarks hc
    exact .inl ⟨hA, hB⟩

/-- The marks after a step: as before, none after reset, or those a legal write of the host leaves. -/
theorem step_marks (h : step s = .next t) :
    SameMarks s t ∨ s.nextTurn = .reset ∨
    ∃ off v r, off % 4 = 0 ∧ s.HostWrites off v ∧ SameRun s r ∧ t = r.poke off v := by
  unfold step at h
  cases hturn : s.nextTurn with
  | reset => exact .inr (.inl rfl)
  | agent y =>
    rw [hturn] at h
    cases y with
    | engA =>
      obtain ⟨hA, hB⟩ := engineTurn_sameMarks h
      exact .inl ⟨hA, hB⟩
    | engB =>
      obtain ⟨hA, hB⟩ := engineTurn_sameMarks h
      exact .inl ⟨hA, hB⟩
    | host =>
      rcases hostTurn_next h with ⟨_, rfl⟩ | ⟨tx, rest, hp, ht⟩ | ⟨x, rest, _, rfl⟩
      · exact .inl ⟨rfl, rfl⟩
      · rcases transact_marks ht with ⟨hA, hB⟩ | ⟨off, v, ha, rfl, rfl⟩
        · exact .inl ⟨hA, hB⟩
        · exact .inr (.inr ⟨off, v, { s.takeTurn with port := rest, reply := some .written }, ha, ⟨hturn, rest, hp⟩,
            ⟨rfl, rfl, rfl, rfl⟩, rfl⟩)
      · exact .inl ⟨rfl, rfl⟩

/-- What removes a mark of BUF_A (R73). -/
theorem step_unmarksA (h : step s = .next t) (hn : n < 256) (hm : n ∈ s.undefA) (hm' : n ∉ t.undefA) :
    s.nextTurn = .reset ∨ (s.nextTurn = .agent .host ∧ s.a.busy = false ∧
      ∃ v ops, s.port = .txn (.write (0x1000 + 4 * n) 4 v) :: ops) := by
  rcases step_marks h with hsame | hreset | ⟨off, v, r, ha, ⟨hturn, ops, hp⟩, hrun, rfl⟩
  · exact absurd (hsame.undefA ▸ hm) hm'
  · exact .inl hreset
  · obtain ⟨hb, rfl⟩ := poke_unmarksA hn ha (hrun.undefA ▸ hm) hm'
    exact .inr ⟨hturn, hrun.a ▸ hb, v, ops, hp⟩

/-- What removes a mark of BUF_B (R73). -/
theorem step_unmarksB (h : step s = .next t) (hn : n < 1024) (hm : n ∈ s.undefB) (hm' : n ∉ t.undefB) :
    s.nextTurn = .reset ∨ (s.nextTurn = .agent .host ∧ s.b.busy = false ∧
      ∃ v ops, s.port = .txn (.write (0x2000 + 4 * n) 4 v) :: ops) := by
  rcases step_marks h with hsame | hreset | ⟨off, v, r, ha, ⟨hturn, ops, hp⟩, hrun, rfl⟩
  · exact absurd (hsame.undefB ▸ hm) hm'
  · exact .inl hreset
  · obtain ⟨hb, rfl⟩ := poke_unmarksB hn ha (hrun.undefB ▸ hm) hm'
    exact .inr ⟨hturn, hrun.b ▸ hb, v, ops, hp⟩

end Marks

/-- Settles O48: the write scrambles and marks, an engine step is the step without marks refreshed, and only a write to the
entry of an idle unit's buffer, or reset, removes a mark. -/
theorem busyBufferWriteMakesTheBufferUndefined : Obligations.BusyBufferWriteMakesTheBufferUndefined := by
  refine ⟨fun s v i n hi hn hb => ?_, fun s v i n hi hn hb => ?_, fun i s hu hb => ?_, fun i s hu hb => ?_,
    fun s t n h => ⟨step_unmarksA h, step_unmarksB h⟩⟩
  · exact ⟨_, (transact_write_bufA v s hi).trans (congrArg _ (hostWriteA_busy v _ i hb)), entryA_scrambleA _ hn,
      mem_indices.mpr hn, rfl⟩
  · exact ⟨_, (transact_write_bufB v s hi).trans (congrArg _ (hostWriteB_busy v _ i hb)), entryB_scrambleB _ hn,
      mem_indices.mpr hn, rfl⟩
  · obtain ⟨q, hq, hr⟩ := exec_a_marks hu hb
    exact ⟨q, _, hq, hr, fun n hn => entryA_refreshA _ hn, refreshA_eq _⟩
  · obtain ⟨q, hq, hr⟩ := exec_b_marks hu hb
    exact ⟨q, _, hq, hr, fun n hn => entryB_refreshB _ hn, refreshB_eq _⟩

end Sys2Proof.Machine

/-! Fairness: each round of the schedule is closed by a turn of a unit, and no agent touches the schedule, so every busy unit
gets the turns its command needs, and the host leaves its polling loop (20_memory.md R70, 70_reset_and_hazards.md R262,
93_implementation_defined.md U12). -/

namespace Sys2Proof.Machine

/-! ### The coming turns -/

/-- `s` with the next round begun where its list of turns is used up, so that the coming turns stand in the list. -/
def State.opened (s : State) : State :=
  { s with
    sched := s.turns
    turn := if s.sched.isEmpty then s.turn + 1 else s.turn }

section Opened
variable (s : State)

theorem scheduleRound_eq (n : Nat) :
    scheduleRound n = (Config.sched n).map Turn.agent ++ [.agent (closingUnit n)] := by
  rw [scheduleRound, List.map_append, List.map_singleton]

theorem turns_ne_nil : s.turns ≠ [] := by
  cases h : s.sched with
  | nil => simp [turns_nil s h, scheduleRound_eq]
  | cons t rest => simp [State.turns, h]

theorem opened_sched : s.opened.sched = s.nextTurn :: s.turns.tail := by
  obtain ⟨t, rest, h⟩ := List.exists_cons_of_ne_nil (turns_ne_nil s)
  simp [State.opened, State.nextTurn, h]

theorem nextTurn_opened : s.opened.nextTurn = s.nextTurn := nextTurn_cons _ (opened_sched s)

theorem takeTurn_opened : s.opened.takeTurn = s.takeTurn := takeTurn_cons _ (opened_sched s)

theorem step_opened : step s.opened = step s := by
  rw [step, nextTurn_opened, takeTurn_opened, step]

theorem afterTurns_succ_opened (k : Nat) : s.opened.afterTurns (k + 1) = s.afterTurns (k + 1) :=
  congrArg (State.afterTurns k) (takeTurn_opened s)

theorem nextTurn_afterTurns_opened (k : Nat) : (s.opened.afterTurns k).nextTurn = (s.afterTurns k).nextTurn := by
  cases k with
  | zero => exact nextTurn_opened s
  | succ k => rw [afterTurns_succ_opened]

end Opened

theorem afterTurns_add (j k : Nat) (s : State) : s.afterTurns (j + k) = (s.afterTurns j).afterTurns k := by
  induction j generalizing s with
  | zero => rw [Nat.zero_add]; rfl
  | succ j ih => rw [Nat.add_right_comm]; exact ih s.takeTurn

/-- As many turns as stand in a part of the list use that part up, and nothing else changes. -/
theorem afterTurns_append {s : State} {l rest : List Turn} (h : s.sched = l ++ rest) :
    s.afterTurns l.length = { s with sched := rest } := by
  induction l generalizing s with
  | nil => exact congrArg (fun turns => { s with sched := turns }) h
  | cons t l ih =>
    have htake : s.takeTurn = { s with sched := l ++ rest } := takeTurn_cons s h
    calc s.afterTurns (l.length + 1) = s.takeTurn.afterTurns l.length := rfl
      _ = { s.takeTurn with sched := rest } := ih (by rw [htake])
      _ = { s with sched := rest } := by rw [htake]

/-- The coming turns depend on the schedule alone. -/
theorem nextTurn_afterTurns_congr {s t : State} (hsched : t.sched = s.sched) (hturn : t.turn = s.turn) (k : Nat) :
    (t.afterTurns k).nextTurn = (s.afterTurns k).nextTurn := by
  have hturns : t.turns = s.turns := by rw [State.turns, State.turns, hsched, hturn]
  induction k generalizing s t with
  | zero => exact congrArg (List.headD · _) hturns
  | succ k ih =>
    have hsched' : t.takeTurn.sched = s.takeTurn.sched := congrArg List.tail hturns
    have hturn' : t.takeTurn.turn = s.takeTurn.turn := by simp only [State.takeTurn, hsched, hturn]
    exact ih hsched' hturn' (by rw [State.turns, State.turns, hsched', hturn'])

/-! ### Fairness -/

/-- From the start of a round its closing turn comes, and then the next round starts. -/
theorem round_closes {s : State} (h : s.sched = []) :
    ∃ k, (s.afterTurns k).nextTurn = .agent (closingUnit s.turn) ∧ (s.afterTurns (k + 1)).sched = [] ∧
      (s.afterTurns (k + 1)).turn = s.turn + 1 := by
  have hround : s.opened.sched = (Config.sched s.turn).map Turn.agent ++ [.agent (closingUnit s.turn)] :=
    (turns_nil s h).trans (scheduleRound_eq s.turn)
  have hend := afterTurns_append (s := s.opened) (rest := []) (hround.trans (List.append_nil _).symm)
  rw [List.length_append, List.length_singleton, afterTurns_succ_opened] at hend
  refine ⟨((Config.sched s.turn).map Turn.agent).length, ?_, by rw [hend], ?_⟩
  · rw [← nextTurn_afterTurns_opened, afterTurns_append hround]
    exact nextTurn_cons _ rfl
  · rw [hend]
    simp [State.opened, h]

/-- Of two rounds that follow one another, each unit closes one. -/
theorem closingUnit_alternates (x : Eng) (n : Nat) :
    Turn.agent (closingUnit n) = unitTurn x ∨ Turn.agent (closingUnit (n + 1)) = unitTurn x := by
  rcases Nat.mod_two_eq_zero_or_one n with h | h
  · have h' : (n + 1) % 2 = 1 := by omega
    cases x <;> simp [closingUnit, unitTurn, h, h']
  · have h' : (n + 1) % 2 = 0 := by omega
    cases x <;> simp [closingUnit, unitTurn, h, h']

/-- Each unit gets a turn. -/
theorem unit_gets_turn (s : State) (x : Eng) : ∃ k, (s.afterTurns k).nextTurn = unitTurn x := by
  have hstart := afterTurns_append (s := s) (rest := []) (List.append_nil _).symm
  obtain ⟨k, hfirst, hsched, hturn⟩ := round_closes (s := s.afterTurns s.sched.length) (by rw [hstart])
  obtain ⟨m, hsecond, -⟩ := round_closes hsched
  rcases closingUnit_alternates x (s.afterTurns s.sched.length).turn with h | h
  · exact ⟨s.sched.length + k, by rw [afterTurns_add, hfirst, h]⟩
  · exact ⟨s.sched.length + (k + 1 + m), by rw [afterTurns_add, afterTurns_add, hsecond, hturn, h]⟩

/-- Every schedule is fair (R70). -/
theorem fair (s : State) : s.Fair := by
  intro x n
  obtain ⟨k, hk⟩ := unit_gets_turn (s.afterTurns n) x
  exact ⟨n + k, Nat.le_add_right n k, by rw [afterTurns_add, hk]⟩

/-! ### What lies outside NTTE -/

/-- `t` has the host's queue and the schedule of `s`. -/
structure SameOutside (s t : State) : Prop where
  port : t.port = s.port
  sched : t.sched = s.sched
  turn : t.turn = s.turn

section Outside
variable {s t : State}

theorem runStep_sameOutside (i : Instr) (s : State) : SameOutside s (runStep i s) := by
  cases hu : unitOf i with
  | a =>
    obtain ⟨_, _, _, _, ht⟩ := runStep_a_frame hu s
    rw [ht]
    exact ⟨rfl, rfl, rfl⟩
  | b =>
    rcases runStep_b_frame hu s with ⟨_, _, _, _, ht⟩ | ⟨_, ht⟩
    · rw [ht]
      exact ⟨rfl, rfl, rfl⟩
    · obtain ⟨_, _, hc | hc⟩ := undefinedStepB_cases s <;> rw [ht, hc] <;> exact ⟨rfl, rfl, rfl⟩

theorem engineTurn_sameOutside {x : Eng} (h : engineTurn x s = .next t) : SameOutside s t := by
  rcases engineTurn_next h with ⟨_, rfl⟩ | ⟨_, i, _, _, rfl⟩
  · exact ⟨rfl, rfl, rfl⟩
  · exact runStep_sameOutside i s

theorem raise_sameOutside (x : Eng) (c : Cause) (s : State) : SameOutside s (s.raise x c) :=
  ⟨raise_port s x c, raise_sched s x c, raise_turn s x c⟩

theorem presentCommand_sameOutside {v : Word} (h : presentCommand v s = .next t) : SameOutside s t := by
  rcases presentCommand_cases v s with ⟨_, hp⟩ | ⟨_, e, _, hp⟩ | ⟨hb, i, hd, hp⟩ <;> rw [hp] at h
  · cases h
    exact raise_sameOutside _ _ s
  · cases h
    exact raise_sameOutside _ _ s
  · rw [presentCommand_idle hd hb] at h
    cases h
    rcases present_cases i s with ⟨_, _, ht⟩ | ⟨_, _, ht⟩ | ⟨_, ht⟩ <;> rw [ht]
    · exact ⟨rfl, rfl, rfl⟩
    · exact ⟨rfl, rfl, rfl⟩
    · exact raise_sameOutside _ _ s

theorem poke_sameOutside (off : Nat) (v : Word) (s : State) : SameOutside s (s.poke off v) := by
  rcases poke_cases off v s with ⟨_, ht⟩ | ⟨_, ht⟩ | ⟨_, ht⟩ | ⟨_, _, _, _, ht⟩ | ⟨_, _, _, _, ht⟩ | ht <;> rw [ht] <;>
    exact ⟨rfl, rfl, rfl⟩

theorem transact_sameOutside {tx : Txn} (h : transact tx s = .next t) : SameOutside s t := by
  rcases transact_next h with ⟨_, _, rfl⟩ | ⟨off, v, _, _, rfl⟩ | ⟨v, _, hc⟩
  · exact ⟨rfl, rfl, rfl⟩
  · obtain ⟨hport, hsched, hturn⟩ := poke_sameOutside off v { s with reply := some .written }
    exact ⟨hport, hsched, hturn⟩
  · obtain ⟨hport, hsched, hturn⟩ := presentCommand_sameOutside hc
    exact ⟨hport, hsched, hturn⟩

/-- The host's turn takes operations from the head of its queue only, and leaves the schedule. -/
theorem hostTurn_outside (h : hostTurn s = .next t) : t.port <:+ s.port ∧ t.sched = s.sched ∧ t.turn = s.turn := by
  rcases hostTurn_next h with ⟨_, rfl⟩ | ⟨tx, rest, hp, ht⟩ | ⟨x, rest, hp, rfl⟩
  · exact ⟨List.suffix_refl _, rfl, rfl⟩
  · obtain ⟨hport, hsched, hturn⟩ := transact_sameOutside ht
    exact ⟨by rw [hport, hp]; exact List.suffix_cons _ _, hsched, hturn⟩
  · refine ⟨?_, rfl, rfl⟩
    cases hb : s.busy x with
    | true => exact List.suffix_refl _
    | false => rw [hp]; exact List.suffix_cons _ _

/-- A step is the host's turn, or leaves what lies outside NTTE. -/
theorem step_outside (h : step s = .next t) :
    (s.nextTurn = .agent .host ∧ hostTurn s.takeTurn = .next t) ∨
    (s.nextTurn ≠ .agent .host ∧ SameOutside s.takeTurn t) := by
  unfold step at h
  cases hturn : s.nextTurn with
  | reset =>
    rw [hturn] at h
    cases h
    exact .inr ⟨by decide, rfl, rfl, rfl⟩
  | agent y =>
    rw [hturn] at h
    cases y with
    | host => exact .inl ⟨rfl, h⟩
    | engA => exact .inr ⟨by decide, engineTurn_sameOutside h⟩
    | engB => exact .inr ⟨by decide, engineTurn_sameOutside h⟩

/-- No agent touches the schedule. -/
theorem step_schedule (h : step s = .next t) : t.sched = s.takeTurn.sched ∧ t.turn = s.takeTurn.turn := by
  rcases step_outside h with ⟨_, hhost⟩ | ⟨_, hsame⟩
  · obtain ⟨-, hsched, hturn⟩ := hostTurn_outside hhost
    exact ⟨hsched, hturn⟩
  · exact ⟨hsame.sched, hsame.turn⟩

theorem step_port (h : step s = .next t) : t.port <:+ s.port := by
  rcases step_outside h with ⟨_, hhost⟩ | ⟨_, hsame⟩
  · exact (hostTurn_outside hhost).1
  · exact hsame.port ▸ List.suffix_refl _

/-- The turns after a step are those the schedule had before it. -/
theorem nextTurn_after_step (h : step s = .next t) (k : Nat) :
    (t.afterTurns k).nextTurn = (s.afterTurns (k + 1)).nextTurn := by
  obtain ⟨hsched, hturn⟩ := step_schedule h
  exact nextTurn_afterTurns_congr hsched hturn k

/-- From a legal state every step is answered but a transaction outside the window. -/
theorem step_answers (hs : s.Legal) (hp : ∀ tx ops, s.port = .txn tx :: ops → tx.InWindow) : ∃ t, step s = .next t := by
  refine (legalStatesStopOnlyOutsideTheWindow s hs).resolve_right ?_
  rintro ⟨-, op, ops, off, size, v, hop, hoff, rfl | rfl⟩
  · exact Nat.not_lt.mpr hoff (hp _ _ hop)
  · exact Nat.not_lt.mpr hoff (hp _ _ hop)

end Outside

/-! ### One unit of the two -/

/-- The width of a unit's schedule counter (R40). -/
def seqWidth : Eng → Nat
  | .a => 11
  | .b => 13

/-- The run state of unit X. -/
def State.unit (x : Eng) (s : State) : Engine (seqWidth x) :=
  match x with
  | .a => s.a
  | .b => s.b

/-- Unit X is running command `i`. -/
structure Runs (x : Eng) (i : Instr) (s : State) : Prop where
  busy : (s.unit x).busy = true
  cur : decode (s.unit x).cur = .ok i

section Unit
variable {x : Eng} {i : Instr} {n : Nat} {s t : State}

theorem unit_busy (x : Eng) (s : State) : (s.unit x).busy = s.busy x := by cases x <;> rfl

theorem unit_cur (x : Eng) (s : State) : (s.unit x).cur = s.cur x := by cases x <;> rfl

theorem unit_legal (hs : s.Legal) (x : Eng) : (s.unit x).LegalAs x := by
  obtain ⟨ha, hb, -, -⟩ := s.legal_iff.mp hs
  cases x with
  | a => exact ha
  | b => exact hb

theorem unit_change (h : step s = .next t) (x : Eng) : RunChange s x (s.unit x) (t.unit x) := by
  obtain ⟨ha, hb, -, -⟩ := step_change h
  cases x with
  | a => exact ha
  | b => exact hb

theorem unit_raise (x : Eng) (c : Cause) (s : State) : (s.raise x c).unit x = (s.unit x).raise c := by cases x <;> rfl

theorem stepCount_le (hu : unitOf i = x) (hn : stepCount i = some n) : n ≤ 2 ^ seqWidth x := by
  cases x with
  | a => exact stepCount_a_le hu hn
  | b => exact stepCount_b_le hu hn

/-- In a legal state the command a unit runs is its own (R104). -/
theorem Runs.unitOf_eq (hr : Runs x i s) (hs : s.Legal) : unitOf i = x := by
  obtain ⟨j, hj, hu, -⟩ := (unit_legal hs x).run hr.busy
  cases hr.cur.symm.trans hj
  exact hu

/-- A busy unit's own turn is an advance of its command (R40). -/
theorem unit_advance (hs : s.Legal) (hr : Runs x i s) (hn : stepCount i = some n) (hturn : s.nextTurn = unitTurn x)
    (h : step s = .next t) : ∃ cur seq, t.unit x = (s.unit x).advance n ((s.unit x).complete cur seq) := by
  have hu : unitOf i = x := hr.unitOf_eq hs
  have hsched : s.opened.sched = unitTurn x :: s.turns.tail := hturn ▸ opened_sched s
  rw [← step_opened] at h
  cases x with
  | a =>
    obtain ⟨t', cur, seq, ht', ha, -⟩ := advancesBy_a hu hn s.opened _ hsched hr.busy hr.cur
    cases h.symm.trans ht'
    exact ⟨cur, seq, ha⟩
  | b =>
    obtain ⟨t', cur, seq, ht', hb, -⟩ := advancesBy_b hu hn s.opened _ hsched hr.busy hr.cur
    cases h.symm.trans ht'
    exact ⟨cur, seq, hb⟩

/-- A CMD write to a busy unit is rejected with UNIT_BUSY, whatever the word (R104). -/
theorem unit_cmd_while_busy {v : Word} (h : step s = .next t) (host : s.HostWrites 0x0004 v)
    (hb : (s.unit (unitField v)).busy = true) : t.unit (unitField v) = (s.unit (unitField v)).raise .unitBusy := by
  obtain ⟨hturn, ops, hp⟩ := host
  have hbusy : State.busy (unitField v) { s.takeTurn with port := ops, reply := some .written } = true := by
    rw [unit_busy] at hb
    cases hx : unitField v <;> rw [hx] at hb <;> exact hb
  rw [step, hturn] at h
  have hpresent := (hostTurn_txn (s := s.takeTurn) hp).symm.trans h
  rw [transact_cmd, presentCommand, if_pos hbusy] at hpresent
  cases hpresent
  rw [unit_raise]
  cases unitField v <;> rfl

/-- What a busy unit can come to in a turn that is not its own: reset, the same command at the same place, or a CMD write
that names it. -/
theorem RunChange.elsewhere {w : Nat} {e e' : Engine w} (h : RunChange s x e e') (hb : e.busy = true)
    (hturn : s.nextTurn ≠ unitTurn x) :
    e'.busy = false ∨ (e'.busy = true ∧ e'.cur = e.cur ∧ e'.seq = e.seq) ∨
      ∃ v, s.HostWrites 0x0004 v ∧ unitField v = x := by
  cases h with
  | reset => exact .inl rfl
  | @accepted v i host hd hu => exact .inr (.inr ⟨v, host, (unitField_of_decode hd).trans hu⟩)
  | kept | cleared | rejected => exact .inr (.inl ⟨hb, rfl, rfl⟩)
  | advanced turn | completed turn | scrambled turn => exact absurd turn hturn

/-- In a turn that is not its own a busy unit is reset, or stays at the same place of the same command. -/
theorem unit_waits (h : step s = .next t) (hb : (s.unit x).busy = true) (hturn : s.nextTurn ≠ unitTurn x) :
    (t.unit x).busy = false ∨
      ((t.unit x).busy = true ∧ (t.unit x).cur = (s.unit x).cur ∧ (t.unit x).seq = (s.unit x).seq) := by
  rcases (unit_change h x).elsewhere hb hturn with hidle | hsame | ⟨v, host, rfl⟩
  · exact .inl hidle
  · exact .inr hsame
  · rw [unit_cmd_while_busy h host hb]
    exact .inr ⟨hb, rfl, rfl⟩

/-- A step of the machine leaves a running command completed, reset, or running on, further by one where the turn was its
unit's. -/
theorem step_running (hs : s.Legal) (hr : Runs x i s) (hn : stepCount i = some n) (h : step s = .next t) :
    (t.unit x).busy = false ∨
      (Runs x i t ∧
        (t.unit x).seq.toNat = (s.unit x).seq.toNat + if s.nextTurn = unitTurn x then 1 else 0) := by
  by_cases hturn : s.nextTurn = unitTurn x
  · obtain ⟨cur, seq, ht⟩ := unit_advance hs hr hn hturn h
    have hlt : (s.unit x).seq.toNat < n := (unit_legal hs x).seq_lt hr.busy hr.cur hn
    have hle : n ≤ 2 ^ seqWidth x := stepCount_le (hr.unitOf_eq hs) hn
    rcases (s.unit x).advance_cases ((s.unit x).complete cur seq) n with ⟨_, ha⟩ | ⟨hmore, ha⟩ <;> rw [ha] at ht
    · exact .inl (by rw [ht]; rfl)
    · refine .inr ⟨⟨by rw [ht]; exact hr.busy, by rw [ht]; exact hr.cur⟩, ?_⟩
      rw [ht, if_pos hturn]
      exact toNat_add_one_of_lt (by omega)
  · refine (unit_waits h hr.busy hturn).imp_right fun ⟨hb, hcur, hseq⟩ => ?_
    exact ⟨⟨hb, hcur ▸ hr.cur⟩, by rw [hseq, if_neg hturn, Nat.add_zero]⟩

/-! ### Every command with a step count ends -/

/-- While unit X is busy, each step from a legal state in which `P` holds is answered, and `P` holds after it. -/
def KeptWhileBusy (x : Eng) (P : State → Prop) : Prop :=
  ∀ s, s.Legal → s.busy x = true → P s → ∃ t, step s = .next t ∧ P t

/-- Some run from `s` ends with unit X idle and `P` true. -/
def EndsIdle (x : Eng) (P : State → Prop) (s : State) : Prop :=
  ∃ k t, core.run k s = .next t ∧ t.busy x = false ∧ P t

theorem EndsIdle.of_step {P : State → Prop} (h : step s = .next t) (ht : EndsIdle x P t) : EndsIdle x P s := by
  obtain ⟨k, u, hrun, hu⟩ := ht
  exact ⟨k + 1, u, (run_succ h k).trans hrun, hu⟩

/-- A running command ends if it ends from wherever the next step leaves it running. -/
theorem endsIdle_of_running {P : State → Prop} (hP : KeptWhileBusy x P) (hn : stepCount i = some n) (hs : s.Legal)
    (hr : Runs x i s) (hps : P s)
    (hnext : ∀ t, step s = .next t → t.Legal → Runs x i t → P t →
      (t.unit x).seq.toNat = (s.unit x).seq.toNat + (if s.nextTurn = unitTurn x then 1 else 0) → EndsIdle x P t) :
    EndsIdle x P s := by
  obtain ⟨t, hstep, hpt⟩ := hP s hs (unit_busy x s ▸ hr.busy) hps
  refine .of_step hstep ?_
  rcases step_running hs hr hn hstep with hidle | ⟨hrt, hseq⟩
  · exact ⟨0, t, rfl, unit_busy x t ▸ hidle, hpt⟩
  · exact hnext t hstep (everyStepKeepsLegal s t hs hstep) hrt hpt hseq

/-- Until the unit's next turn the command waits, and in it it makes one step: if it ends from wherever it has made one step,
it ends. -/
theorem endsIdle_of_nextTurn {P : State → Prop} (hP : KeptWhileBusy x P) (hn : stepCount i = some n) (k : Nat) {c : Nat}
    (hend : ∀ t, t.Legal → Runs x i t → P t → (t.unit x).seq.toNat = c + 1 → EndsIdle x P t)
    (hs : s.Legal) (hr : Runs x i s) (hps : P s) (hc : (s.unit x).seq.toNat = c)
    (hk : (s.afterTurns k).nextTurn = unitTurn x) : EndsIdle x P s := by
  induction k generalizing s with
  | zero =>
    have hturn : s.nextTurn = unitTurn x := hk
    exact endsIdle_of_running hP hn hs hr hps fun t _ hlegal hrt hpt hseq =>
      hend t hlegal hrt hpt (by rw [hseq, if_pos hturn, hc])
  | succ k ih =>
    refine endsIdle_of_running hP hn hs hr hps fun t hstep hlegal hrt hpt hseq => ?_
    by_cases hturn : s.nextTurn = unitTurn x
    · exact hend t hlegal hrt hpt (by rw [hseq, if_pos hturn, hc])
    · exact ih hlegal hrt hpt (by rw [hseq, if_neg hturn, hc, Nat.add_zero]) ((nextTurn_after_step hstep k).trans hk)

/-- A command with a step count ends, with `r` bounding the steps it has left. -/
theorem runs_endsIdle {P : State → Prop} (hP : KeptWhileBusy x P) (hn : stepCount i = some n) (r : Nat) (hs : s.Legal)
    (hr : Runs x i s) (hps : P s) (hleft : n ≤ (s.unit x).seq.toNat + r) : EndsIdle x P s := by
  induction r generalizing s with
  | zero =>
    have hlt : (s.unit x).seq.toNat < n := (unit_legal hs x).seq_lt hr.busy hr.cur hn
    omega
  | succ r ih =>
    obtain ⟨k, hk⟩ := unit_gets_turn s x
    exact endsIdle_of_nextTurn hP hn k (fun t hlegal hrt hpt hseq => ih hlegal hrt hpt (by omega)) hs hr hps rfl hk

/-- A busy unit whose command has a step count is idle at some time. -/
theorem busy_endsIdle {P : State → Prop} (hP : KeptWhileBusy x P) (hn : stepCount i = some n) (hs : s.Legal)
    (hb : s.busy x = true) (hd : decode (s.cur x) = .ok i) (hps : P s) : EndsIdle x P s :=
  runs_endsIdle hP hn n hs ⟨unit_busy x s ▸ hb, unit_cur x s ▸ hd⟩ hps (Nat.le_add_left n _)

/-! ### The host's queue meanwhile -/

/-- Every pending transaction lies in the window. -/
def PendingInWindow (s : State) : Prop := ∀ tx, .txn tx ∈ s.port → tx.InWindow

theorem pendingInWindow_kept (x : Eng) : KeptWhileBusy x PendingInWindow := by
  intro s hs _ hw
  obtain ⟨t, h⟩ := step_answers hs fun tx ops hp => hw tx (hp ▸ List.mem_cons_self)
  exact ⟨t, h, fun tx hm => hw tx ((step_port h).subset hm)⟩

/-- From a state whose host polls, a step is answered: polling is a read of STATUS. -/
theorem polling_answers {ops : List HostOp} (hs : s.Legal) (hp : s.port = .wait x :: ops) : ∃ t, step s = .next t :=
  step_answers hs fun tx rest h => by cases hp.symm.trans h

/-- The host's turn while it polls (R102). -/
theorem step_polls {ops : List HostOp} (hp : s.port = .wait x :: ops) (hturn : s.nextTurn = .agent .host) :
    step s = .next { s.takeTurn with
      reply := some (.data s.status)
      port := if s.busy x then s.port else ops } := by
  rw [step, hturn]
  refine (hostTurn_wait (s := s.takeTurn) hp).trans ?_
  cases x <;> rfl

/-- The host polls as long as the unit is busy. -/
theorem polling_kept (x : Eng) (ops : List HostOp) : KeptWhileBusy x fun s => s.port = .wait x :: ops := by
  intro s hs hb hp
  obtain ⟨t, h⟩ := polling_answers hs hp
  refine ⟨t, h, ?_⟩
  rcases step_outside h with ⟨hturn, _⟩ | ⟨_, hsame⟩
  · rw [step_polls hp hturn, if_pos hb] at h
    cases h
    exact hp
  · exact hsame.port.trans hp

/-- The host leaves the polling loop of an idle unit at its next turn. -/
theorem polling_ends {ops : List HostOp} (j : Nat) (hs : s.Legal) (hp : s.port = .wait x :: ops) (hb : s.busy x = false)
    (hothers : ∀ k, k < j → (s.afterTurns k).nextTurn ≠ .agent .host)
    (hhost : (s.afterTurns j).nextTurn = .agent .host) :
    ∃ t : State, core.run (j + 1) s = .next t ∧ t.busy x = false ∧ t.port = ops := by
  induction j generalizing s with
  | zero =>
    have h := step_polls hp hhost
    rw [hb] at h
    exact ⟨_, run_succ h 0, by cases x <;> exact hb, rfl⟩
  | succ j ih =>
    have hturn : s.nextTurn ≠ .agent .host := hothers 0 (Nat.succ_pos j)
    obtain ⟨t, h⟩ := polling_answers hs hp
    have hbt : t.busy x = false := by
      rw [← unit_busy] at hb ⊢
      by_contra hne
      obtain ⟨hrise, -⟩ := (unit_change h x).busy_rises hb (Bool.not_eq_false _ ▸ hne)
      exact hturn hrise
    have hpt : t.port = .wait x :: ops := by
      rcases step_outside h with ⟨hh, _⟩ | ⟨_, hsame⟩
      · exact absurd hh hturn
      · exact hsame.port.trans hp
    obtain ⟨u, hrun, hu⟩ := ih (everyStepKeepsLegal s t hs h) hpt hbt
      (fun k hk => nextTurn_after_step h k ▸ hothers (k + 1) (Nat.succ_lt_succ hk))
      ((nextTurn_after_step h j).trans hhost)
    exact ⟨u, (run_succ h (j + 1)).trans hrun, hu⟩

end Unit

/-- Settles O60: the schedule is fair and no agent touches it, so a busy unit gets the turns its command needs, in a run that
keeps the pending transactions in the window, or the host polling. -/
theorem fairnessEndsEveryCommand : Obligations.FairnessEndsEveryCommand := by
  refine ⟨fair, fun s t h => step_schedule h, fun s i n hs hw hn => ⟨fun hb hd => ?_, fun hb hd => ?_⟩,
    fun s x i n ops hs hp hb hd hn => busy_endsIdle (polling_kept x ops) hn hs hb hd hp,
    fun s x ops j hs hp hb hothers hhost => polling_ends j hs hp hb hothers hhost⟩
  · obtain ⟨k, t, hrun, hidle, -⟩ := busy_endsIdle (x := .a) (pendingInWindow_kept .a) hn hs hb hd hw
    exact ⟨k, t, hrun, hidle⟩
  · obtain ⟨k, t, hrun, hidle, -⟩ := busy_endsIdle (x := .b) (pendingInWindow_kept .b) hn hs hb hd hw
    exact ⟨k, t, hrun, hidle⟩

end Sys2Proof.Machine

/-! Command words and the CMD write: the encoder and the decoder undo one another, and what a CMD write does with a word, in
the order of the checks (30_encoding.md R90 to R104). -/

namespace Sys2Proof

/-! ### The fields a format leaves unused -/

/-- The format uses field IDX (R92). -/
def Format.usesIdx : Format → Bool
  | .i | .il | .p => true
  | .z | .l => false

/-- The format uses field LG (R92). -/
def Format.usesLg : Format → Bool
  | .l | .il | .p => true
  | .z | .i => false

/-- The format uses field TW (R92). -/
def Format.usesTw : Format → Bool
  | .p => true
  | .z | .l | .i | .il => false

/-- The fields the format does not use are 0 (the "must be zero" column of R92). -/
structure Format.UnusedZero (f : Format) (idx : BitVec 10) (lg : BitVec 4) (tw : BitVec 10) : Prop where
  idx : f.usesIdx = false → idx = 0
  lg : f.usesLg = false → lg = 0
  tw : f.usesTw = false → tw = 0

/-- Every bit of a mask: the opcode is fixed, and so is each field the format does not use (R92). -/
theorem Format.getLsbD_mask (f : Format) {k : Nat} (hk : k < 32) :
    f.mask.getLsbD k =
      if k < 8 then true else if k < 18 then !f.usesIdx else if k < 22 then !f.usesLg else !f.usesTw := by
  cases f <;> revert k <;> decide

section Masked
variable {o : Opcode} {idx : BitVec 10} {lg : BitVec 4} {tw : BitVec 10}

/-- An assembled word passes the field check where its unused fields are 0. -/
theorem assemble_masked (h : o.format.UnusedZero idx lg tw) :
    assemble o idx lg tw &&& o.format.mask = o.code.setWidth 32 := by
  obtain ⟨hidx, hlg, htw⟩ := h
  apply BitVec.eq_of_getLsbD_eq
  intro k hk
  rw [BitVec.getLsbD_and, getLsbD_assemble, Format.getLsbD_mask _ hk, BitVec.getLsbD_setWidth]
  by_cases hopc : k < 8
  · simp [hopc, hk]
  · have hcode : o.code.getLsbD k = false := BitVec.getLsbD_of_ge _ _ (Nat.le_of_not_lt hopc)
    simp only [if_neg hopc, hcode, Bool.and_false]
    split_ifs
    · cases hu : o.format.usesIdx <;> simp [hu, hidx]
    · cases hu : o.format.usesLg <;> simp [hu, hlg]
    · cases hu : o.format.usesTw <;> simp [hu, htw]

/-- A word that passes the field check has its unused fields 0. -/
theorem unusedZero_of_masked {w : Word} (h : w &&& o.format.mask = o.code.setWidth 32) :
    o.format.UnusedZero (idxField w) (lgField w) (twField w) where
  idx hu := idxField_of_masked h fun k hk => by
    rw [Format.getLsbD_mask _ (by omega), if_neg (by omega), if_pos (by omega), hu]
    rfl
  lg hu := lgField_of_masked h fun k hk => by
    rw [Format.getLsbD_mask _ (by omega), if_neg (by omega), if_neg (by omega), if_pos (by omega), hu]
    rfl
  tw hu := twField_of_masked h fun k hk => by
    rw [Format.getLsbD_mask _ (by omega), if_neg (by omega), if_neg (by omega), if_neg (by omega), hu]
    rfl

end Masked

/-! ### The three answers of the decoder -/

section Answers
variable {w : Word} {o : Opcode}

theorem decode_unassigned (h : opcodeOf (opcField w) = none) : decode w = .error .illegalOpcode := by
  simp only [decode, h]

theorem decode_illegalField (h : opcodeOf (opcField w) = some o) (hm : w &&& o.format.mask ≠ o.code.setWidth 32) :
    decode w = .error .illegalField := by
  simp only [decode, h, if_neg hm]

theorem decode_command (h : opcodeOf (opcField w) = some o) (hm : w &&& o.format.mask = o.code.setWidth 32) :
    decode w = .ok (o.command (idxField w) (lgField w) (twField w)) := by
  simp only [decode, h, if_pos hm]

/-- The decoder undoes the assembling of fields of which the unused ones are 0. -/
theorem decode_assemble {idx : BitVec 10} {lg : BitVec 4} {tw : BitVec 10} (h : o.format.UnusedZero idx lg tw) :
    decode (assemble o idx lg tw) = .ok (o.command idx lg tw) := by
  have hrow : opcodeOf (opcField (assemble o idx lg tw)) = some o := by rw [opcField_assemble, opcodeOf_code]
  rw [decode_command hrow (assemble_masked h), idxField_assemble, lgField_assemble, twField_assemble]

end Answers

/-- The decoder reads back every command from its word: the encoder sets the fields a command does not use to 0. -/
@[simp] theorem decode_encode (i : Instr) : decode (encode i) = .ok i := by
  cases i with
  | nopA | nttA | inttAMont | inttA | nopB => exact decode_assemble ⟨fun _ => rfl, fun _ => rfl, fun _ => rfl⟩
  | nttB | inttB => exact decode_assemble ⟨fun _ => rfl, nofun, fun _ => rfl⟩
  | fscaleA | redcA | freezeA => exact decode_assemble ⟨nofun, fun _ => rfl, fun _ => rfl⟩
  | nscaleB => exact decode_assemble ⟨nofun, nofun, fun _ => rfl⟩
  | bfctA | bfgsA | bfctB | bfgsB => exact decode_assemble ⟨nofun, nofun, nofun⟩

/-- Settles O1, by the format of each command. -/
theorem decodeOfEncodeIsTheCommand : Obligations.DecodeOfEncodeIsTheCommand := decode_encode

/-- Settles O2: the fields a word's format does not use are 0, so its command keeps every bit of it. -/
theorem encodeOfDecodeIsTheWord : Obligations.EncodeOfDecodeIsTheWord := fun _ _ => encode_of_decode

/-- A table word that is the word of a command is read as that command. -/
theorem decodeTableWord_of_encode {i : Instr} {w : Nat} (h : (encode i).toNat = w) : decodeTableWord 32 w = some i := by
  subst h
  simp only [decodeTableWord, le_refl, if_true, Nat.mod_eq_of_lt (encode i).isLt, BitVec.ofNat_toNat, BitVec.setWidth_eq,
    decode_encode]

/-- Settles O3: each example is the word the encoder gives for its command. -/
theorem exampleWordsDecode : Obligations.ExampleWordsDecode := by
  refine ⟨?_, ?_, ?_, ?_, ?_, ?_, ?_, ?_, ?_, ?_, ?_, ?_, ?_, ?_, ?_⟩ <;> exact decodeTableWord_of_encode (by decide)

/-! ### The opcode map -/

/-- The opcodes below 0x80 that are not in the map (R99). -/
def UnassignedA (c : Nat) : Prop := (0x04 ≤ c ∧ c ≤ 0x0F) ∨ (0x15 ≤ c ∧ c ≤ 0x7F)

/-- The opcodes from 0x80 on that are not in the map (R99). -/
def UnassignedB (c : Nat) : Prop := (0x83 ≤ c ∧ c ≤ 0x8F) ∨ 0x93 ≤ c

/-- The opcodes of the map are what its gaps leave (R93, R99). -/
theorem mem_codes_iff (c : BitVec 8) :
    c.toNat ∈ opcodes.map (fun o => o.code.toNat) ↔ ¬ (UnassignedA c.toNat ∨ UnassignedB c.toNat) := by
  have hc := c.isLt
  simp only [opcodes, List.map_cons, List.map_nil, List.mem_cons, List.not_mem_nil, or_false, Opcode.code,
    BitVec.reduceToNat, UnassignedA, UnassignedB]
  omega

theorem mem_opcodes (o : Opcode) : o ∈ opcodes := by cases o <;> decide

/-- The lookup finds exactly the opcodes of the map. -/
theorem opcodeOf_isSome_iff (c : BitVec 8) : (∃ o, opcodeOf c = some o) ↔ ¬ (UnassignedA c.toNat ∨ UnassignedB c.toNat) := by
  rw [← mem_codes_iff]
  constructor
  · rintro ⟨o, h⟩
    exact List.mem_map.mpr ⟨o, mem_opcodes o, congrArg BitVec.toNat (code_of_opcodeOf h)⟩
  · intro h
    obtain ⟨o, -, hcode⟩ := List.mem_map.mp h
    exact ⟨o, BitVec.eq_of_toNat_eq hcode ▸ opcodeOf_code o⟩

theorem opcodeOf_unassigned {c : BitVec 8} (h : UnassignedA c.toNat ∨ UnassignedB c.toNat) : opcodeOf c = none := by
  rw [Option.eq_none_iff_forall_ne_some]
  exact fun o ho => (opcodeOf_isSome_iff c).mp ⟨o, ho⟩ h

/-- The unit of a word, by the size of its opcode: bit 7 is the opcode's top bit (R94). -/
theorem unitField_eq (w : Word) : unitField w = if 128 ≤ (opcField w).toNat then .b else .a := by
  have hbit : w.getLsbD 7 = (opcField w).msb := by simp [opcField, BitVec.msb_eq_getLsbD_last]
  rw [unitField, hbit, BitVec.msb_eq_decide]
  simp

theorem unitField_eq_b_iff (w : Word) : unitField w = .b ↔ w.getLsbD 7 = true := by
  unfold unitField
  cases w.getLsbD 7 <;> simp

end Sys2Proof

namespace Sys2Proof.Machine

/-! ### Presentation to an idle unit -/

section Presented
variable {i : Instr} {s : State}

theorem present_illFormed (h : ¬ i.WellFormed) : present i s = s.raise (unitOf i) .operandRange := by
  rcases present_cases i s with ⟨hw, _⟩ | ⟨hw, _⟩ | ⟨_, ht⟩
  · exact absurd hw h
  · exact absurd hw h
  · exact ht

theorem present_accepted_a (hu : unitOf i = .a) (h : i.WellFormed) :
    present i s = { s with a := s.a.accept (encode i) } := by
  simp only [present, hu, State.presentA, if_pos h]

theorem present_accepted_b (hu : unitOf i = .b) (h : i.WellFormed) :
    present i s = { s with b := s.b.accept (encode i) } := by
  simp only [present, hu, State.presentB, if_pos h]

end Presented

/-! ### The branches of a CMD write -/

section CmdWrite
variable {w : Word} {s : State}

theorem presentCommand_busy (hb : s.busy (unitField w) = true) :
    presentCommand w s = .next (s.raise (unitField w) .unitBusy) := if_pos hb

theorem presentCommand_error {e : DecodeError} (hb : s.busy (unitField w) = false) (hd : decode w = .error e) :
    presentCommand w s = .next (s.raise (unitField w) (causeOf e)) := by
  simp [presentCommand, hb, hd]

theorem presentCommand_unassigned (hb : s.busy (unitField w) = false) (h : opcodeOf (opcField w) = none) :
    presentCommand w s = .next (s.raise (unitField w) .illegalOpcode) :=
  presentCommand_error hb (decode_unassigned h)

theorem presentCommand_illegalField {o : Opcode} (hb : s.busy (unitField w) = false) (h : opcodeOf (opcField w) = some o)
    (hm : w &&& o.format.mask ≠ o.code.setWidth 32) :
    presentCommand w s = .next (s.raise (unitField w) .illegalField) :=
  presentCommand_error hb (decode_illegalField h hm)

/-- A word that decodes presents its command to its idle unit. -/
theorem presentCommand_present {i : Instr} (hb : s.busy (unitField w) = false) (hd : decode w = .ok i) :
    presentCommand w s = .next (present i s) := by
  rw [presentCommand_exec hb hd, presentCommand_idle hd hb]

theorem presentCommand_illFormed {i : Instr} (hb : s.busy (unitField w) = false) (hd : decode w = .ok i)
    (hw : ¬ i.WellFormed) : presentCommand w s = .next (s.raise (unitField w) .operandRange) := by
  rw [presentCommand_present hb hd, present_illFormed hw, unitField_of_decode hd]

theorem presentCommand_accepted_a {i : Instr} (hu : unitField w = .a) (hb : s.a.busy = false) (hd : decode w = .ok i)
    (hw : i.WellFormed) : presentCommand w s = .next { s with a := s.a.accept w } := by
  rw [presentCommand_present (hu ▸ hb) hd, present_accepted_a (unitField_of_decode hd ▸ hu) hw, encode_of_decode hd]

theorem presentCommand_accepted_b {i : Instr} (hu : unitField w = .b) (hb : s.b.busy = false) (hd : decode w = .ok i)
    (hw : i.WellFormed) : presentCommand w s = .next { s with b := s.b.accept w } := by
  rw [presentCommand_present (hu ▸ hb) hd, present_accepted_b (unitField_of_decode hd ▸ hu) hw, encode_of_decode hd]

end CmdWrite

/-! ### What a CMD write leaves alone -/

/-- `t` is `s` but for the run state of unit X. -/
def SameBut (x : Eng) (s t : State) : Prop :=
  match x with
  | .a => t = { s with a := t.a }
  | .b => t = { s with b := t.b }

theorem SameBut.eq_a {s t : State} (h : SameBut .a s t) : t = { s with a := t.a } := h

theorem SameBut.eq_b {s t : State} (h : SameBut .b s t) : t = { s with b := t.b } := h

theorem raise_sameBut (x : Eng) (c : Cause) (s : State) : SameBut x s (s.raise x c) := by cases x <;> rfl

theorem present_sameBut (i : Instr) (s : State) : SameBut (unitOf i) s (present i s) := by
  rcases present_cases i s with ⟨_, hu, ht⟩ | ⟨_, hu, ht⟩ | ⟨_, ht⟩ <;> rw [ht]
  · rw [hu]; rfl
  · rw [hu]; rfl
  · exact raise_sameBut _ _ s

/-- A CMD write changes the run state of the word's own unit, nothing else (R94, R104). -/
theorem presentCommand_sameBut {w : Word} {s t : State} (h : presentCommand w s = .next t) : SameBut (unitField w) s t := by
  rcases presentCommand_cases w s with ⟨_, hp⟩ | ⟨_, e, _, hp⟩ | ⟨hb, i, hd, hp⟩ <;> rw [hp] at h
  · cases h
    exact raise_sameBut _ _ s
  · cases h
    exact raise_sameBut _ _ s
  · rw [presentCommand_idle hd hb] at h
    cases h
    exact unitField_of_decode hd ▸ present_sameBut i s

theorem SameBut.reply {x : Eng} {s t : State} (h : SameBut x s t) : t.reply = s.reply := by
  cases x with
  | a => rw [h.eq_a]
  | b => rw [h.eq_b]

/-- Every CMD write is answered ok (R104). -/
theorem transact_cmd_written (w : Word) (s : State) :
    ∃ t, transact (.write 0x0004 4 w) s = .next t ∧ t.reply = some .written := by
  obtain ⟨t, h⟩ := presentCommand_answers w { s with reply := some .written }
  exact ⟨t, (transact_cmd w s).trans h, (presentCommand_sameBut h).reply⟩

/-! ### The statements on a CMD write -/

/-- Settles O4, branch by branch. -/
theorem cmdWriteChecksThenAccepts : Obligations.CmdWriteChecksThenAccepts := fun w s =>
  ⟨presentCommand_busy, presentCommand_unassigned, fun _ => presentCommand_illegalField,
    fun _ => presentCommand_illFormed, fun _ => presentCommand_accepted_a, fun _ => presentCommand_accepted_b,
    transact_cmd_written w s, fun _ _ => stepCount_pos⟩

/-- Settles O5: the size of an opcode gives its bit 7, and the map is what the ranges leave. -/
theorem unassignedOpcodesAreRejected : Obligations.UnassignedOpcodesAreRejected := by
  intro w s
  refine ⟨fun h hb => ?_, fun h hb => ?_, fun h => (opcodeOf_isSome_iff _).mpr fun hgap => h ?_⟩
  · have hu : unitField w = .a := by rw [unitField_eq, if_neg (by omega)]
    have hrejected := presentCommand_unassigned (s := s) (hu ▸ hb) (opcodeOf_unassigned (.inl h))
    rwa [hu] at hrejected
  · have hu : unitField w = .b := by rw [unitField_eq, if_pos (by omega)]
    have hrejected := presentCommand_unassigned (s := s) (hu ▸ hb) (opcodeOf_unassigned (.inr h))
    rwa [hu] at hrejected
  · exact or_assoc.mp hgap

/-- Settles O6: a word that passed the field check would have that field 0. -/
theorem nonzeroUnusedFieldIsRejected : Obligations.NonzeroUnusedFieldIsRejected := by
  intro w o s hb ho hne
  refine presentCommand_illegalField hb ho fun hm => ?_
  obtain ⟨hidx, hlg, htw⟩ := unusedZero_of_masked hm
  cases hf : o.format <;> rw [hf] at hne hidx hlg htw
  case z => exact hne.elim (· (hidx rfl)) (·.elim (· (hlg rfl)) (· (htw rfl)))
  case l => exact hne.elim (· (hidx rfl)) (· (htw rfl))
  case i => exact hne.elim (· (hlg rfl)) (· (htw rfl))
  case il => exact hne (htw rfl)
  case p => exact hne

/-- Settles O7: the operand check, command by command, and what presentation does with an operand that fails it. -/
theorem operandRangesOfTheOpcodeMap : Obligations.OperandRangesOfTheOpcodeMap := by
  have hA (j lg k : Nat) : butterflyRangeA j lg k = true ↔
      j ≤ 255 ∧ lg ≤ 7 ∧ j + 2 ^ lg ≤ 255 ∧ 1 ≤ k ∧ k ≤ 255 := by
    rw [butterflyRangeA_iff, iff_and_self]
    exact fun ⟨_, hj, _⟩ => (Nat.le_add_right j (2 ^ lg)).trans hj
  refine ⟨fun j lg k => ⟨hA _ _ _, hA _ _ _, indexRangeA_iff _, indexRangeA_iff _, indexRangeA_iff _,
    butterflyRangeB_iff _ _, butterflyRangeB_iff _ _, legalLogn_iff _, rfl, rfl⟩, rfl, rfl, rfl, rfl, rfl,
    fun i s hb hw => ?_⟩
  have hrejected := presentCommand_illFormed (s := s) ((unitField_encode i).symm ▸ hb) (decode_encode i) hw
  rwa [unitField_encode] at hrejected

/-- Settles O9: the unit of a word that decodes is its command's, and a CMD write changes that unit's run state alone. -/
theorem cmdWriteReachesOnlyItsUnit : Obligations.CmdWriteReachesOnlyItsUnit := by
  refine ⟨fun w i hd => (unitField_of_decode hd).symm, unitField_eq_b_iff, fun w s t h => ?_⟩
  have hsame := presentCommand_sameBut h
  cases hu : unitField w with
  | a =>
    rw [hu] at hsame
    rw [hsame.eq_a]
    exact ⟨rfl, rfl, rfl, rfl, rfl, fun _ => rfl, nofun⟩
  | b =>
    rw [hu] at hsame
    rw [hsame.eq_b]
    exact ⟨rfl, rfl, rfl, rfl, rfl, nofun, fun _ => rfl⟩

/-! ### A Ring-B transform of a size out of range -/

section OutOfRange
variable (s : State)

theorem undefinedStepB_b :
    (undefinedStepB s).b =
      if Config.freeDone s.draws then s.completedB else { s.b with seq := Config.freeSeqB s.draws } := rfl

theorem undefinedStepB_undefB : (undefinedStepB s).undefB = s.undefB := rfl

theorem undefinedStepB_draws : (undefinedStepB s).draws = s.draws + 1024 := rfl

/-- The engine step of `ntt.b` or `intt.b` out of range (R187): the undefined one, whatever schedule the command has. -/
theorem exec_undefinedStepB {logn : BitVec 4} {i : Instr} (hb : s.b.busy = true) (hl : logn.toNat = 0 ∨ 11 ≤ logn.toNat)
    (hi : i = .nttB logn ∨ i = .inttB logn) : exec i s = .next (undefinedStepB s).refreshB := by
  have hl' : ¬ legalLogn logn.toNat = true := by
    rw [legalLogn_iff]
    omega
  have hu : unitOf i = .b := by rcases hi with rfl | rfl <;> rfl
  have hbare : bareStep i s = undefinedStepB s := by rcases hi with rfl | rfl <;> exact if_neg hl'
  rw [exec_busy (hu ▸ hb), runStep_b_eq hu, hbare]

/-- Every entry of BUF_B after that step: a free value, drawn once more where the entry is undefined anyway (R73). -/
theorem entryB_refreshB_undefinedStepB {n : Nat} (hn : n < 1024) :
    (undefinedStepB s).refreshB.entryB n =
      Config.freeB (if n ∈ s.undefB then s.draws + 1024 + n else s.draws + n) := by
  have hentry : (undefinedStepB s).entryB n = Config.freeB (s.draws + n) := entryB_scrambleB s hn
  rw [entryB_refreshB _ hn, hentry, undefinedStepB_undefB, undefinedStepB_draws, apply_ite Config.freeB]

/-- What that step leaves alone: everything but BUF_B, ENG_B and the count of free values. -/
theorem refreshB_undefinedStepB_frame :
    (undefinedStepB s).refreshB =
      { s with
        b := (undefinedStepB s).refreshB.b
        bufB := (undefinedStepB s).refreshB.bufB
        draws := s.draws + if s.undefB = [] then 1024 else 2048 } := by
  have hdraws : (undefinedStepB s).refreshB.draws = s.draws + if s.undefB = [] then 1024 else 2048 := by
    rw [refreshB_draws, undefinedStepB_undefB, undefinedStepB_draws]
    split <;> rfl
  obtain ⟨buf, k, h⟩ := refreshB_frame (undefinedStepB s)
  rw [h] at hdraws ⊢
  rw [← hdraws]
  rfl

end OutOfRange

/-- Settles O32: the step is the undefined one, and the free bit decides between completion and going on. -/
theorem outOfRangeLognIsUndefinedInBufB : Obligations.OutOfRangeLognIsUndefinedInBufB := by
  intro logn s i hb hl hi
  refine ⟨_, exec_undefinedStepB s hb hl hi, fun n => entryB_refreshB_undefinedStepB s, ?_, ?_, ?_, ?_, fun hd => ?_,
    refreshB_undefinedStepB_frame s⟩ <;> rw [refreshB_b, undefinedStepB_b]
  case refine_5 => rw [hd]; rfl
  all_goals cases hd : Config.freeDone s.draws <;> simp [hb]

end Sys2Proof.Machine

/-! The arithmetic primitives: the Montgomery reduction of ENG_A by its multiplier and its exact division, the freeze step, and
the operations of Ring-B (40_arith_primitives.md R120 to R127). -/

namespace Sys2Proof.Machine

/-! ### The multiplier of the Montgomery reduction -/

/-- `sint32` of a low word is the signed word with that residue. -/
theorem sint32_emod (x : Int) :
    -2 ^ 31 ≤ sint32 (x % 2 ^ 32) ∧ sint32 (x % 2 ^ 32) ≤ 2 ^ 31 - 1 ∧ (x - sint32 (x % 2 ^ 32)) % 2 ^ 32 = 0 := by
  unfold sint32
  split <;> omega

/-- A residue has one signed word. -/
theorem sint32_emod_eq {x m : Int} (hlow : -2 ^ 31 ≤ m) (hhigh : m ≤ 2 ^ 31 - 1) (h : (x - m) % 2 ^ 32 = 0) :
    sint32 (x % 2 ^ 32) = m := by
  obtain ⟨hl, hh, hx⟩ := sint32_emod x
  omega

section Redc
variable (t : Int)

theorem redcFactor_eq : redcFactor t = sint32 ((t * 4236238847) % 2 ^ 32) :=
  congrArg sint32 (show t % 2 ^ 32 * 4236238847 % 2 ^ 32 = t * 4236238847 % 2 ^ 32 by omega)

theorem fitsInt32_redcFactor : FitsInt32 (redcFactor t) := by
  obtain ⟨hlow, hhigh, -⟩ := sint32_emod (t * 4236238847)
  rw [redcFactor_eq]
  exact ⟨hlow, hhigh⟩

theorem redcFactor_congruent : (t * 4236238847 - redcFactor t) % 2 ^ 32 = 0 := by
  rw [redcFactor_eq]
  exact (sint32_emod (t * 4236238847)).2.2

/-- The multiplier is the one signed word with its residue (R120). -/
theorem redcFactor_unique {t m : Int} (hlow : -2 ^ 31 ≤ m) (hhigh : m ≤ 2 ^ 31 - 1)
    (h : (t * 4236238847 - m) % 2 ^ 32 = 0) : redcFactor t = m := by
  rw [redcFactor_eq, sint32_emod_eq hlow hhigh h]

/-- The sum that REDC_A divides has no low word, since `NQINV_A × QA ≡ −1 (mod 2^32)`. -/
theorem redcSum_low : (t + redcFactor t * 8380417) % 2 ^ 32 = 0 := by
  have h := redcFactor_congruent t
  omega

/-- The division of REDC_A is exact: what every law of R121 rests on. -/
theorem redcA_mul_radix : redcA t * 2 ^ 32 = t + redcFactor t * 8380417 :=
  Int.ediv_mul_cancel (Int.dvd_of_emod_eq_zero (redcSum_low t))

end Redc

/-- Settles O10: the multiplier is the one signed word of its residue, and the division by the radix is exact. -/
theorem redcDividesByTheRadix : Obligations.RedcDividesByTheRadix := by
  intro t m hlow hhigh h
  obtain rfl : redcFactor t = m := redcFactor_unique hlow hhigh h
  exact ⟨rfl, redcSum_low t, redcA_mul_radix t⟩

/-! ### The laws of the Montgomery reduction -/

/-- Law (a): 8265825 is the inverse of the radix modulo QA. -/
theorem redcA_congruent (t : Int) : CongruentMod (redcA t) (t * 8265825) 8380417 := by
  have h := redcA_mul_radix t
  unfold CongruentMod
  omega

theorem redcA_mul_radix_congruent (t : Int) : CongruentMod (redcA t * 2 ^ 32) t 8380417 := by
  have h := redcA_mul_radix t
  unfold CongruentMod
  omega

/-- Law (b). -/
theorem abs_redcA_lt {t : Int} (ht : |t| < 2 ^ 31 * 8380417) : |redcA t| < 8380417 := by
  obtain ⟨hlow, hhigh⟩ := fitsInt32_redcFactor t
  have h := redcA_mul_radix t
  rw [abs_lt] at ht ⊢
  omega

theorem fitsInt32_of_abs_lt {v : Int} (h : |v| < 8380417) : FitsInt32 v := by
  rw [abs_lt] at h
  exact ⟨by omega, by omega⟩

@[simp] theorem redcA_zero : redcA 0 = 0 := by decide

/-- Law (d): a multiple of the radix has multiplier 0. -/
theorem redcA_radix_mul (x : Int) : redcA (x * 2 ^ 32) = x := by
  have hm : redcFactor (x * 2 ^ 32) = 0 := redcFactor_unique (by decide) (by decide) (by omega)
  have h := redcA_mul_radix (x * 2 ^ 32)
  rw [hm] at h
  omega

/-- Law (e): the multipliers of the summands and of the sum differ by a multiple of `2^32` that is too small to be any but 0
or one radix. -/
theorem redcA_add (t t' : Int) :
    redcA (t + t') = redcA t + redcA t' ∨ redcA (t + t') = redcA t + redcA t' + 8380417 ∨
      redcA (t + t') = redcA t + redcA t' - 8380417 := by
  obtain ⟨hl, hh⟩ := fitsInt32_redcFactor t
  obtain ⟨hl', hh'⟩ := fitsInt32_redcFactor t'
  obtain ⟨hls, hhs⟩ := fitsInt32_redcFactor (t + t')
  have h := redcA_mul_radix t
  have h' := redcA_mul_radix t'
  have hs := redcA_mul_radix (t + t')
  omega

/-- The multiplier is the one signed word that has no negation exactly where `low32(T) = 2^31`. -/
theorem redcFactor_eq_min_iff (t : Int) : redcFactor t = -2 ^ 31 ↔ low32 t = 2 ^ 31 := by
  have h := redcA_mul_radix t
  unfold low32
  refine ⟨fun hm => ?_, fun ht => redcFactor_unique (by decide) (by decide) (by omega)⟩
  rw [hm] at h
  omega

/-- The multiplier for `+QA⁻¹` is the negated one, but for the signed word that has no negation. -/
theorem referenceFactor_eq (t : Int) :
    sint32 ((low32 t * 58728449) % 2 ^ 32) = if low32 t = 2 ^ 31 then redcFactor t else -redcFactor t := by
  have h := redcA_mul_radix t
  obtain ⟨hlow, hhigh⟩ := fitsInt32_redcFactor t
  have hmin := redcFactor_eq_min_iff t
  have ht : low32 t = t % 2 ^ 32 := rfl
  split
  · exact sint32_emod_eq hlow hhigh (by omega)
  · exact sint32_emod_eq (by omega) (by omega) (by omega)

/-- Law (g). -/
theorem redcA_reference_form (t : Int) :
    (t - sint32 ((low32 t * 58728449) % 2 ^ 32) * 8380417) / 2 ^ 32 =
      if low32 t = 2 ^ 31 then redcA t + 8380417 else redcA t := by
  have h := redcA_mul_radix t
  have hmin := redcFactor_eq_min_iff t
  rw [referenceFactor_eq]
  split <;> omega

/-- Settles O11: the laws follow from the exact division; the worked values are evaluated. -/
theorem lawsOfRedc : Obligations.LawsOfRedc := by
  refine ⟨fun t => ⟨redcA_congruent t, redcA_mul_radix_congruent t⟩, fun t ht => ?_, redcA_zero,
    fun x _ => redcA_radix_mul x, redcA_add, ⟨2 ^ 31, 2 ^ 31, by decide⟩, by decide, by decide, by decide, by decide,
    by decide, by decide, by decide, redcA_reference_form⟩
  have habs := abs_redcA_lt ht
  exact ⟨(abs_lt.mp habs).1, (abs_lt.mp habs).2, fitsInt32_of_abs_lt habs⟩

/-! ### The products of ENG_A -/

/-- Law R125 on the twiddles: a centred residue modulo QA is at most `(QA − 1) / 2` in absolute value (R17). -/
theorem abs_zetaA_le (k : Nat) : |zetaA k| ≤ 4190208 := by
  unfold zetaA centred QA
  rw [abs_le]
  split
  · decide
  · split <;> omega

theorem abs_le_of_fitsInt32 {v : Int} (h : FitsInt32 v) : |v| ≤ 2 ^ 31 := abs_le.mpr ⟨h.1, by have := h.2; omega⟩

/-- A factor of ENG_A, a twiddle or the scaling constant, times an int32 is within `2^53` (R122, R125). -/
theorem abs_product_le {c v : Int} (hc : |c| ≤ 4190208) (hv : FitsInt32 v) : |c * v| ≤ 2 ^ 53 :=
  calc |c * v| = |c| * |v| := abs_mul c v
    _ ≤ 4190208 * 2 ^ 31 := mul_le_mul hc (abs_le_of_fitsInt32 hv) (abs_nonneg v) (by decide)
    _ ≤ 2 ^ 53 := by decide

/-- In the range of law (b) the sum that REDC_A divides is below `2^32 × QA`. -/
theorem abs_redcSum_lt {t : Int} (ht : |t| < 2 ^ 31 * 8380417) : |t + redcFactor t * 8380417| < 2 ^ 32 * 8380417 := by
  have h := redcA_mul_radix t
  have hr := abs_redcA_lt ht
  rw [abs_lt] at hr ⊢
  omega

/-- Settles O12: each of the four products is within `2^53`, which is in the range of law (b). -/
theorem engineProductsReduceBelowQA : Obligations.EngineProductsReduceBelowQA := by
  intro v k t hv _ ht
  have hle : |t| ≤ 2 ^ 53 := by
    rcases ht with rfl | rfl | rfl | rfl
    · exact abs_product_le (abs_zetaA_le k) hv
    · exact abs_product_le ((abs_neg _).trans_le (abs_zetaA_le k)) hv
    · exact abs_product_le (by decide) hv
    · exact (abs_le_of_fitsInt32 hv).trans (by decide)
  have hlt : |t| < 2 ^ 31 * 8380417 := hle.trans_lt (by decide)
  exact ⟨abs_zetaA_le k, hle, hlt, abs_redcSum_lt hlt, abs_redcA_lt hlt, fitsInt32_of_abs_lt (abs_redcA_lt hlt)⟩

/-! ### The freeze step -/

theorem freezeA_range (v : Int) : 0 ≤ freezeA v ∧ freezeA v < 8380417 :=
  ⟨Int.emod_nonneg v (by decide), Int.emod_lt_of_pos v (by decide)⟩

theorem fitsInt32_freezeA (v : Int) : FitsInt32 (freezeA v) := by
  obtain ⟨hlow, hhigh⟩ := freezeA_range v
  exact ⟨by omega, by omega⟩

/-- Settles O13: the step is a remainder by QA. -/
theorem freezeIsTheCanonicalRepresentative : Obligations.FreezeIsTheCanonicalRepresentative :=
  ⟨fun v _ => ⟨rfl, (freezeA_range v).1, (freezeA_range v).2, fitsInt32_freezeA v⟩,
    by decide, by decide, by decide, by decide, by decide⟩

/-! ### Ring-B -/

theorem mqSub_cast (x y : Nat) : (mqSub x y : Int) = ((x : Int) - (y : Int)) % 12289 :=
  Int.toNat_of_nonneg (Int.emod_nonneg _ (by decide))

/-- Settles O14: each operation is a remainder by QB, and the product of two operands fits 28 bits. -/
theorem ringBArithmetic : Obligations.RingBArithmetic := by
  refine ⟨fun x y hx hy => ⟨rfl, mqSub_cast x y, rfl, ?_, mqAdd_lt x y, mqSub_lt x y, mqMul_lt x y⟩, by decide⟩
  calc x * y < 12289 * 12289 := Nat.mul_lt_mul'' hx hy
    _ < 2 ^ 28 := by decide

end Sys2Proof.Machine

/-! Undefined values in the single-step commands: a butterfly of ENG_A whose store overflows, and a step of ENG_B that reads
an operand out of range (40_arith_primitives.md R124 and R128, 93_implementation_defined.md U2 and U4). -/

namespace Sys2Proof.Machine

/-! ### Two entries written -/

/-- What the entries hold after two different ones have been written. -/
theorem entryA_putA_pair {s r : State} {i j : Nat} {x y : Word} (hr : r.bufA = ((s.putA i x).putA j y).bufA)
    (hi : i < 256) (hj : j < 256) (hne : i ≠ j) :
    r.entryA i = x ∧ r.entryA j = y ∧ ∀ n, n ≠ i → n ≠ j → r.entryA n = s.entryA n := by
  refine ⟨?_, ?_, fun n hni hnj => ?_⟩ <;> rw [entryA_congr hr]
  · rw [entryA_putA_ne _ hne.symm, entryA_putA_same _ hi]
  · rw [entryA_putA_same _ hj]
  · rw [entryA_putA_ne _ hnj.symm, entryA_putA_ne _ hni.symm]

/-- What the entries hold after two different ones have been written. -/
theorem entryB_putB_pair {s r : State} {i j : Nat} {x y : Half} (hr : r.bufB = ((s.putB i x).putB j y).bufB)
    (hi : i < 1024) (hj : j < 1024) (hne : i ≠ j) :
    r.entryB i = x ∧ r.entryB j = y ∧ ∀ n, n ≠ i → n ≠ j → r.entryB n = s.entryB n := by
  refine ⟨?_, ?_, fun n hni hnj => ?_⟩ <;> rw [entryB_congr hr]
  · rw [entryB_putB_ne _ hne.symm, entryB_putB_same _ hi]
  · rw [entryB_putB_same _ hj]
  · rw [entryB_putB_ne _ hnj.symm, entryB_putB_ne _ hni.symm]

/-! ### Stores of ENG_A -/

theorem st32_fst (v : Int) (n : Nat) : (st32 v n).1 = if FitsInt32 v then int32 v else Config.freeA n :=
  apply_ite Prod.fst _ _ _

theorem st32_snd (v : Int) (n : Nat) : (st32 v n).2 = n + if FitsInt32 v then 0 else 1 := by
  rcases st32_cases v n with ⟨hv, h⟩ | ⟨hv, h⟩
  · rw [h, if_pos hv, Nat.add_zero]
  · rw [h, if_neg hv]

section ButterfliesA
variable (j lg k : Nat) (s : State)

/-- What `bfct.a` stores (R141), whether the stores overflow or not (R124). -/
theorem bfctAOp_eq {u t : Int} (hu : s.coefA j = u) (ht : redcA (zetaA k * s.coefA (partner j lg)) = t) :
    bfctAOp j lg k s =
      { (s.putA (partner j lg) (if FitsInt32 (u - t) then int32 (u - t) else Config.freeA s.draws)).putA j
          (if FitsInt32 (u + t) then int32 (u + t) else Config.freeA (s.draws + if FitsInt32 (u - t) then 0 else 1)) with
        draws := s.draws + (if FitsInt32 (u - t) then 0 else 1) + (if FitsInt32 (u + t) then 0 else 1) } := by
  subst hu ht
  simp only [bfctAOp, st32_fst, st32_snd]

/-- What `bfgs.a` stores (R142), whether the sum and the difference overflow or not (R124, U2). -/
theorem bfgsAOp_eq {u v : Int} (hu : s.coefA j = u) (hv : s.coefA (partner j lg) = v) :
    bfgsAOp j lg k s =
      { (s.putA j (if FitsInt32 (u + v) then int32 (u + v) else Config.freeA s.draws)).putA (partner j lg)
          (if FitsInt32 (u - v) then int32 (redcA (-zetaA k * (u - v)))
            else Config.freeA (s.draws + if FitsInt32 (u + v) then 0 else 1)) with
        draws := s.draws + (if FitsInt32 (u + v) then 0 else 1) + (if FitsInt32 (u - v) then 0 else 1) } := by
  subst hu hv
  simp only [bfgsAOp, st32_fst, st32_snd]
  split <;> rfl

end ButterfliesA

/-! ### Single-step commands -/

/-- A single-step command of ENG_A performs its micro-operation and completes. -/
theorem exec_single_a {i : Instr} {m : MicroA} (hu : unitOf i = .a) (hm : bareStep i = engineStepA 1 fun _ => m)
    {s : State} (hs : RunningA 0 s) : exec i s = .next { microA m s with a := finishedA s } :=
  exec_schedule_a ⟨hu, _, hm, rfl⟩ hs

/-- A single-step command of ENG_B performs its micro-operation and completes. -/
theorem exec_single_b {i : Instr} {m : MicroB} (hu : unitOf i = .b) (hm : bareStep i = engineStepB 1 fun _ => m)
    {s : State} (hs : RunningB 0 s) : exec i s = .next { microB m s with b := finishedB s } :=
  exec_schedule_b ⟨hu, _, hm, rfl⟩ hs

/-- Settles O20: the stores of the two micro-operations, each fitting or not. -/
theorem butterflyOverflowLeavesFreeValues : Obligations.ButterflyOverflowLeavesFreeValues := by
  rintro j lg k s d u v t hs hw rfl hu hv ht
  obtain ⟨-, hrange, -, -⟩ := (butterflyRangeA_iff _ _ _).mp hw
  have hj : j.toNat < 256 := ((Nat.le_add_right _ (2 ^ lg.toNat)).trans hrange).trans_lt (by decide)
  have hp : partner j.toNat lg.toNat < 256 := Nat.lt_succ_of_le hrange
  have hne : j.toNat ≠ partner j.toNat lg.toNat := partner_ne _ _
  refine ⟨⟨_, exec_single_a rfl rfl hs, ?_⟩, ⟨_, exec_single_a rfl rfl hs, ?_⟩⟩
  · rw [microA, bfctAOp_eq _ _ _ _ hu.symm (ht.trans (by rw [hv]; rfl)).symm]
    obtain ⟨hhi, hlo, hother⟩ := entryA_putA_pair rfl hp hj hne.symm
    exact ⟨hhi, hlo, fun n hnj hnp => hother n hnp hnj, rfl⟩
  · rw [microA, bfgsAOp_eq _ _ _ _ hu.symm hv.symm]
    obtain ⟨hlo, hhi, hother⟩ := entryA_putA_pair rfl hj hp hne
    exact ⟨hlo, hhi, hother, rfl⟩

/-! ### Operands of ENG_B out of range -/

/-- A pair store with an operand out of range draws both entries (R128, U4). -/
theorem storePairB_undefined {j lg x y : Nat} {s : State} (h : 12289 ≤ s.coefB j ∨ 12289 ≤ s.coefB (partner j lg)) :
    storePairB j lg x y s =
      { (s.putB j (Config.freeB s.draws)).putB (partner j lg) (Config.freeB (s.draws + 1)) with draws := s.draws + 2 } :=
  if_neg fun ⟨hj, hp⟩ => h.elim (Nat.not_le_of_lt hj) (Nat.not_le_of_lt hp)

/-- The two butterflies write the same entries, so an operand out of range leaves the same free values after either. -/
theorem microB_pair_undefined {m : MicroB} {j lg x : Nat} {s : State} (hm : m = .bfct j lg x ∨ m = .bfgs j lg x)
    (h : 12289 ≤ s.coefB j ∨ 12289 ≤ s.coefB (partner j lg)) :
    microB m s =
      { (s.putB j (Config.freeB s.draws)).putB (partner j lg) (Config.freeB (s.draws + 1)) with draws := s.draws + 2 } := by
  rcases hm with rfl | rfl
  · exact storePairB_undefined h
  · exact storePairB_undefined h

theorem nscaleBOp_undefined {j logn : Nat} {s : State} (h : 12289 ≤ s.coefB j) :
    nscaleBOp j logn s = { s.putB j (Config.freeB s.draws) with draws := s.draws + 1 } :=
  if_neg (Nat.not_lt_of_le h)

/-- Settles O28: whichever the command, an operand out of range decides what its store writes. -/
theorem outOfRangeOperandLeavesFreeValues : Obligations.OutOfRangeOperandLeavesFreeValues := by
  rintro j lg x s d hs rfl
  refine ⟨fun hw hout i hi => ?_, fun _ hout => ?_⟩
  · obtain ⟨-, hrange⟩ := (butterflyRangeB_iff _ _).mp hw
    obtain ⟨m, hm, hu, hstep⟩ : ∃ m, (m = .bfct j.toNat lg.toNat x.toNat ∨ m = .bfgs j.toNat lg.toNat x.toNat) ∧
        unitOf i = .b ∧ bareStep i = engineStepB 1 fun _ => m := by
      rcases hi with rfl | rfl
      · exact ⟨_, .inl rfl, rfl, rfl⟩
      · exact ⟨_, .inr rfl, rfl, rfl⟩
    refine ⟨_, exec_single_b hu hstep hs, ?_⟩
    rw [microB_pair_undefined hm hout]
    obtain ⟨hlo, hhi, hother⟩ := entryB_putB_pair rfl j.isLt (Nat.lt_succ_of_le hrange) (partner_ne _ _)
    exact ⟨hlo, hhi, hother, rfl⟩
  · refine ⟨_, exec_single_b rfl rfl hs, ?_⟩
    rw [microB, nscaleBOp_undefined hout]
    exact ⟨entryB_putB_same s j.isLt _, fun n hn => entryB_putB_ne s hn.symm _, rfl⟩

end Sys2Proof.Machine

/-! What engine steps keep: a buffer of zeros, through every whole transform
(40_arith_primitives.md R130, 42_ring_a_transforms.md R150, 44_ring_b_transforms.md R185), and the range `[0, QB)` of BUF_B
(R128, 43_ring_b_butterflies.md R170). -/

namespace Sys2Proof.Machine

/-! ### Zero preservation in ENG_A -/

/-- Storing what an entry holds changes nothing. -/
theorem putA_eq_self {s : State} {i : Nat} {v : Word} (h : s.entryA i = v) : s.putA i v = s := by
  have hbuf : (s.putA i v).bufA = s.bufA := bufA_ext fun n hn => by
    by_cases hni : i = n
    · rw [← hni] at hn ⊢
      rw [entryA_putA_same _ hn, h]
    · exact entryA_putA_ne _ hni v
  exact congrArg (fun buf => { s with bufA := buf }) hbuf

theorem putB_eq_self {s : State} {i : Nat} {v : Half} (h : s.entryB i = v) : s.putB i v = s := by
  have hbuf : (s.putB i v).bufB = s.bufB := bufB_ext fun n hn => by
    by_cases hni : i = n
    · rw [← hni] at hn ⊢
      rw [entryB_putB_same _ hn, h]
    · exact entryB_putB_ne _ hni v
  exact congrArg (fun buf => { s with bufB := buf }) hbuf

/-- An entry outside a buffer reads as 0. -/
theorem entryA_outside (s : State) {i : Nat} (h : 256 ≤ i) : s.entryA i = 0 := by
  simp [State.entryA, h]

theorem entryB_outside (s : State) {i : Nat} (h : 1024 ≤ i) : s.entryB i = 0 := by
  simp [State.entryB, h]

theorem entryA_eq_zero {s : State} (h : ∀ i, i < 256 → s.coefA i = 0) (i : Nat) : s.entryA i = 0 := by
  by_cases hi : i < 256
  · exact BitVec.eq_of_toInt_eq (h i hi)
  · exact entryA_outside s (Nat.le_of_not_lt hi)

/-- A buffer of zeros is a fixed point of every micro-operation of ENG_A: each writes sums, differences and reductions of 0. -/
theorem microA_zero (m : MicroA) {s : State} (h : ∀ i, s.entryA i = 0) : microA m s = s := by
  have hcoef (i : Nat) : s.coefA i = 0 := congrArg BitVec.toInt (h i)
  have hput (i : Nat) : s.putA i (int32 0) = s := putA_eq_self (h i)
  have hfits : FitsInt32 0 := by decide
  cases m with
  | nothing => rfl
  | bfct j lg k =>
    rw [microA, bfctAOp_eq j lg k s (hcoef _) (by rw [hcoef, mul_zero, redcA_zero])]
    simp only [sub_zero, add_zero, if_pos hfits, hput]
  | bfgs j lg k =>
    rw [microA, bfgsAOp_eq j lg k s (hcoef _) (hcoef _)]
    simp only [sub_zero, add_zero, mul_zero, redcA_zero, if_pos hfits, hput]
  | fscale j => rw [microA, fscaleAOp, hcoef, mul_zero, redcA_zero, hput]
  | redc j => rw [microA, redcAOp, hcoef, redcA_zero, hput]
  | freeze j => rw [microA, freezeAOp, hcoef, freezeA, Int.zero_emod, hput]

theorem runMicroA_eq_self {ms : List MicroA} {s : State} (h : ∀ m ∈ ms, microA m s = s) : runMicroA ms s = s := by
  induction ms with
  | nil => rfl
  | cons m ms ih =>
    rw [runMicroA, List.foldl_cons, h m List.mem_cons_self]
    exact ih fun m' hm' => h m' (List.mem_cons_of_mem m hm')

theorem runMicroB_eq_self {ms : List MicroB} {s : State} (h : ∀ m ∈ ms, microB m s = s) : runMicroB ms s = s := by
  induction ms with
  | nil => rfl
  | cons m ms ih =>
    rw [runMicroB, List.foldl_cons, h m List.mem_cons_self]
    exact ih fun m' hm' => h m' (List.mem_cons_of_mem m hm')

/-! ### The entries a transform of ENG_B touches -/

/-- The micro-operation reads and writes entries below `n` only. -/
def MicroB.Within (n : Nat) : MicroB → Prop
  | .nothing => True
  | .bfct j lg _ => partner j lg < n
  | .bfgs j lg _ => partner j lg < n
  | .nscale j _ => j < n

theorem lt_partner (j lg : Nat) : j < partner j lg := Nat.lt_add_of_pos_right (Nat.two_pow_pos lg)

section WithinB
variable {l d p : Nat} (hd : d < l) (hp : p < 2 ^ (l - 1))
include hd hp

theorem forwardB_within : (forwardB l d p).Within (2 ^ l) := by
  have hlayer : 2 ^ d * 2 ^ (l - 1 - d) = 2 ^ (l - 1) := two_pow_layer hd
  have hidx := blockIndex_lt (hlayer.symm ▸ hp)
  rwa [hlayer, mul_pow_sub_one (Nat.ne_zero_of_lt hd)] at hidx

theorem inverseB_within : (inverseB l d p).Within (2 ^ l) := by
  have hlayer : 2 ^ (l - 1 - d) * 2 ^ d = 2 ^ (l - 1) := (Nat.mul_comm _ _).trans (two_pow_layer hd)
  have hidx := blockIndex_lt (hlayer.symm ▸ hp)
  rwa [hlayer, mul_pow_sub_one (Nat.ne_zero_of_lt hd)] at hidx

end WithinB

section LoopsWithin
variable {l : Nat} (hl : 1 ≤ l) {m : MicroB}
include hl

theorem loopNttB_within (hm : m ∈ loopNttB l) : m.Within (2 ^ l) := by
  rw [← map_uopNttB hl] at hm
  obtain ⟨k, hk, rfl⟩ := List.mem_map.mp hm
  rw [List.mem_range] at hk
  rw [uopNttB_eq hl hk]
  exact forwardB_within (block_lt hk) (Nat.mod_lt _ (Nat.two_pow_pos _))

theorem loopInttB_within (hm : m ∈ loopInttB l) : m.Within (2 ^ l) := by
  rw [← map_uopInttB hl] at hm
  obtain ⟨k, hk, rfl⟩ := List.mem_map.mp hm
  rw [List.mem_range] at hk
  by_cases hlayers : k < l * 2 ^ (l - 1)
  · rw [uopInttB_eq hl hlayers]
    exact inverseB_within (block_lt hlayers) (Nat.mod_lt _ (Nat.two_pow_pos _))
  · rw [uopInttB_scale hl (Nat.not_lt.mp hlayers)]
    exact Nat.sub_lt_left_of_lt_add (Nat.not_lt.mp hlayers) hk

end LoopsWithin

/-! ### Zero preservation in ENG_B -/

theorem mqAdd_zero : mqAdd 0 0 = 0 := rfl

theorem mqSub_zero : mqSub 0 0 = 0 := rfl

theorem mqMul_zero_left (y : Nat) : mqMul 0 y = 0 := by rw [mqMul, Nat.zero_mul, Nat.zero_mod]

theorem putB_zero {s : State} {i : Nat} (h : s.coefB i = 0) : s.putB i (u16 0) = s :=
  putB_eq_self (BitVec.eq_of_toNat_eq (y := u16 0) h)

theorem storePairB_zero {j lg : Nat} {s : State} (hj : s.coefB j = 0) (hp : s.coefB (partner j lg) = 0) :
    storePairB j lg 0 0 s = s := by
  have hstore : storePairB j lg 0 0 s = (s.putB j (u16 0)).putB (partner j lg) (u16 0) :=
    if_pos (by rw [hj, hp]; exact ⟨QB_pos, QB_pos⟩)
  rw [hstore, putB_zero hj, putB_zero hp]

/-- Zeros in the entries a micro-operation of ENG_B touches are a fixed point of it. -/
theorem microB_zero {m : MicroB} {n : Nat} (hm : m.Within n) {s : State} (h : ∀ i, i < n → s.coefB i = 0) :
    microB m s = s := by
  cases m with
  | nothing => rfl
  | bfct j lg x =>
    have hp := h _ hm
    have hj := h j ((lt_partner j lg).trans hm)
    simp only [microB, bfctBOp, hj, hp, mqMul_zero_left, mqAdd_zero, mqSub_zero]
    exact storePairB_zero hj hp
  | bfgs j lg x =>
    have hp := h _ hm
    have hj := h j ((lt_partner j lg).trans hm)
    simp only [microB, bfgsBOp, hj, hp, mqMul_zero_left, mqAdd_zero, mqSub_zero]
    exact storePairB_zero hj hp
  | nscale j logn =>
    have hj := h j hm
    simp only [microB, nscaleBOp, hj, mqMul_zero_left, if_pos QB_pos]
    exact putB_zero hj

/-- Settles O38: every micro-operation of each loop nest leaves the zeros as they are. -/
theorem zeroBufferIsAFixedPoint : Obligations.ZeroBufferIsAFixedPoint := by
  refine ⟨fun s hs h => ?_, fun logn s h1 h10 hs h => ?_⟩
  · obtain ⟨hntt, hmont, hintt⟩ := ringAMacrosRunTheirLoopNests s hs
    have fixed (ms : List MicroA) : runMicroA ms s = s := runMicroA_eq_self fun m _ => microA_zero m (entryA_eq_zero h)
    rw [fixed] at hntt hmont hintt
    exact ⟨⟨_, hntt, rfl, rfl⟩, ⟨_, hmont, rfl, rfl⟩, ⟨_, hintt, rfl, rfl⟩⟩
  · obtain ⟨hntt, hintt⟩ := ringBMacrosRunTheirLoopNests logn s _ _ h1 h10 rfl rfl hs
    rw [runMicroB_eq_self fun m hm => microB_zero (loopNttB_within h1 hm) h] at hntt
    rw [runMicroB_eq_self fun m hm => microB_zero (loopInttB_within h1 hm) h] at hintt
    rw [stepsNttB_eq h1, stepsInttB_eq h1]
    exact ⟨⟨_, hntt, rfl, rfl⟩, ⟨_, hintt, rfl, rfl⟩⟩

/-! ### Canonical entries in ENG_B -/

section Canonical
variable {s : State} (h : CanonicalBufB 1024 s)
include h

/-- An index outside BUF_B reads 0, so on a canonical buffer every operand is in range. -/
theorem coefB_canonical (i : Nat) : CanonicalB (s.coefB i) := by
  by_cases hi : i < 1024
  · exact h i hi
  · rw [State.coefB, entryB_outside s (Nat.le_of_not_lt hi)]
    exact QB_pos

theorem putB_canonical (i : Nat) {v : Nat} (hv : v < QB) : CanonicalBufB 1024 (s.putB i (u16 v)) := by
  intro n hn
  by_cases hni : i = n
  · rw [← hni] at hn ⊢
    rw [State.coefB, entryB_putB_same s hn, u16_toNat_of_lt hv]
    exact hv
  · rw [State.coefB, entryB_putB_ne s hni]
    exact h n hn

theorem storePairB_canonical (j lg : Nat) {x y : Nat} (hx : x < QB) (hy : y < QB) :
    CanonicalBufB 1024 (storePairB j lg x y s) ∧ NothingUndefined s (storePairB j lg x y s) := by
  have hstore : storePairB j lg x y s = (s.putB j (u16 x)).putB (partner j lg) (u16 y) :=
    if_pos ⟨coefB_canonical h j, coefB_canonical h _⟩
  rw [hstore]
  exact ⟨putB_canonical (putB_canonical h j hx) _ hy, rfl⟩

/-- A micro-operation of ENG_B keeps a canonical buffer canonical and draws no free value. -/
theorem microB_canonical (m : MicroB) : CanonicalBufB 1024 (microB m s) ∧ NothingUndefined s (microB m s) := by
  cases m with
  | nothing => exact ⟨h, rfl⟩
  | bfct j lg x => exact storePairB_canonical h j lg (mqAdd_lt _ _) (mqSub_lt _ _)
  | bfgs j lg x => exact storePairB_canonical h j lg (mqAdd_lt _ _) (mqMul_lt _ _)
  | nscale j logn =>
    rw [microB, nscaleBOp, if_pos (coefB_canonical h j)]
    exact ⟨putB_canonical h j (mqMul_lt _ _), rfl⟩

end Canonical

/-- An ENG_B command with a step count has a micro-operation at every step. -/
theorem stepsAsB_of_stepCount {i : Instr} {n : Nat} (hu : unitOf i = .b) (hn : stepCount i = some n) (k : Nat) :
    ∃ m, StepsAsB i n k m := by
  cases i with
  | nopB | bfctB | bfgsB | nscaleB =>
    cases hn
    exact ⟨_, rfl, fun _ => _, rfl, rfl⟩
  | nttB logn =>
    obtain ⟨hl, hn⟩ := Option.ite_none_right_eq_some.mp hn
    obtain ⟨h1, h10⟩ := (legalLogn_iff _).mp hl
    cases hn
    exact ⟨_, nttB_stepsAs h1 h10 k⟩
  | inttB logn =>
    obtain ⟨hl, hn⟩ := Option.ite_none_right_eq_some.mp hn
    obtain ⟨h1, h10⟩ := (legalLogn_iff _).mp hl
    cases hn
    exact ⟨_, inttB_stepsAs h1 h10 k⟩
  | _ => cases hu

/-- Settles O43: a step of a defined command is a micro-operation of its schedule, and every operand of it is in range. -/
theorem ringBStaysCanonical : Obligations.RingBStaysCanonical := by
  intro i k n s hu _ hn hs h
  obtain ⟨m, hm⟩ := stepsAsB_of_stepCount hu hn k
  exact ⟨_, exec_schedule_b hm hs, microB_canonical h m⟩

end Sys2Proof.Machine

/-! The single-step commands of ENG_A: their words, what the twiddles make of the Montgomery reduction, and the exact result
and frame of each command (41_ring_a_butterflies.md R141 to R145). -/

namespace Sys2Proof

theorem toNat_append_eq_add {n m : Nat} (x : BitVec n) (y : BitVec m) : (x ++ y).toNat = x.toNat * 2 ^ m + y.toNat := by
  rw [BitVec.toNat_append, ← Nat.shiftLeft_add_eq_or_of_lt y.isLt, Nat.shiftLeft_eq]

/-- A command word is the sum of its fields, each at its place (R91). -/
theorem toNat_assemble (o : Opcode) (idx : BitVec 10) (lg : BitVec 4) (tw : BitVec 10) :
    (assemble o idx lg tw).toNat = o.code.toNat + idx.toNat * 2 ^ 8 + lg.toNat * 2 ^ 18 + tw.toNat * 2 ^ 22 := by
  rw [assemble, toNat_append_eq_add, toNat_append_eq_add, toNat_append_eq_add]
  omega

/-- A command word of format I (R92) holds the opcode and the index, the other fields being 0. -/
theorem toNat_assemble_index (o : Opcode) (idx : BitVec 10) :
    (assemble o idx 0 0).toNat = o.code.toNat + idx.toNat * 2 ^ 8 := by
  simp [toNat_assemble]

end Sys2Proof

namespace Sys2Proof.Machine

/-! ### The factors of ENG_A -/

theorem congruentMod_iff_modEq {a b q : Int} : CongruentMod a b q ↔ a ≡ b [ZMOD q] :=
  Int.emod_eq_emod_iff_emod_sub_eq_zero.symm

/-- The centred residue (R17) is a residue. -/
theorem centred_modEq (x q : Int) : centred x q ≡ x [ZMOD q] := by
  unfold centred
  split
  · exact Int.sub_modulus_modEq_iff.mpr (Int.mod_modEq x q)
  · exact Int.mod_modEq x q

/-- A twiddle is a power of the root, scaled by the radix (R210). -/
theorem zetaA_modEq {k : Nat} (hk : 1 ≤ k) : zetaA k ≡ 2 ^ 32 * 1753 ^ brv 8 k [ZMOD 8380417] := by
  have hradix : RMODQ_A ≡ 2 ^ 32 [ZMOD 8380417] := by decide
  rw [zetaA, if_neg (Nat.one_le_iff_ne_zero.mp hk)]
  exact (centred_modEq _ _).trans (hradix.mul_right _)

/-- The reduction takes the radix out of a scaled factor. -/
theorem redcA_scaled_congruent {z w : Int} (hz : z ≡ 2 ^ 32 * w [ZMOD 8380417]) (v : Int) :
    CongruentMod (redcA (z * v)) (w * v) 8380417 := by
  have hinverse : (2 ^ 32 * 8265825 : Int) ≡ 1 [ZMOD 8380417] := by decide
  rw [congruentMod_iff_modEq]
  calc redcA (z * v) ≡ z * v * 8265825 [ZMOD 8380417] := congruentMod_iff_modEq.mp (redcA_congruent _)
    _ ≡ 2 ^ 32 * w * v * 8265825 [ZMOD 8380417] := (hz.mul_right v).mul_right _
    _ = 2 ^ 32 * 8265825 * (w * v) := by ring
    _ ≡ 1 * (w * v) [ZMOD 8380417] := hinverse.mul_right _
    _ = w * v := one_mul _

/-- The scaling constant is `RA² / 256`, and the reduction takes one radix out of it (R143). -/
theorem redcA_scaling_congruent (v : Int) : CongruentMod (256 * redcA (41978 * v)) (v * 2 ^ 32) 8380417 := by
  have h := redcA_congruent (41978 * v)
  unfold CongruentMod at h ⊢
  omega

/-- The bound of R144: in the sum that REDC_A divides, an int32 is at most half a radix and the rest at most QA halves of
one. -/
theorem abs_redcA_le_of_fitsInt32 {v : Int} (hv : FitsInt32 v) : |redcA v| ≤ 4190209 := by
  obtain ⟨hvl, hvh⟩ := hv
  obtain ⟨hml, hmh⟩ := fitsInt32_redcFactor v
  have h := redcA_mul_radix v
  rw [abs_le]
  omega

theorem fitsInt32_redcA {v : Int} (hv : FitsInt32 v) : FitsInt32 (redcA v) :=
  fitsInt32_of_abs_lt ((abs_redcA_le_of_fitsInt32 hv).trans_lt (by decide))

/-! ### The butterflies -/

theorem coefA_of_entryA {s : State} {i : Nat} {v : Int} (h : s.entryA i = int32 v) (hv : FitsInt32 v) : s.coefA i = v := by
  rw [State.coefA, h, int32_toInt hv]

/-- Settles O18: where both stores fit, the cases of O20 that draw no free value. -/
theorem bfctAButterfly : Obligations.BfctAButterfly := by
  rintro j lg k d rfl
  refine ⟨toNat_assemble _ _ _ _, ?_⟩
  rintro hlg hj hk1 hk s t hs rfl
  obtain ⟨-, -, -, -, habs, -⟩ := engineProductsReduceBelowQA _ k.toNat _ (coefA_fits s (j.toNat + 2 ^ lg.toNat))
    (Nat.lt_succ_of_le hk) (.inl rfl)
  refine ⟨habs, redcA_scaled_congruent (zetaA_modEq hk1) _, fun hlo hhi => ?_⟩
  obtain ⟨⟨r, hr, hrp, hrj, hother, hframe⟩, -⟩ := butterflyOverflowLeavesFreeValues j lg k s _ _ _ _ hs
    ((butterflyRangeA_iff _ _ _).mpr ⟨hlg, hj, hk1, hk⟩) rfl rfl rfl rfl
  rw [if_pos hlo] at hrp hframe
  rw [if_pos hhi] at hrj hframe
  exact ⟨r, hr, coefA_of_entryA hrp hlo, coefA_of_entryA hrj hhi, hother, hframe⟩

/-- Settles O19: where the sum and the difference fit, the cases of O20 that draw no free value. -/
theorem bfgsAButterfly : Obligations.BfgsAButterfly := by
  rintro j lg k d rfl
  refine ⟨toNat_assemble _ _ _ _, ?_⟩
  rintro hlg hj hk1 hk s u v p hs rfl rfl rfl hsum hdiff
  have hz : -zetaA k.toNat ≡ 2 ^ 32 * -(1753 ^ brv 8 k.toNat) [ZMOD 8380417] := by
    rw [mul_neg]
    exact (zetaA_modEq hk1).neg
  obtain ⟨-, -, -, -, habs, hfits⟩ := engineProductsReduceBelowQA _ k.toNat _ hdiff (Nat.lt_succ_of_le hk)
    (.inr (.inl rfl))
  refine ⟨habs, redcA_scaled_congruent hz _, ?_⟩
  obtain ⟨-, r, hr, hrj, hrp, hother, hframe⟩ := butterflyOverflowLeavesFreeValues j lg k s _ _ _ _ hs
    ((butterflyRangeA_iff _ _ _).mpr ⟨hlg, hj, hk1, hk⟩) rfl rfl rfl rfl
  rw [if_pos hsum] at hrj hframe
  rw [if_pos hdiff] at hrp hframe
  exact ⟨r, hr, coefA_of_entryA hrj hsum, coefA_of_entryA hrp hfits, hother, hframe⟩

/-! ### The commands that write one coefficient -/

/-- A single-step command whose micro-operation stores one int32 writes that entry and completes. -/
theorem exec_store_a {i : Instr} {m : MicroA} (hu : unitOf i = .a) (hm : bareStep i = engineStepA 1 fun _ => m) {s : State}
    (hs : RunningA 0 s) {j : Nat} (hj : j ≤ 255) {v : Int} (hput : microA m s = s.putA j (int32 v)) (hv : FitsInt32 v) :
    ∃ r, exec i s = .next r ∧ r.coefA j = v ∧ (∀ n, n ≠ j → r.entryA n = s.entryA n) ∧
      r = { s with bufA := r.bufA, a := finishedA s } := by
  refine ⟨_, exec_single_a hu hm hs, ?_⟩
  rw [hput]
  exact ⟨coefA_of_entryA (entryA_putA_same s (Nat.lt_succ_of_le hj) _) hv, fun n hn => entryA_putA_ne s hn.symm _, rfl⟩

/-- Settles O21: one int32 is stored, the reduced product with the scaling constant. -/
theorem fscaleAResult : Obligations.FscaleAResult := by
  intro j s hs hj
  obtain ⟨-, -, -, -, habs, hfits⟩ := engineProductsReduceBelowQA _ 0 _ (coefA_fits s j.toNat) (by decide)
    (.inr (.inr (.inl rfl)))
  obtain ⟨r, hr, hres, hother, hframe⟩ := exec_store_a (i := .fscaleA j) rfl rfl hs hj rfl hfits
  refine ⟨toNat_assemble_index _ _, r, hr, hres, ?_, ?_, hother, hframe⟩ <;> rw [hres]
  · exact redcA_scaling_congruent _
  · exact habs

/-- Settles O22: one int32 is stored, the reduced coefficient. -/
theorem redcAResult : Obligations.RedcAResult := by
  intro j s hs hj
  have hfits := coefA_fits s j.toNat
  obtain ⟨r, hr, hres, hother, hframe⟩ := exec_store_a (i := .redcA j) rfl rfl hs hj rfl (fitsInt32_redcA hfits)
  refine ⟨toNat_assemble_index _ _, r, hr, hres, ?_, ?_, hother, hframe⟩ <;> rw [hres]
  · exact redcA_mul_radix_congruent _
  · exact abs_redcA_le_of_fitsInt32 hfits

/-- The freeze step leaves a canonical coefficient as it is. -/
theorem freezeAOp_eq_self {s : State} {j : Nat} (h : freezeA (s.coefA j) = s.coefA j) : freezeAOp j s = s := by
  rw [freezeAOp, h]
  exact putA_eq_self BitVec.ofInt_toInt.symm

/-- Settles O23: a second freeze meets a remainder by QA. -/
theorem freezeAResult : Obligations.FreezeAResult := by
  intro j s hs hj
  obtain ⟨r, hr, hres, hother, hframe⟩ := exec_store_a (i := .freezeA j) rfl rfl hs hj rfl
    (fitsInt32_freezeA (s.coefA j.toNat))
  refine ⟨toNat_assemble_index _ _, r, hr, hres, hother, hframe, fun r' hbuf hs' => ?_⟩
  have hcoef : r'.coefA j.toNat = freezeA (s.coefA j.toNat) :=
    (congrArg BitVec.toInt (entryA_congr hbuf _)).trans hres
  have hfrozen : freezeA (r'.coefA j.toNat) = r'.coefA j.toNat := by
    rw [hcoef, freezeA, freezeA, Int.emod_emod_of_dvd _ dvd_rfl]
  refine ⟨_, exec_single_a rfl rfl hs', ?_⟩
  rw [microA, freezeAOp_eq_self hfrozen]
  exact hbuf

end Sys2Proof.Machine

/-! The schedule functions against the loop nests (42_ring_a_transforms.md R158, 44_ring_b_transforms.md R182). -/

namespace Sys2Proof.Machine

/-- Settles O33: the schedules of the five transforms, each against its loop nest. -/
theorem schedulesEnumerateTheLoopNests : Obligations.SchedulesEnumerateTheLoopNests :=
  ⟨map_uopNttA, map_uopInttAMont, map_uopInttA, fun _ h1 _ => ⟨map_uopNttB h1, map_uopInttB h1⟩⟩

end Sys2Proof.Machine

/-! What a list of micro-operations of ENG_A computes where no store overflows, and the layers of the transforms: which butterfly
touches an entry, and what a whole layer of disjoint butterflies makes of a buffer (42_ring_a_transforms.md R150, R151, R158,
R160). -/

namespace Sys2Proof.Machine

/-! ### What a list of micro-operations computes -/

/-- On every buffer that holds `c` in the entries `S`, the micro-operations leave `c'` in them, touch no other entry and
overflow nowhere. -/
def Computes (ms : List MicroA) (S : Nat → Prop) (c c' : Nat → Int) : Prop :=
  ∀ s : State, (∀ i, S i → s.coefA i = c i) →
    (∀ i, S i → (runMicroA ms s).coefA i = c' i) ∧ (∀ i, ¬ S i → (runMicroA ms s).coefA i = s.coefA i) ∧
      NothingUndefined s (runMicroA ms s)

theorem runMicroA_append (ms ms' : List MicroA) (s : State) : runMicroA (ms ++ ms') s = runMicroA ms' (runMicroA ms s) :=
  List.foldl_append

section Composition
variable {S : Nat → Prop} {c c' c'' : Nat → Int} {ms ms' : List MicroA}

theorem computes_nil : Computes [] S c c := fun _ hs => ⟨hs, fun _ _ => rfl, rfl⟩

theorem Computes.append (h : Computes ms S c c') (h' : Computes ms' S c' c'') : Computes (ms ++ ms') S c c'' := by
  intro s hs
  obtain ⟨hval, hframe, hdraws⟩ := h s hs
  obtain ⟨hval', hframe', hdraws'⟩ := h' _ hval
  rw [runMicroA_append]
  exact ⟨hval', fun i hi => (hframe' i hi).trans (hframe i hi), hdraws'.trans hdraws⟩

/-- Passes over the same entries, one after another. -/
theorem computes_passes {pass : Nat → List MicroA} {cs : Nat → Nat → Int} (n : Nat)
    (h : ∀ d, d < n → Computes (pass d) S (cs d) (cs (d + 1))) :
    Computes ((List.range n).flatMap pass) S (cs 0) (cs n) := by
  induction n with
  | zero => exact computes_nil
  | succ n ih =>
    rw [List.range_succ, List.flatMap_append, List.flatMap_singleton]
    exact (ih fun d hd => h d (Nat.lt_succ_of_lt hd)).append (h n (Nat.lt_succ_self n))

/-- Groups of micro-operations on disjoint sets of entries: each finds its entries as they were before the first (R160). -/
theorem computes_disjoint {group : Nat → List MicroA} {T : Nat → Nat → Prop}
    (hdisjoint : ∀ p q i, T p i → T q i → p = q) (n : Nat) (h : ∀ p, p < n → Computes (group p) (T p) c c') :
    Computes ((List.range n).flatMap group) (fun i => ∃ p, p < n ∧ T p i) c c' := by
  induction n with
  | zero => exact fun s _ => ⟨fun i ⟨p, hp, _⟩ => absurd hp (Nat.not_lt_zero p), fun _ _ => rfl, rfl⟩
  | succ n ih =>
    intro s hs
    rw [List.range_succ, List.flatMap_append, List.flatMap_singleton, runMicroA_append]
    obtain ⟨hval, hframe, hdraws⟩ := ih (fun p hp => h p (Nat.lt_succ_of_lt hp)) s
      fun i ⟨p, hp, hi⟩ => hs i ⟨p, Nat.lt_succ_of_lt hp, hi⟩
    have hfresh (i : Nat) (hi : T n i) : ¬ ∃ p, p < n ∧ T p i := fun ⟨p, hp, hpi⟩ => hp.ne (hdisjoint p n i hpi hi)
    obtain ⟨hval', hframe', hdraws'⟩ := h n (Nat.lt_succ_self n) (runMicroA ((List.range n).flatMap group) s)
      fun i hi => (hframe i (hfresh i hi)).trans (hs i ⟨n, Nat.lt_succ_self n, hi⟩)
    refine ⟨fun i ⟨p, hp, hi⟩ => ?_, fun i hi => ?_, hdraws'.trans hdraws⟩
    · rcases Nat.lt_succ_iff_lt_or_eq.mp hp with hlt | rfl
      · exact (hframe' i fun hn => hlt.ne (hdisjoint p n i hi hn)).trans (hval i ⟨p, hlt, hi⟩)
      · exact hval' i hi
    · exact (hframe' i fun hn => hi ⟨n, Nat.lt_succ_self n, hn⟩).trans
        (hframe i fun ⟨p, hp, hpi⟩ => hi ⟨p, Nat.lt_succ_of_lt hp, hpi⟩)

end Composition

/-! ### What one micro-operation computes -/

section MicroOperations
variable {c c' : Nat → Int} {j lg k : Nat}

/-- A butterfly of R141 whose two results fit. -/
theorem computes_bfct {t : Int} (hp : partner j lg < 256) (ht : redcA (zetaA k * c (partner j lg)) = t)
    (hlo : c' j = c j + t) (hhi : c' (partner j lg) = c j - t) (hfitlo : FitsInt32 (c' j))
    (hfithi : FitsInt32 (c' (partner j lg))) :
    Computes [.bfct j lg k] (fun i => i = j ∨ i = partner j lg) c c' := by
  intro s hs
  have hu : s.coefA j = c j := hs j (.inl rfl)
  have hv : s.coefA (partner j lg) = c (partner j lg) := hs _ (.inr rfl)
  have hrun : runMicroA [.bfct j lg k] s = (s.putA (partner j lg) (int32 (c' (partner j lg)))).putA j (int32 (c' j)) := by
    rw [hlo] at hfitlo ⊢
    rw [hhi] at hfithi ⊢
    rw [runMicroA, List.foldl_cons, List.foldl_nil, microA, bfctAOp_eq j lg k s hu (by rw [hv, ht])]
    simp only [if_pos hfitlo, if_pos hfithi]
    rfl
  obtain ⟨hentryhi, hentrylo, hother⟩ := entryA_putA_pair (congrArg State.bufA hrun) hp ((lt_partner j lg).trans hp)
    (partner_ne j lg).symm
  refine ⟨?_, fun i hi => congrArg BitVec.toInt (hother i (fun h => hi (.inr h)) fun h => hi (.inl h)),
    (congrArg State.draws hrun :)⟩
  rintro i (rfl | rfl)
  · exact coefA_of_entryA hentrylo hfitlo
  · exact coefA_of_entryA hentryhi hfithi

/-- A butterfly of R142 whose sum and difference fit. -/
theorem computes_bfgs (hp : partner j lg < 256) (hsum : FitsInt32 (c j + c (partner j lg)))
    (hdiff : FitsInt32 (c j - c (partner j lg))) (hlo : c' j = c j + c (partner j lg))
    (hhi : c' (partner j lg) = redcA (-zetaA k * (c j - c (partner j lg))))
    (hfithi : FitsInt32 (c' (partner j lg))) :
    Computes [.bfgs j lg k] (fun i => i = j ∨ i = partner j lg) c c' := by
  intro s hs
  have hu : s.coefA j = c j := hs j (.inl rfl)
  have hv : s.coefA (partner j lg) = c (partner j lg) := hs _ (.inr rfl)
  have hrun : runMicroA [.bfgs j lg k] s = (s.putA j (int32 (c' j))).putA (partner j lg) (int32 (c' (partner j lg))) := by
    rw [runMicroA, List.foldl_cons, List.foldl_nil, microA, bfgsAOp_eq j lg k s hu hv, hlo, hhi]
    simp only [if_pos hsum, if_pos hdiff]
    rfl
  obtain ⟨hentrylo, hentryhi, hother⟩ := entryA_putA_pair (congrArg State.bufA hrun) ((lt_partner j lg).trans hp) hp
    (partner_ne j lg)
  refine ⟨?_, fun i hi => congrArg BitVec.toInt (hother i (fun h => hi (.inl h)) fun h => hi (.inr h)),
    (congrArg State.draws hrun :)⟩
  rintro i (rfl | rfl)
  · exact coefA_of_entryA hentrylo (hlo ▸ hsum)
  · exact coefA_of_entryA hentryhi hfithi

/-- A micro-operation that stores one int32 computed from the entry itself. -/
theorem computes_store {m : MicroA} {f : Int → Int} (hj : j < 256) (hm : ∀ s, microA m s = s.putA j (int32 (f (s.coefA j))))
    (hf : ∀ v, FitsInt32 v → FitsInt32 (f v)) : Computes [m] (fun i => i = j) c fun i => f (c i) := by
  intro s hs
  have hrun : runMicroA [m] s = s.putA j (int32 (f (s.coefA j))) := hm s
  rw [hrun]
  refine ⟨?_, fun i hi => congrArg BitVec.toInt (entryA_putA_ne s (Ne.symm hi) _), rfl⟩
  rintro i rfl
  rw [coefA_of_entryA (entryA_putA_same s hj _) (hf _ (coefA_fits s i)), hs i rfl]

end MicroOperations

/-! ### Which butterfly of a layer touches an entry -/

/-- The first entry of butterfly `p` of the layer at distance `2^e` (R158). -/
def low (e p : Nat) : Nat := 2 * 2 ^ e * (p / 2 ^ e) + p % 2 ^ e

/-- The second one. -/
def high (e p : Nat) : Nat := partner (low e p) e

/-- The butterfly that touches entry `i`. -/
def butterflyOf (e i : Nat) : Nat := 2 ^ e * (i / (2 * 2 ^ e)) + i % 2 ^ e

section Indices
variable (e p : Nat)

theorem high_eq : high e p = low e p + 2 ^ e := rfl

theorem low_ne_high : low e p ≠ high e p := partner_ne _ _

/-- Block and offset of the first entry, in blocks of `2·2^e` and in blocks of `2^e`. -/
theorem low_block : low e p / (2 * 2 ^ e) = p / 2 ^ e ∧ low e p % (2 * 2 ^ e) = p % 2 ^ e :=
  (Nat.div_mod_unique (by positivity)).mpr
    ⟨Nat.add_comm _ _, (Nat.mod_lt p (Nat.two_pow_pos e)).trans_le (Nat.le_mul_of_pos_left _ Nat.two_pos)⟩

theorem low_half : low e p / 2 ^ e = 2 * (p / 2 ^ e) ∧ low e p % 2 ^ e = p % 2 ^ e :=
  (Nat.div_mod_unique (Nat.two_pow_pos e)).mpr ⟨by rw [low]; ring, Nat.mod_lt p (Nat.two_pow_pos e)⟩

/-- Block and offset of the second entry. -/
theorem high_block : high e p / (2 * 2 ^ e) = p / 2 ^ e ∧ high e p % (2 * 2 ^ e) = p % 2 ^ e + 2 ^ e :=
  (Nat.div_mod_unique (by positivity)).mpr
    ⟨by rw [high_eq, low]; ring, by have := Nat.mod_lt p (Nat.two_pow_pos e); omega⟩

theorem high_half : high e p / 2 ^ e = 2 * (p / 2 ^ e) + 1 ∧ high e p % 2 ^ e = p % 2 ^ e :=
  (Nat.div_mod_unique (Nat.two_pow_pos e)).mpr ⟨by rw [high_eq, low]; ring, Nat.mod_lt p (Nat.two_pow_pos e)⟩

@[simp] theorem butterflyOf_low : butterflyOf e (low e p) = p := by
  rw [butterflyOf, (low_block e p).1, (low_half e p).2, Nat.div_add_mod]

@[simp] theorem butterflyOf_high : butterflyOf e (high e p) = p := by
  rw [butterflyOf, (high_block e p).1, (high_half e p).2, Nat.div_add_mod]

theorem butterflyOf_touched {i : Nat} (h : i = low e p ∨ i = high e p) : butterflyOf e i = p := by
  rcases h with rfl | rfl
  · exact butterflyOf_low e p
  · exact butterflyOf_high e p

variable {e p}

theorem high_lt (he : e ≤ 7) (hp : p < 128) : high e p < 256 := by
  have hlayer : 2 ^ (7 - e) * 2 ^ e = 128 := by rw [← Nat.pow_add, Nat.sub_add_cancel he]
  have h := blockIndex_lt (hlayer.symm ▸ hp)
  rwa [hlayer] at h

theorem low_lt (he : e ≤ 7) (hp : p < 128) : low e p < 256 := (lt_partner _ _).trans (high_lt he hp)

/-- The 128 butterflies of a layer touch every entry. -/
theorem touched_iff (he : e ≤ 7) (i : Nat) : (∃ p, p < 128 ∧ (i = low e p ∨ i = high e p)) ↔ i < 256 := by
  refine ⟨?_, fun hi => ⟨butterflyOf e i, ?_, ?_⟩⟩
  · rintro ⟨p, hp, rfl | rfl⟩
    · exact low_lt he hp
    · exact high_lt he hp
  · have hlayer : 2 ^ (7 - e) * (2 * 2 ^ e) = 256 := by
      rw [← Nat.pow_succ', ← Nat.pow_add, show 7 - e + (e + 1) = 8 by omega]
    have hblock : i / (2 * 2 ^ e) + 1 ≤ 2 ^ (7 - e) := block_lt (hlayer.symm ▸ hi)
    have hmod := Nat.mod_lt i (Nat.two_pow_pos e)
    calc butterflyOf e i < 2 ^ e * (i / (2 * 2 ^ e) + 1) := by rw [butterflyOf, Nat.mul_succ]; omega
      _ ≤ 2 ^ e * 2 ^ (7 - e) := Nat.mul_le_mul_left _ hblock
      _ = 128 := by rw [← Nat.pow_add, Nat.add_sub_cancel' he]
  · obtain ⟨hdiv, hmod⟩ : butterflyOf e i / 2 ^ e = i / (2 * 2 ^ e) ∧ butterflyOf e i % 2 ^ e = i % 2 ^ e :=
      (Nat.div_mod_unique (Nat.two_pow_pos e)).mpr ⟨Nat.add_comm _ _, Nat.mod_lt i (Nat.two_pow_pos e)⟩
    have hlow : low e (butterflyOf e i) = 2 * 2 ^ e * (i / (2 * 2 ^ e)) + i % 2 ^ e := by rw [low, hdiv, hmod]
    have hi' := Nat.div_add_mod i (2 * 2 ^ e)
    have hsplit : i % (2 * 2 ^ e) = i % 2 ^ e + 2 ^ e * (i / 2 ^ e % 2) := by rw [Nat.mul_comm 2, Nat.mod_mul]
    rw [high_eq, hlow]
    rcases Nat.mod_two_eq_zero_or_one (i / 2 ^ e) with h0 | h1
    · rw [h0] at hsplit
      exact .inl (by omega)
    · rw [h1] at hsplit
      exact .inr (by omega)

/-- What holds of both entries of every butterfly of a layer holds of every entry. -/
theorem forall_touched (he : e ≤ 7) {P : Nat → Prop} (h : ∀ p, p < 128 → P (low e p) ∧ P (high e p)) (i : Nat)
    (hi : i < 256) : P i := by
  obtain ⟨p, hp, rfl | rfl⟩ := (touched_iff he i).mpr hi
  · exact (h p hp).1
  · exact (h p hp).2

end Indices

/-! ### Layers -/

/-- What the layer of R150 at distance `2^e` makes of the coefficients `c`. -/
def forwardPass (e : Nat) (c : Nat → Int) (i : Nat) : Int :=
  let p := butterflyOf e i
  let t := redcA (zetaA (2 ^ (7 - e) + p / 2 ^ e) * c (high e p))
  if i = low e p then c (low e p) + t else c (low e p) - t

/-- What the layer of R151 at distance `2^e` makes of the coefficients `c`. -/
def inversePass (e : Nat) (c : Nat → Int) (i : Nat) : Int :=
  let p := butterflyOf e i
  if i = low e p then c (low e p) + c (high e p)
  else redcA (-zetaA (2 ^ (8 - e) - 1 - p / 2 ^ e) * (c (low e p) - c (high e p)))

/-- The sums and the differences of a layer of R151 fit int32. -/
def InverseFits (e : Nat) (c : Nat → Int) : Prop :=
  ∀ p, p < 128 → FitsInt32 (c (low e p) + c (high e p)) ∧ FitsInt32 (c (low e p) - c (high e p))

section Passes
variable (e p : Nat) (c : Nat → Int)

theorem forwardPass_low :
    forwardPass e c (low e p) = c (low e p) + redcA (zetaA (2 ^ (7 - e) + p / 2 ^ e) * c (high e p)) := by
  simp [forwardPass]

theorem forwardPass_high :
    forwardPass e c (high e p) = c (low e p) - redcA (zetaA (2 ^ (7 - e) + p / 2 ^ e) * c (high e p)) := by
  simp [forwardPass, (low_ne_high e p).symm]

theorem inversePass_low : inversePass e c (low e p) = c (low e p) + c (high e p) := by
  simp [inversePass]

theorem inversePass_high :
    inversePass e c (high e p) = redcA (-zetaA (2 ^ (8 - e) - 1 - p / 2 ^ e) * (c (low e p) - c (high e p))) := by
  simp [inversePass, (low_ne_high e p).symm]

variable {e p c}

/-- The twiddle product of a butterfly is reduced below QA. -/
theorem abs_redcA_zetaA_le (k : Nat) {v : Int} (hv : FitsInt32 v) :
    |redcA (zetaA k * v)| ≤ 8380416 ∧ |redcA (-zetaA k * v)| ≤ 8380416 :=
  have reduced (z : Int) (hz : |z| ≤ 4190208) : |redcA (z * v)| ≤ 8380416 :=
    Int.le_of_lt_add_one (abs_redcA_lt ((abs_product_le hz hv).trans_lt (by decide)))
  ⟨reduced _ (abs_zetaA_le k), reduced _ ((abs_neg _).trans_le (abs_zetaA_le k))⟩

theorem fitsInt32_of_abs_le {v : Int} (h : |v| ≤ 2 ^ 31 - 1) : FitsInt32 v := by
  rw [abs_le] at h
  exact ⟨by omega, by omega⟩

/-- A layer of the inverse transforms stores sums and reduced products, which all fit. -/
theorem inversePass_fits (he : e ≤ 7) (h : InverseFits e c) : ∀ i, i < 256 → FitsInt32 (inversePass e c i) := by
  refine forall_touched he fun p hp => ?_
  obtain ⟨hsum, hdiff⟩ := h p hp
  rw [inversePass_low, inversePass_high]
  exact ⟨hsum, fitsInt32_of_abs_lt ((abs_redcA_zetaA_le _ hdiff).2.trans_lt (by decide))⟩

/-- A layer whose butterflies each compute their two entries computes the whole buffer. -/
theorem computes_layer {m : Nat → MicroA} {c' : Nat → Int} (he : e ≤ 7)
    (h : ∀ p, p < 128 → Computes [m p] (fun i => i = low e p ∨ i = high e p) c c') :
    Computes ((List.range 128).map m) (· < 256) c c' := by
  have hlayer := computes_disjoint (T := fun p i => i = low e p ∨ i = high e p)
    (fun p q i hp hq => (butterflyOf_touched e p hp).symm.trans (butterflyOf_touched e q hq)) 128 h
  simpa only [touched_iff he, ← List.map_eq_flatMap] using hlayer

/-- A layer of `ntt.a` whose results all fit. -/
theorem computes_forwardLayer (he : e ≤ 7) (hfits : ∀ i, i < 256 → FitsInt32 (forwardPass e c i)) :
    Computes ((List.range 128).map (forwardA (7 - e))) (· < 256) c (forwardPass e c) := by
  refine computes_layer he fun p hp => ?_
  rw [forwardA, Nat.sub_sub_self he]
  exact computes_bfct (high_lt he hp) rfl (forwardPass_low e p c) (forwardPass_high e p c) (hfits _ (low_lt he hp))
    (hfits _ (high_lt he hp))

/-- A layer of the inverse transforms whose sums and differences all fit. -/
theorem computes_inverseLayer (he : e ≤ 7) (hfits : InverseFits e c) :
    Computes ((List.range 128).map (inverseA e)) (· < 256) c (inversePass e c) := by
  refine computes_layer he fun p hp => ?_
  obtain ⟨hsum, hdiff⟩ := hfits p hp
  exact computes_bfgs (high_lt he hp) hsum hdiff (inversePass_low e p c) (inversePass_high e p c)
    (inversePass_fits he hfits _ (high_lt he hp))

end Passes

end Sys2Proof.Machine

/-! The bounds of the Ring-A transforms: no store of `ntt.a` overflows below 2080440319 (42_ring_a_transforms.md R155), and none of
the inverse transforms below 8388608 (R156). -/

namespace Sys2Proof.Machine

/-! ### Runs of a schedule -/

/-- A running ENG_A command performs the next `m` steps of its schedule; only its run state depends on whether they are all. -/
theorem execTimes_steps_a {j : Instr} {n : Nat} {uop : Nat → MicroA} (hj : ∀ k, StepsAsA j n k (uop k)) (hn : n ≤ 2048)
    (m k : Nat) (s : State) (hs : RunningA k s) (hm : k + m ≤ n) :
    ∃ e, execTimes j m s = .next { runMicroA ((List.range m).map fun x => uop (k + x)) s with a := e } := by
  induction m generalizing k s with
  | zero => exact ⟨s.a, rfl⟩
  | succ m ih =>
    have hstep := exec_schedule_a (hj k) hs
    have hsteps : (List.range (m + 1)).map (fun x => uop (k + x)) =
        uop k :: (List.range m).map fun x => uop (k + 1 + x) := by
      simp only [List.range_succ_eq_map, List.map_cons, List.map_map, Function.comp_def, Nat.add_zero,
        Nat.succ_eq_add_one, Nat.add_assoc, Nat.add_comm 1]
    rw [execTimes_succ hstep, hsteps]
    by_cases hlast : k + 1 = n
    · obtain rfl : m = 0 := by omega
      exact ⟨_, rfl⟩
    · have hmore : advancedA k n s = { s.a with seq := BitVec.ofNat 11 (k + 1) } := if_neg hlast
      have hnext : RunningA (k + 1) { microA (uop k) s with a := advancedA k n s } := by
        rw [hmore]
        exact ⟨hs.busy, (microA_undefA _ s).trans hs.defined, by simp only [BitVec.toNat_ofNat]; omega⟩
      obtain ⟨e, he⟩ := ih (k + 1) _ hnext (by omega)
      exact ⟨e, by rw [he, runMicroA_runState]; rfl⟩

/-- A run that performs the micro-operations answers what they compute from its buffer. -/
theorem Computes.answers {ms : List MicroA} {s : State} {c' : Nat → Int} (h : Computes ms (· < 256) s.coefA c') {o : Outcome}
    {e : Engine 11} (ho : o = .next { runMicroA ms s with a := e }) :
    ∃ t, o = .next t ∧ NothingUndefined s t ∧ ∀ i, i < 256 → t.coefA i = c' i := by
  obtain ⟨hval, -, hdraws⟩ := h s fun _ _ => rfl
  exact ⟨_, ho, hdraws, hval⟩

/-- The first `l` layers of `ntt.a`, run from its acceptance. -/
theorem execTimes_nttA_layers {s : State} (hs : RunningA 0 s) {l : Nat} (hl : l ≤ 8) {c' : Nat → Int}
    (h : Computes ((List.range l).flatMap fun d => (List.range 128).map (forwardA d)) (· < 256) s.coefA c') :
    ∃ t, execTimes .nttA (128 * l) s = .next t ∧ NothingUndefined s t ∧ ∀ i, i < 256 → t.coefA i = c' i := by
  obtain ⟨e, he⟩ := execTimes_steps_a nttA_stepsAs (by decide) (128 * l) 0 s hs (by omega)
  have hlayers : (List.range (128 * l)).map (fun x => uopNttA (0 + x)) =
      (List.range l).flatMap fun d => (List.range 128).map (forwardA d) := by
    simpa only [Nat.zero_add, Nat.mul_comm l, uopNttA_eq] using map_range_mul l 128 forwardA
  rw [hlayers] at he
  exact h.answers he

/-! ### The layers of `ntt.a` -/

/-- The coefficients after the first `l` layers of `ntt.a` (R150). -/
def forwardCoefs : Nat → (Nat → Int) → Nat → Int
  | 0, c => c
  | l + 1, c => forwardPass (7 - l) (forwardCoefs l c)

/-- One layer adds one reduced product to each entry or takes it off: the increment of R155. -/
theorem forwardPass_bound {e : Nat} (he : e ≤ 7) {c : Nat → Int} {m : Int} (h : ∀ i, i < 256 → |c i| ≤ m)
    (hm : m ≤ 2 ^ 31 - 1) : ∀ i, i < 256 → |forwardPass e c i| ≤ m + 8380416 := by
  refine forall_touched he fun p hp => ?_
  have hu := h _ (low_lt he hp)
  have ht := (abs_redcA_zetaA_le (2 ^ (7 - e) + p / 2 ^ e)
    (fitsInt32_of_abs_le ((h _ (high_lt he hp)).trans hm))).1
  rw [forwardPass_low, forwardPass_high]
  exact ⟨(abs_add_le _ _).trans (add_le_add hu ht), (abs_sub _ _).trans (add_le_add hu ht)⟩

section Forward
variable {c : Nat → Int} {m : Int} (h : ∀ i, i < 256 → |c i| ≤ m) (hm : m ≤ 2080440319)
include h hm

/-- R155, layer by layer. -/
theorem forwardCoefs_bound {l : Nat} (hl : l ≤ 8) : ∀ i, i < 256 → |forwardCoefs l c i| ≤ m + l * 8380416 := by
  induction l with
  | zero => simpa [forwardCoefs] using h
  | succ l ih =>
    intro i hi
    have hpass := forwardPass_bound (Nat.sub_le 7 l) (ih (by omega)) (by omega) i hi
    rw [forwardCoefs]
    push_cast
    linarith

/-- Below the bound of R155 (a) no store of `ntt.a` overflows. -/
theorem computes_forwardLayers {l : Nat} (hl : l ≤ 8) :
    Computes ((List.range l).flatMap fun d => (List.range 128).map (forwardA d)) (· < 256) c (forwardCoefs l c) := by
  refine computes_passes (cs := fun d => forwardCoefs d c) l fun d hd => ?_
  have hlayer := computes_forwardLayer (e := 7 - d) (Nat.sub_le 7 d) fun i hi =>
    fitsInt32_of_abs_le ((forwardCoefs_bound h hm (l := d + 1) (by omega) i hi).trans (by push_cast; omega))
  rwa [Nat.sub_sub_self (by omega)] at hlayer

end Forward

/-- Settles O36: the bound of each layer rules out an overflow in the next. -/
theorem forwardTransformBound : Obligations.ForwardTransformBound := by
  intro m s hs h hm
  refine ⟨fun l hl => ?_, fun hq => ?_⟩
  · obtain ⟨t, ht, hdraws, hval⟩ := execTimes_nttA_layers hs hl (computes_forwardLayers h hm hl)
    exact ⟨t, ht, hdraws, fun i hi => by rw [hval i hi]; exact forwardCoefs_bound h hm hl i hi⟩
  · obtain ⟨t, ht, -, hval⟩ := execTimes_nttA_layers hs (l := 8) le_rfl (computes_forwardLayers h hm le_rfl)
    refine ⟨t, ht, fun i hi => ?_⟩
    rw [hval i hi]
    exact (forwardCoefs_bound h hm le_rfl i hi).trans_lt (by push_cast; omega)

/-! ### The layers of the inverse transforms -/

/-- The coefficients after the first `l` layers of `intt.a.mont` (R151). -/
def inverseCoefs : Nat → (Nat → Int) → Nat → Int
  | 0, c => c
  | l + 1, c => inversePass l (inverseCoefs l c)

/-- The loop nest of `intt.a.mont` is its eight layers, then the scalings (R151). -/
theorem loopInttAMont_eq :
    ((List.range 8).flatMap fun d => (List.range 128).map (inverseA d)) ++ (List.range 256).map (fun j => .fscale j) =
      loopInttAMont := by
  have hfold := foldl_counter (fun k d => inverseLayerA k d) (fun d => 2 ^ (8 - d))
    (fun d => (List.range 128).map (inverseA d)) 8 fun _ hd => inverseLayerA_eq hd
  exact congrArg (· ++ _) (congrArg Prod.snd hfold).symm

/-- Where no sum and no difference overflows, the layers of R151 compute their passes. -/
theorem computes_inverseLayers {c : Nat → Int} {n : Nat} (hn : n ≤ 8) (h : ∀ l, l < n → InverseFits l (inverseCoefs l c)) :
    Computes ((List.range n).flatMap fun d => (List.range 128).map (inverseA d)) (· < 256) c (inverseCoefs n c) :=
  computes_passes (cs := fun l => inverseCoefs l c) n fun l hl => computes_inverseLayer (by omega) (h l hl)

/-- A pass that stores into each entry an int32 computed from the entry itself. -/
theorem computes_entries {c : Nat → Int} {ms : Nat → List MicroA} {f : Int → Int}
    (h : ∀ j, j < 256 → Computes (ms j) (fun i => i = j) c fun i => f (c i)) :
    Computes ((List.range 256).flatMap ms) (· < 256) c fun i => f (c i) := by
  have hpass := computes_disjoint (T := fun j i => i = j) (fun p q i hp hq => hp.symm.trans hq) 256 h
  simpa only [exists_eq_right'] using hpass

/-- The scaled coefficient is below QA (R143). -/
theorem abs_redcA_scaling_lt {v : Int} (hv : FitsInt32 v) : |redcA (41978 * v)| < 8380417 :=
  abs_redcA_lt ((abs_product_le (by decide) hv).trans_lt (by decide))

theorem computes_fscales (c : Nat → Int) :
    Computes ((List.range 256).map fun j => .fscale j) (· < 256) c fun i => redcA (41978 * c i) := by
  rw [List.map_eq_flatMap]
  refine computes_entries (f := fun v => redcA (41978 * v)) fun j hj =>
    computes_store (m := .fscale j) (f := fun v => redcA (41978 * v)) hj (fun _ => rfl) fun _ hv => ?_
  exact fitsInt32_of_abs_lt (abs_redcA_scaling_lt hv)

/-- The last pass of `intt.a`: each coefficient is reduced and frozen (R153). -/
theorem computes_finish (c : Nat → Int) :
    Computes ((List.range 256).flatMap fun i => [.redc i, .freeze i]) (· < 256) c fun i => freezeA (redcA (c i)) :=
  computes_entries (f := fun v => freezeA (redcA v)) fun j hj =>
    (computes_store (m := .redc j) hj (fun _ => rfl) fun _ hv => fitsInt32_redcA hv).append
      (computes_store (m := .freeze j) hj (fun _ => rfl) fun v _ => fitsInt32_freezeA v)

/-- Where no sum and no difference overflows, the two inverse transforms answer what their last passes make of the layers, and
the scaled coefficients are below QA. -/
theorem execTimes_inverses {s : State} (hs : RunningA 0 s) (hfits : ∀ l, l < 8 → InverseFits l (inverseCoefs l s.coefA)) :
    (∃ t, execTimes .inttAMont 1280 s = .next t ∧ NothingUndefined s t ∧
      ∀ i, i < 256 → t.coefA i = redcA (41978 * inverseCoefs 8 s.coefA i) ∧ |t.coefA i| < 8380417) ∧
    (∃ t, execTimes .inttA 1792 s = .next t ∧ NothingUndefined s t ∧
      ∀ i, i < 256 → t.coefA i = freezeA (redcA (redcA (41978 * inverseCoefs 8 s.coefA i)))) := by
  have hmont := (computes_inverseLayers le_rfl hfits).append (computes_fscales _)
  rw [loopInttAMont_eq] at hmont
  obtain ⟨-, hrunmont, hrun⟩ := ringAMacrosRunTheirLoopNests s hs
  obtain ⟨t, ht, hdraws, hval⟩ := hmont.answers hrunmont
  refine ⟨⟨t, ht, hdraws, fun i hi => ⟨hval i hi, ?_⟩⟩, (hmont.append (computes_finish _)).answers hrun⟩
  rw [hval i hi]
  exact abs_redcA_scaling_lt (inversePass_fits le_rfl (hfits 7 (by decide)) i hi)

/-! ### The bound of the inverse transforms -/

/-- A layer of R151 at most doubles a bound that is at least that of the reduced products. -/
theorem inversePass_bound {e : Nat} (he : e ≤ 7) {c : Nat → Int} {m : Int} (h : ∀ i, i < 256 → |c i| ≤ m)
    (hlow : 8380416 ≤ m) (hm : 2 * m ≤ 2 ^ 31 - 1) :
    InverseFits e c ∧ ∀ i, i < 256 → |inversePass e c i| ≤ 2 * m := by
  have hpair (p : Nat) (hp : p < 128) : |c (low e p) + c (high e p)| ≤ 2 * m ∧ |c (low e p) - c (high e p)| ≤ 2 * m := by
    have hu := h _ (low_lt he hp)
    have hv := h _ (high_lt he hp)
    rw [two_mul]
    exact ⟨(abs_add_le _ _).trans (add_le_add hu hv), (abs_sub _ _).trans (add_le_add hu hv)⟩
  have hfits : InverseFits e c := fun p hp =>
    ⟨fitsInt32_of_abs_le ((hpair p hp).1.trans hm), fitsInt32_of_abs_le ((hpair p hp).2.trans hm)⟩
  refine ⟨hfits, forall_touched he fun p hp => ?_⟩
  rw [inversePass_low, inversePass_high]
  exact ⟨(hpair p hp).1, ((abs_redcA_zetaA_le _ (hfits p hp).2).2).trans (by omega)⟩

/-- R156 (a): every layer at most doubles the bound, and `256 × 8388607` fits. -/
theorem inverseCoefs_bound {c : Nat → Int} (h : ∀ i, i < 256 → |c i| ≤ 8388607) {l : Nat} (hl : l ≤ 8) :
    ∀ i, i < 256 → |inverseCoefs l c i| ≤ 2 ^ l * 8388607 := by
  induction l with
  | zero => simpa [inverseCoefs] using h
  | succ l ih =>
    have hpow : (2 : Int) ^ l ≤ 2 ^ 7 := pow_le_pow_right₀ (by decide) (by omega)
    have hone : (1 : Int) ≤ 2 ^ l := one_le_pow₀ (by decide)
    rw [pow_succ', mul_assoc]
    exact (inversePass_bound (by omega) (ih (by omega)) (by omega) (by omega)).2

theorem inverseCoefs_fits {c : Nat → Int} (h : ∀ i, i < 256 → |c i| ≤ 8388607) {l : Nat} (hl : l < 8) :
    InverseFits l (inverseCoefs l c) := by
  have hpow : (2 : Int) ^ l ≤ 2 ^ 7 := pow_le_pow_right₀ (by decide) (by omega)
  have hone : (1 : Int) ≤ 2 ^ l := one_le_pow₀ (by decide)
  exact (inversePass_bound (by omega) (inverseCoefs_bound h hl.le) (by omega) (by omega)).1

/-- Settles O37: the doubling bound rules out an overflow, and the last passes bound the result. -/
theorem inverseTransformBound : Obligations.InverseTransformBound := by
  intro s hs h
  obtain ⟨⟨t, ht, hdraws, hval⟩, r, hr, hdraws', hval'⟩ := execTimes_inverses hs fun l hl => inverseCoefs_fits h hl
  refine ⟨⟨t, ht, hdraws, fun i hi => (hval i hi).2⟩, r, hr, hdraws', fun i hi => ?_⟩
  rw [hval' i hi]
  exact freezeA_range _

end Sys2Proof.Machine

/-! The meaning of `ntt.a` modulo QA: after each layer every block of the buffer holds the input polynomial modulo one factor of
`X^256 + 1`, so that at the end entry `i` holds its value at `ζ^(2·brv_8(i)+1)` (42_ring_a_transforms.md R154). -/

namespace Sys2Proof.Machine

/-! ### Bit reversal -/

theorem brv_even (b x : Nat) : brv (b + 1) (2 * x) = brv b x := by
  rw [brv, Nat.mul_mod_right, Nat.zero_mul, Nat.zero_add, Nat.mul_div_cancel_left x Nat.two_pos]

theorem brv_odd (b x : Nat) : brv (b + 1) (2 * x + 1) = 2 ^ b + brv b x := by
  rw [brv, show (2 * x + 1) % 2 = 1 by omega, show (2 * x + 1) / 2 = x by omega, Nat.one_mul]

/-- The bit above the first `b` becomes the lowest one (R16). -/
theorem brv_succ (b x : Nat) : brv (b + 1) x = 2 * brv b x + x / 2 ^ b % 2 := by
  induction b generalizing x with
  | zero => simp [brv]
  | succ b ih =>
    rw [brv, ih (x / 2), Nat.div_div_eq_div_mul, ← Nat.pow_succ', brv]
    ring

theorem brv_succ_of_lt {b x : Nat} (h : x < 2 ^ b) : brv (b + 1) x = 2 * brv b x := by
  rw [brv_succ, Nat.div_eq_of_lt h, Nat.zero_mod, Nat.add_zero]

theorem brv_two_pow_add (b x : Nat) : brv b (2 ^ b + x) = brv b x := by
  induction b generalizing x with
  | zero => rfl
  | succ b ih =>
    have hhalf : (2 ^ (b + 1) + x) / 2 = 2 ^ b + x / 2 := by rw [Nat.pow_succ']; omega
    have hbit : (2 ^ (b + 1) + x) % 2 = x % 2 := by rw [Nat.pow_succ']; omega
    rw [brv, brv, hhalf, hbit, ih]

/-- The reversal of `b + 1` bits of which the highest is set. -/
theorem brv_succ_two_pow_add {b x : Nat} (h : x < 2 ^ b) : brv (b + 1) (2 ^ b + x) = 2 * brv b x + 1 := by
  rw [brv_succ, brv_two_pow_add, Nat.add_div_left _ (Nat.two_pow_pos b), Nat.div_eq_of_lt h]

/-! ### Residues modulo QA -/

/-- The residues modulo QA. -/
abbrev ResidueA : Type := ZMod 8380417

theorem congruentMod_iff_cast {a b : Int} : CongruentMod a b 8380417 ↔ (a : ResidueA) = b :=
  congruentMod_iff_modEq.trans (ZMod.intCast_eq_intCast_iff a b 8380417).symm

/-- ζ, the residue of ROOT_A. -/
def zeta : ResidueA := ((1753 : Int) : ResidueA)

/-- ζ is a primitive 512-th root of unity (R8). -/
theorem zeta_pow_256 : zeta ^ 256 = -1 := by
  have h : CongruentMod (1753 ^ 256) (-1) 8380417 := by decide
  have hcast := congruentMod_iff_cast.mp h
  rwa [Int.cast_pow, Int.cast_neg, Int.cast_one] at hcast

/-- The reduced twiddle product stands for the product with a power of ζ (R141). -/
theorem cast_redcA_zetaA {k : Nat} (hk : 1 ≤ k) (v : Int) : ((redcA (zetaA k * v) : Int) : ResidueA) = zeta ^ brv 8 k * v := by
  have h := congruentMod_iff_cast.mp (redcA_scaled_congruent (zetaA_modEq hk) v)
  rwa [Int.cast_mul, Int.cast_pow] at h

/-! ### Polynomials read off a buffer -/

/-- The polynomial whose `n` coefficients are the entries `o`, `o + N`, `o + 2·N`, … of `f`, at `x`. -/
def strideEval (f : Nat → ResidueA) (n N o : Nat) (x : ResidueA) : ResidueA := ∑ t ∈ Finset.range n, f (o + t * N) * x ^ t

/-- The even and the odd coefficients apart: the identity a butterfly computes. -/
theorem strideEval_double (f : Nat → ResidueA) (n N o : Nat) (x : ResidueA) :
    strideEval f (2 * n) N o x = strideEval f n (2 * N) o (x ^ 2) + x * strideEval f n (2 * N) (o + N) (x ^ 2) := by
  induction n with
  | zero => simp [strideEval]
  | succ n ih =>
    simp only [strideEval] at ih ⊢
    rw [Nat.mul_succ, Finset.sum_range_succ, Finset.sum_range_succ, ih, Finset.sum_range_succ, Finset.sum_range_succ,
      show o + (2 * n + 1) * N = o + N + n * (2 * N) by ring, show o + 2 * n * N = o + n * (2 * N) by ring]
    ring

/-- What entry `i` of the buffer stands for after `l` layers: block `b` of `2^(8−l)` entries holds the input polynomial modulo
`X^(2^(8−l)) − ζ^brv_9(2^l+b)`, and the entry is one coefficient of that remainder. -/
def blockResidue (c : Nat → Int) (l i : Nat) : ResidueA :=
  strideEval (fun t => (c t : ResidueA)) (2 ^ l) (2 ^ (8 - l)) (i % 2 ^ (8 - l)) (zeta ^ brv 9 (2 ^ l + i / 2 ^ (8 - l)))

section Split
variable (c : Nat → Int) {l e : Nat} (h : l + e = 7) {p : Nat} (hp : p < 128)
include h hp

/-- The twiddle index of a butterfly of layer `l` is above the blocks before it. -/
theorem twiddle_lt : 2 ^ l + p / 2 ^ e < 2 ^ 8 := by
  have hblock : p / 2 ^ e < 2 ^ l := block_lt (by rw [← Nat.pow_add, h]; exact hp)
  have hpow : 2 ^ l ≤ 2 ^ 7 := Nat.pow_le_pow_right Nat.two_pos (by omega)
  omega

/-- A butterfly of layer `l` divides the remainder in its block by the two square roots of the block's root. -/
theorem blockResidue_split :
    blockResidue c (l + 1) (low e p) =
        blockResidue c l (low e p) + zeta ^ brv 8 (2 ^ l + p / 2 ^ e) * blockResidue c l (high e p) ∧
      blockResidue c (l + 1) (high e p) =
        blockResidue c l (low e p) - zeta ^ brv 8 (2 ^ l + p / 2 ^ e) * blockResidue c l (high e p) := by
  have hsize : 2 ^ (8 - l) = 2 * 2 ^ e := by rw [show 8 - l = e + 1 by omega, Nat.pow_succ']
  have hhalf : 8 - (l + 1) = e := by omega
  have hroot : (zeta ^ brv 8 (2 ^ l + p / 2 ^ e)) ^ 2 = zeta ^ brv 9 (2 ^ l + p / 2 ^ e) := by
    rw [brv_succ_of_lt (twiddle_lt h hp), mul_comm, pow_mul]
  have heven : brv 9 (2 * 2 ^ l + 2 * (p / 2 ^ e)) = brv 8 (2 ^ l + p / 2 ^ e) := by
    rw [← Nat.mul_add, brv_even]
  have hodd : zeta ^ brv 9 (2 * 2 ^ l + (2 * (p / 2 ^ e) + 1)) = -zeta ^ brv 8 (2 ^ l + p / 2 ^ e) := by
    rw [← Nat.add_assoc, ← Nat.mul_add, brv_odd, pow_add, show 2 ^ 8 = 256 from rfl, zeta_pow_256, neg_one_mul]
  obtain ⟨hlb, hlo⟩ := low_block e p
  obtain ⟨hlb', hlo'⟩ := low_half e p
  obtain ⟨hhb, hho⟩ := high_block e p
  obtain ⟨hhb', hho'⟩ := high_half e p
  simp only [blockResidue, hsize, hhalf, hlb, hlo, hlb', hlo', hhb, hho, hhb', hho', heven, hodd, Nat.pow_succ' (n := l),
    strideEval_double, neg_sq, hroot]
  exact ⟨trivial, by ring⟩

end Split

/-- What the layers of `ntt.a` make of the buffer, modulo QA. -/
theorem forwardCoefs_residue (c : Nat → Int) {l : Nat} (hl : l ≤ 8) :
    ∀ i, i < 256 → (forwardCoefs l c i : ResidueA) = blockResidue c l i := by
  induction l with
  | zero =>
    intro i hi
    simp [forwardCoefs, blockResidue, strideEval, Nat.mod_eq_of_lt hi]
  | succ l ih =>
    have hlayer : l + (7 - l) = 7 := by omega
    refine forall_touched (Nat.sub_le 7 l) fun p hp => ?_
    have hlow := ih (by omega) _ (low_lt (Nat.sub_le 7 l) hp)
    have hhigh := ih (by omega) _ (high_lt (Nat.sub_le 7 l) hp)
    obtain ⟨hsplitlow, hsplithigh⟩ := blockResidue_split c hlayer hp
    have ht := cast_redcA_zetaA (k := 2 ^ l + p / 2 ^ (7 - l)) (Nat.one_le_two_pow.trans (Nat.le_add_right _ _))
      (forwardCoefs l c (high (7 - l) p))
    rw [forwardCoefs, forwardPass_low, forwardPass_high, Nat.sub_sub_self (by omega), Int.cast_add, Int.cast_sub, ht, hlow,
      hhigh, hsplitlow, hsplithigh]
    exact ⟨rfl, rfl⟩

/-- With all eight layers done, a block is one entry: the value of the polynomial at a root of `X^256 + 1`. -/
theorem blockResidue_eight (c : Nat → Int) {i : Nat} (hi : i < 256) :
    blockResidue c 8 i = ((evalPoly c 256 (ROOT_A ^ exponentA i) : Int) : ResidueA) := by
  have hexp : brv 9 (2 ^ 8 + i / 1) = exponentA i := by rw [Nat.div_one, brv_succ_two_pow_add hi, exponentA]
  simp only [blockResidue, strideEval, evalPoly, Nat.sub_self, pow_zero, Nat.mod_one, Nat.zero_add, Nat.mul_one, hexp]
  push_cast
  rfl

/-- Settles O39: the residues after the eighth layer. -/
theorem nttAOutputOrder : Obligations.NttAOutputOrder := by
  intro s hs h
  obtain ⟨t, ht, -, hval⟩ := execTimes_nttA_layers hs (l := 8) le_rfl (computes_forwardLayers h le_rfl le_rfl)
  refine ⟨t, ht, fun i hi => congruentMod_iff_cast.mpr ?_⟩
  rw [hval i hi, forwardCoefs_residue _ le_rfl i hi, blockResidue_eight _ hi]

end Sys2Proof.Machine

/-! The round trip of Ring-A: each inverse layer takes back one layer of `ntt.a` up to a factor 2, exactly in the entries that
could overflow and modulo QA in all (42_ring_a_transforms.md R156 (b), R157). -/

namespace Sys2Proof.Machine

/-! ### Mirrored twiddles -/

theorem brv_zero_right (b : Nat) : brv b 0 = 0 := by
  induction b with
  | zero => rfl
  | succ b ih => exact (brv_even b 0).trans ih

/-- The reversals of mirrored indices are opposite (R214): their low bits are opposite, and their halves are mirrored. -/
theorem brv_mirror {w l b : Nat} (hl : l < w) (hb : b < 2 ^ l) : brv w (2 * 2 ^ l - 1 - b) + brv w (2 ^ l + b) = 2 ^ w := by
  induction l generalizing w b with
  | zero =>
    obtain ⟨v, rfl⟩ := Nat.exists_eq_add_of_le' hl
    obtain rfl : b = 0 := by omega
    have hone : brv (v + 1) 1 = 2 ^ v := by rw [brv_odd v 0, brv_zero_right, Nat.add_zero]
    rw [Nat.pow_succ, Nat.mul_two]
    exact congrArg₂ (· + ·) hone hone
  | succ l ih =>
    obtain ⟨v, rfl⟩ : ∃ v, w = v + 1 := ⟨w - 1, by omega⟩
    have hpow : 2 ^ (l + 1) = 2 * 2 ^ l := Nat.pow_succ'
    rcases Nat.even_or_odd' b with ⟨b, rfl | rfl⟩
    · have hmirror := ih (w := v) (b := b) (by omega) (by omega)
      rw [show 2 * 2 ^ (l + 1) - 1 - 2 * b = 2 * (2 * 2 ^ l - 1 - b) + 1 by omega,
        show 2 ^ (l + 1) + 2 * b = 2 * (2 ^ l + b) by omega, brv_odd, brv_even, Nat.pow_succ]
      omega
    · have hmirror := ih (w := v) (b := b) (by omega) (by omega)
      rw [show 2 * 2 ^ (l + 1) - 1 - (2 * b + 1) = 2 * (2 * 2 ^ l - 1 - b) by omega,
        show 2 ^ (l + 1) + (2 * b + 1) = 2 * (2 ^ l + b) + 1 by omega, brv_odd, brv_even, Nat.pow_succ]
      omega

/-- The inverse butterfly's twiddle undoes the forward one's: it is the negated one at the mirrored index (R214). -/
theorem zeta_mirror {l b : Nat} (hl : l < 8) (hb : b < 2 ^ l) :
    -zeta ^ brv 8 (2 * 2 ^ l - 1 - b) * zeta ^ brv 8 (2 ^ l + b) = 1 := by
  rw [neg_mul, ← pow_add, brv_mirror hl hb, show 2 ^ 8 = 256 from rfl, zeta_pow_256, neg_neg]

/-- The reduced product of an inverse butterfly stands for the product with the negated power of ζ (R142). -/
theorem cast_redcA_neg_zetaA {k : Nat} (hk : 1 ≤ k) (v : Int) :
    ((redcA (-zetaA k * v) : Int) : ResidueA) = -zeta ^ brv 8 k * v := by
  rw [neg_mul_comm, cast_redcA_zetaA hk, Int.cast_neg, neg_mul_comm]

/-! ### One layer taken back -/

/-- How the buffer `a` after `l` inverse layers stands to the buffer `f` that `ntt.a` held after its first `8 − l` layers
(R156 (b)): `2^l` times it modulo QA; exactly so at the multiples of `2^l`, which only sums have written; elsewhere small. -/
structure TakesBack (l : Nat) (f a : Nat → Int) : Prop where
  residue : ∀ i, i < 256 → (a i : ResidueA) = 2 ^ l * f i
  exact : ∀ i, i < 256 → i % 2 ^ l = 0 → a i = 2 ^ l * f i
  bound : ∀ i, i < 256 → i % 2 ^ l ≠ 0 → 2 * |a i| ≤ 2 ^ l * 8380416

theorem takesBack_zero {f a : Nat → Int} (h : ∀ i, i < 256 → a i = f i) : TakesBack 0 f a where
  residue i hi := by rw [h i hi, pow_zero, one_mul]
  exact i hi _ := by rw [h i hi, pow_zero, one_mul]
  bound i _ hne := absurd (Nat.mod_one i) hne

section Layer
variable {l : Nat} (hl : l < 8) {g a : Nat → Int} (h : TakesBack l (forwardPass l g) a)
  (hg : ∀ i, i < 256 → |g i| ≤ (8 - l) * 8380416) {p : Nat} (hp : p < 128)
include hl

/-- The largest sums and differences of R156 (b) are those of the last two layers. -/
theorem two_pow_mul_bound : (2 ^ (l + 1) : Int) * ((8 - l) * 8380416) ≤ 2 ^ 31 - 1 := by
  interval_cases l <;> decide

include hg hp in
/-- The reduced product of the butterfly of `ntt.a` that is taken back. -/
theorem abs_forward_product_le : |redcA (zetaA (2 ^ (7 - l) + p / 2 ^ l) * g (high l p))| ≤ 8380416 :=
  (abs_redcA_zetaA_le _ (fitsInt32_of_abs_le ((hg _ (high_lt (Nat.le_of_lt_succ hl) hp)).trans (by omega)))).1

include h hp

/-- At an exact pair the sum is twice the entry of `ntt.a` before its layer, and the difference twice its reduced product. -/
theorem TakesBack.pair_exact (h0 : p % 2 ^ l = 0) :
    a (low l p) + a (high l p) = 2 ^ (l + 1) * g (low l p) ∧
      a (low l p) - a (high l p) = 2 ^ (l + 1) * redcA (zetaA (2 ^ (7 - l) + p / 2 ^ l) * g (high l p)) := by
  have he : l ≤ 7 := Nat.le_of_lt_succ hl
  rw [h.exact _ (low_lt he hp) ((low_half l p).2.trans h0), h.exact _ (high_lt he hp) ((high_half l p).2.trans h0),
    forwardPass_low, forwardPass_high]
  exact ⟨by ring, by ring⟩

/-- At any other pair neither entry has been more than a sum of reduced products. -/
theorem TakesBack.pair_small (h0 : p % 2 ^ l ≠ 0) :
    |a (low l p) + a (high l p)| ≤ 2 ^ l * 8380416 ∧ |a (low l p) - a (high l p)| ≤ 2 ^ l * 8380416 := by
  have he : l ≤ 7 := Nat.le_of_lt_succ hl
  have hx := h.bound _ (low_lt he hp) (by rwa [(low_half l p).2])
  have hy := h.bound _ (high_lt he hp) (by rwa [(high_half l p).2])
  exact ⟨(abs_add_le _ _).trans (by linarith), (abs_sub _ _).trans (by linarith)⟩

/-- Modulo QA a butterfly of `intt.a.mont` takes back the butterfly of `ntt.a` on the same entries, but for a factor 2. -/
theorem TakesBack.pair_residue :
    ((inversePass l a (low l p) : Int) : ResidueA) = 2 ^ (l + 1) * g (low l p) ∧
      ((inversePass l a (high l p) : Int) : ResidueA) = 2 ^ (l + 1) * g (high l p) := by
  have he : l ≤ 7 := Nat.le_of_lt_succ hl
  have hsize : 2 ^ (8 - l) = 2 * 2 ^ (7 - l) := by rw [show 8 - l = 7 - l + 1 by omega, Nat.pow_succ']
  have hblock : p / 2 ^ l < 2 ^ (7 - l) := block_lt (by rw [← Nat.pow_add, Nat.sub_add_cancel he]; exact hp)
  have hx := h.residue _ (low_lt he hp)
  have hy := h.residue _ (high_lt he hp)
  have ht := cast_redcA_zetaA (k := 2 ^ (7 - l) + p / 2 ^ l) (Nat.one_le_two_pow.trans (Nat.le_add_right _ _))
    (g (high l p))
  have hmirror := zeta_mirror (Nat.lt_succ_of_le (Nat.sub_le 7 l)) hblock
  rw [forwardPass_low, Int.cast_add] at hx
  rw [forwardPass_high, Int.cast_sub] at hy
  rw [inversePass_low, inversePass_high, hsize, cast_redcA_neg_zetaA (mirror_bounds hblock le_rfl).1, Int.cast_add,
    Int.cast_sub, hx, hy, ht]
  refine ⟨by ring, ?_⟩
  linear_combination (2 ^ (l + 1) * (g (high l p) : ResidueA)) * hmirror

omit hp
include hg

/-- Under the bound of R155 on the entries of `ntt.a` the next inverse layer does not overflow. -/
theorem TakesBack.fits : InverseFits l a := by
  intro p hp
  have hmax := two_pow_mul_bound hl
  have hpow : (0 : Int) ≤ 2 ^ (l + 1) := by positivity
  by_cases h0 : p % 2 ^ l = 0
  · obtain ⟨hsum, hdiff⟩ := h.pair_exact hl hp h0
    have hfits {v : Int} (hv : |v| ≤ (8 - l) * 8380416) : FitsInt32 (2 ^ (l + 1) * v) := by
      refine fitsInt32_of_abs_le ?_
      rw [abs_mul, abs_of_nonneg hpow]
      exact (mul_le_mul_of_nonneg_left hv hpow).trans hmax
    rw [hsum, hdiff]
    exact ⟨hfits (hg _ (low_lt (Nat.le_of_lt_succ hl) hp)), hfits ((abs_forward_product_le hl hg hp).trans (by omega))⟩
  · obtain ⟨hsum, hdiff⟩ := h.pair_small hl hp h0
    have hle : (2 ^ l : Int) * 8380416 ≤ 2 ^ 31 - 1 := by
      have := pow_le_pow_right₀ (show (1 : Int) ≤ 2 by decide) (Nat.le_of_lt_succ hl)
      omega
    exact ⟨fitsInt32_of_abs_le (hsum.trans hle), fitsInt32_of_abs_le (hdiff.trans hle)⟩

/-- R156 (b), one layer on. -/
theorem TakesBack.step : TakesBack (l + 1) g (inversePass l a) := by
  have he : l ≤ 7 := Nat.le_of_lt_succ hl
  refine ⟨forall_touched he fun p hp => h.pair_residue hl hp, forall_touched he fun p hp => ?_,
    forall_touched he fun p hp => ?_⟩
  · rw [Nat.pow_succ', (low_block l p).2, (high_block l p).2, inversePass_low]
    refine ⟨fun h0 => (h.pair_exact hl hp h0).1, fun h0 => ?_⟩
    exact absurd h0 (Nat.add_pos_right _ (Nat.two_pow_pos l)).ne'
  · rw [Nat.pow_succ', (low_block l p).2, inversePass_low, inversePass_high, pow_succ']
    refine ⟨fun h0 => by linarith [(h.pair_small hl hp h0).1], fun _ => ?_⟩
    have hone : (1 : Int) ≤ 2 ^ l := one_le_pow₀ (by decide)
    linarith [(abs_redcA_zetaA_le (2 ^ (8 - l) - 1 - p / 2 ^ l) (h.fits hl hg p hp).2).2]

end Layer

/-! ### The round trip -/

section RoundTrip
variable {c a : Nat → Int} (hc : ∀ i, i < 256 → |c i| ≤ 8380416) (ha : ∀ i, i < 256 → a i = forwardCoefs 8 c i)
include hc

/-- The entries of `ntt.a` before the layer that inverse layer `l` takes back. -/
theorem forwardCoefs_bound_canonical {l : Nat} (hl : l < 8) :
    ∀ i, i < 256 → |forwardCoefs (7 - l) c i| ≤ (8 - l) * 8380416 := by
  intro i hi
  have h := forwardCoefs_bound hc (by decide) (l := 7 - l) (by omega) i hi
  rw [Nat.cast_sub (Nat.le_of_lt_succ hl)] at h
  push_cast at h
  linarith

include ha

theorem takesBack {l : Nat} (hl : l ≤ 8) : TakesBack l (forwardCoefs (8 - l) c) (inverseCoefs l a) := by
  induction l with
  | zero => exact takesBack_zero ha
  | succ l ih =>
    have hback := ih (by omega)
    rw [show 8 - l = 7 - l + 1 by omega, forwardCoefs, Nat.sub_sub_self (by omega)] at hback
    rw [show 8 - (l + 1) = 7 - l by omega, inverseCoefs]
    exact hback.step hl (forwardCoefs_bound_canonical hc hl)

/-- R156 (b): on the output of `ntt.a` the inverse transforms are defined, although its entries exceed the bound of (a). -/
theorem inverseCoefs_fits_of_forward {l : Nat} (hl : l < 8) : InverseFits l (inverseCoefs l a) := by
  have hback := takesBack hc ha hl.le
  rw [show 8 - l = 7 - l + 1 by omega, forwardCoefs, Nat.sub_sub_self (by omega)] at hback
  exact hback.fits hl (forwardCoefs_bound_canonical hc hl)

/-- After the eight inverse layers each entry stands for 256 times the input. -/
theorem inverseCoefs_forward {i : Nat} (hi : i < 256) : CongruentMod (inverseCoefs 8 a i) (256 * c i) 8380417 := by
  have h := (takesBack hc ha le_rfl).residue i hi
  rw [congruentMod_iff_cast, h, Int.cast_mul, Nat.sub_self, forwardCoefs]
  norm_num

end RoundTrip

/-- Settles O41: the layers leave 256 times the input, the scaling takes that factor out and the radix in, and `intt.a` takes
the radix out. -/
theorem roundTripA : Obligations.RoundTripA := by
  intro s hs h
  have hc (i : Nat) (hi : i < 256) : |s.coefA i| ≤ 8380416 := Int.le_of_lt_add_one (h i hi)
  obtain ⟨t, ht, hdraws, hval⟩ := execTimes_nttA_layers hs (l := 8) le_rfl (computes_forwardLayers hc (by decide) le_rfl)
  refine ⟨t, ht, hdraws, fun u hu hus => ?_⟩
  have ha (i : Nat) (hi : i < 256) : u.coefA i = forwardCoefs 8 s.coefA i :=
    (congrArg BitVec.toInt (entryA_congr hu i)).trans (hval i hi)
  obtain ⟨⟨v, hv, hvdraws, hmont⟩, w, hw, hwdraws, hcanonical⟩ := execTimes_inverses hus fun l hl =>
    inverseCoefs_fits_of_forward hc ha hl
  have hscaled (i : Nat) (hi : i < 256) :
      CongruentMod (redcA (41978 * inverseCoefs 8 u.coefA i)) (2 ^ 32 * s.coefA i) 8380417 := by
    have hlayers := inverseCoefs_forward hc ha hi
    have hscale := redcA_scaling_congruent (inverseCoefs 8 u.coefA i)
    unfold CongruentMod at hlayers hscale ⊢
    omega
  refine ⟨⟨w, hw, hwdraws, fun i hi => ?_⟩, v, hv, hvdraws, fun i hi => ?_⟩
  · have hradix := redcA_mul_radix_congruent (redcA (41978 * inverseCoefs 8 u.coefA i))
    have hres := hscaled i hi
    rw [hcanonical i hi]
    unfold CongruentMod at hradix hres
    unfold freezeA QA
    omega
  · obtain ⟨hres, hsmall⟩ := hmont i hi
    exact ⟨hres ▸ hscaled i hi, hsmall⟩

end Sys2Proof.Machine

/-! The single-step commands of ENG_B on operands in range: what a store of a result leaves in BUF_B, the two tables they read,
and the exact result and frame of each command (43_ring_b_butterflies.md R171 to R173). -/

namespace Sys2Proof

/-- A command word of format IL (R92) holds the opcode, the index and the size, the last field being 0. -/
theorem toNat_assemble_index_size (o : Opcode) (idx : BitVec 10) (lg : BitVec 4) :
    (assemble o idx lg 0).toNat = o.code.toNat + idx.toNat * 2 ^ 8 + lg.toNat * 2 ^ 18 := by
  simp [toNat_assemble]

end Sys2Proof

namespace Sys2Proof.Machine

/-! ### Stores of ENG_B -/

theorem coefB_of_entryB {s : State} {i v : Nat} (h : s.entryB i = u16 v) (hv : v < QB) : s.coefB i = v := by
  rw [State.coefB, h, u16_toNat_of_lt hv]

/-- A single-step command that stores a pair on operands in range writes both results and completes. -/
theorem exec_storePair_b {i : Instr} {m : MicroB} (hu : unitOf i = .b) (hm : bareStep i = engineStepB 1 fun _ => m)
    {s : State} (hs : RunningB 0 s) {j lg x y : Nat} (hstore : microB m s = storePairB j lg x y s)
    (hrange : partner j lg ≤ 1023) (hlo : CanonicalB (s.coefB j)) (hhi : CanonicalB (s.coefB (partner j lg)))
    (hx : x < QB) (hy : y < QB) :
    ∃ r, exec i s = .next r ∧ r.coefB j = x ∧ r.coefB (partner j lg) = y ∧
      (∀ n, n ≠ j → n ≠ partner j lg → r.entryB n = s.entryB n) ∧ r = { s with bufB := r.bufB, b := finishedB s } := by
  have hp : partner j lg < 1024 := Nat.lt_succ_of_le hrange
  refine ⟨_, exec_single_b hu hm hs, ?_⟩
  rw [hstore, storePairB, if_pos ⟨hlo, hhi⟩]
  obtain ⟨hrlo, hrhi, hother⟩ := entryB_putB_pair rfl ((lt_partner j lg).trans hp) hp (partner_ne j lg)
  exact ⟨coefB_of_entryB hrlo hx, coefB_of_entryB hrhi hy, hother, rfl⟩

/-- A single-step command that stores one result writes that entry and completes. -/
theorem exec_store_b {i : Instr} {m : MicroB} (hu : unitOf i = .b) (hm : bareStep i = engineStepB 1 fun _ => m)
    {s : State} (hs : RunningB 0 s) {j v : Nat} (hput : microB m s = s.putB j (u16 v)) (hj : j < 1024) (hv : v < QB) :
    ∃ r, exec i s = .next r ∧ r.coefB j = v ∧ (∀ n, n ≠ j → r.entryB n = s.entryB n) ∧
      r = { s with bufB := r.bufB, b := finishedB s } := by
  refine ⟨_, exec_single_b hu hm hs, ?_⟩
  rw [hput]
  exact ⟨coefB_of_entryB (entryB_putB_same s hj _) hv, fun n hn => entryB_putB_ne s hn.symm _, rfl⟩

/-! ### The tables of ENG_B -/

/-- A twiddle is a power of 7 modulo 12289, two coprime numbers, so it is not 0. -/
theorem wB_pos (x : Nat) : 0 < wB x := by
  have hcoprime : Nat.Coprime (ROOT_B ^ brv 10 x) QB := Nat.Coprime.pow_left _ (by decide)
  exact Nat.pos_of_ne_zero fun h => absurd (hcoprime.symm.eq_one_of_dvd (Nat.dvd_of_mod_eq_zero h)) (by decide)

/-- So the negation of a twiddle needs no reduction (R172). -/
theorem negW_range (x : Nat) : 1 ≤ negW x ∧ negW x ≤ 12288 := by
  have hpos := wB_pos x
  have hlt := wB_lt x
  unfold negW QB at *
  omega

theorem ninvB_mul_two_pow : ∀ l, l ≤ 10 → ninvB l * 2 ^ l % 12289 = 1 := by decide

/-- The scaling by NINV_B undoes the multiplication by the size (R173, R215). -/
theorem mqMul_ninvB_mul_two_pow {c l : Nat} (hc : c < 12289) (hl : l ≤ 10) : mqMul c (ninvB l) * 2 ^ l % 12289 = c :=
  calc c * ninvB l % 12289 * 2 ^ l % 12289
      = c * (ninvB l * 2 ^ l) % 12289 := by rw [Nat.mod_mul_mod, Nat.mul_assoc]
    _ = c * (ninvB l * 2 ^ l % 12289) % 12289 := (Nat.mul_mod_mod _ _ _).symm
    _ = c := by rw [ninvB_mul_two_pow l hl, Nat.mul_one, Nat.mod_eq_of_lt hc]

/-- The product with a difference is the integer one, reduced once. -/
theorem mqMul_mqSub_cast (u v z : Nat) :
    (mqMul (mqSub u v) z : Int) = ((u : Int) - (v : Int)) * (z : Int) % 12289 :=
  calc ((mqSub u v * z % 12289 : Nat) : Int)
      = (mqSub u v : Int) * z % 12289 := by push_cast; rfl
    _ = ((u : Int) - v) % 12289 * z % 12289 := by rw [mqSub_cast]
    _ = ((u : Int) - v) * z % 12289 := (Int.mod_modEq _ 12289).mul_right _

/-! ### The commands -/

/-- Settles O25: the pair stored is the sum and the difference with the twiddled operand. -/
theorem bfctBButterfly : Obligations.BfctBButterfly := by
  rintro j lg x d rfl
  refine ⟨toNat_assemble _ _ _ _, ?_⟩
  rintro - hrange s u v hs hlo hhi rfl rfl
  obtain ⟨r, hr, hrj, hrp, hother, hframe⟩ := exec_storePair_b (i := .bfctB j lg x) rfl rfl hs rfl hrange hlo hhi
    (mqAdd_lt _ _) (mqSub_lt _ _)
  exact ⟨r, hr, hrj, (congrArg Nat.cast hrp).trans (mqSub_cast _ _), hother, hframe⟩

/-- Settles O26: the pair stored is the sum and the difference times the negated twiddle, which is not 0. -/
theorem bfgsBButterfly : Obligations.BfgsBButterfly := by
  rintro j lg x d z rfl rfl
  refine ⟨toNat_assemble _ _ _ _, (negW_range _).1, (negW_range _).2, ?_⟩
  rintro - hrange s u v hs rfl rfl hlo hhi
  obtain ⟨r, hr, hrj, hrp, hother, hframe⟩ := exec_storePair_b (i := .bfgsB j lg x) rfl rfl hs rfl hrange hlo hhi
    (mqAdd_lt _ _) (mqMul_lt _ _)
  exact ⟨r, hr, hrj, (congrArg Nat.cast hrp).trans (mqMul_mqSub_cast _ _ _), hother, hframe⟩

/-- Settles O27: one result is stored, the product with the inverse of the size; a size out of range is an operand out of
range. -/
theorem nscaleBResult : Obligations.NscaleBResult := by
  refine fun j logn s => ⟨?_, fun hs _ hl hc => ?_, fun hb hl => ?_⟩
  · exact toNat_assemble_index_size .nscaleB j logn
  · obtain ⟨r, hr, hres, hother, hframe⟩ := exec_store_b (i := .nscaleB j logn) rfl rfl hs (if_pos hc) j.isLt
      (mqMul_lt _ _)
    exact ⟨r, hr, hres, hres ▸ mqMul_ninvB_mul_two_pow hc hl, hother, hframe⟩
  · have hill : ¬ (Instr.nscaleB j logn).WellFormed := fun hw => by
      obtain ⟨h1, h10⟩ := (legalLogn_iff _).mp hw
      omega
    obtain ⟨-, -, -, -, -, -, hrejected⟩ := operandRangesOfTheOpcodeMap
    exact hrejected (.nscaleB j logn) s hb hill

end Sys2Proof.Machine

/-! What a list of micro-operations of ENG_B computes modulo QB on canonical entries, and the layers and the scaling pass of the
transforms (44_ring_b_transforms.md R180, R181). No operation leaves `[0, QB)`, so the residues say everything. -/

namespace Sys2Proof.Machine

/-! ### Residues modulo QB -/

/-- The residues modulo QB. -/
abbrev ResidueB : Type := ZMod 12289

/-- The residue of ROOT_B. -/
def genB : ResidueB := ((ROOT_B : Nat) : ResidueB)

theorem mqAdd_residue (x y : Nat) : (mqAdd x y : ResidueB) = x + y :=
  (ZMod.natCast_mod (x + y) 12289).trans (Nat.cast_add x y)

theorem mqMul_residue (x y : Nat) : (mqMul x y : ResidueB) = x * y :=
  (ZMod.natCast_mod (x * y) 12289).trans (Nat.cast_mul x y)

theorem mqSub_residue (x y : Nat) : (mqSub x y : ResidueB) = x - y := by
  rw [← Int.cast_natCast, mqSub_cast, show (12289 : Int) = ((12289 : Nat) : Int) from rfl, ZMod.intCast_mod, Int.cast_sub,
    Int.cast_natCast, Int.cast_natCast]

theorem wB_residue (x : Nat) : (wB x : ResidueB) = genB ^ brv 10 x :=
  (ZMod.natCast_mod _ 12289).trans (Nat.cast_pow _ _)

theorem negW_residue (x : Nat) : (negW x : ResidueB) = -genB ^ brv 10 x := by
  have hcast : (negW x : ResidueB) = ((12289 - wB x : Nat) : ResidueB) := ZMod.natCast_mod _ 12289
  have hle : wB x ≤ 12289 := (wB_lt x).le
  rw [hcast, Nat.cast_sub hle, ZMod.natCast_self, zero_sub, wB_residue]

theorem ninvB_residue {l : Nat} (hl : l ≤ 10) : (2 ^ l * ninvB l : ResidueB) = 1 := by
  have h : ((ninvB l * 2 ^ l : Nat) : ResidueB) = (1 : Nat) :=
    (ZMod.natCast_eq_natCast_iff' _ _ 12289).mpr (ninvB_mul_two_pow l hl)
  push_cast at h
  rw [mul_comm, h]

/-- ROOT_B is a primitive 2048-th root of unity (R9). -/
theorem genB_pow_1024 : genB ^ 1024 = -1 := by
  have hquarter : 7 ^ 256 ≡ 7143 [ZMOD 12289] := by decide
  have hlast : 7143 ^ 4 ≡ -1 [ZMOD 12289] := by decide
  have h := (ZMod.intCast_eq_intCast_iff _ _ 12289).mpr ((hquarter.pow 4).trans hlast)
  rw [← pow_mul, Int.cast_pow, Int.cast_neg, Int.cast_one] at h
  exact h

/-- The inverse butterfly's twiddle undoes the forward one's (R214). -/
theorem genB_mirror {d b : Nat} (hd : d < 10) (hb : b < 2 ^ d) :
    -genB ^ brv 10 (2 * 2 ^ d - 1 - b) * genB ^ brv 10 (2 ^ d + b) = 1 := by
  rw [neg_mul, ← pow_add, brv_mirror hd hb, show 2 ^ 10 = 1024 from rfl, genB_pow_1024, neg_neg]

/-! ### What a list of micro-operations computes -/

/-- The first `n` entries of BUF_B are canonical and have the residues `f`. -/
def HoldsB (n : Nat) (f : Nat → ResidueB) (s : State) : Prop :=
  ∀ i, i < n → CanonicalB (s.coefB i) ∧ (s.coefB i : ResidueB) = f i

/-- `t` holds the residues `f` in its first `n` entries, and otherwise its buffer is that of `s`, with nothing undefined. -/
structure LeavesB (n : Nat) (f : Nat → ResidueB) (s t : State) : Prop where
  holds : HoldsB n f t
  other : ∀ i, n ≤ i → t.entryB i = s.entryB i
  draws : NothingUndefined s t

/-- On every buffer that holds `f` the micro-operations leave `f'`. -/
def ComputesB (n : Nat) (ms : List MicroB) (f f' : Nat → ResidueB) : Prop :=
  ∀ s, HoldsB n f s → LeavesB n f' s (runMicroB ms s)

theorem CanonicalBufB.holds {n : Nat} {s : State} (h : CanonicalBufB n s) : HoldsB n (fun i => (s.coefB i : ResidueB)) s :=
  fun i hi => ⟨h i hi, rfl⟩

/-- Canonical entries with the same residues are the same. -/
theorem HoldsB.coefB_eq {n : Nat} {f : Nat → ResidueB} {s t : State} (hs : HoldsB n f s) (ht : HoldsB n f t) {i : Nat}
    (hi : i < n) : s.coefB i = t.coefB i := by
  obtain ⟨hcs, hfs⟩ := hs i hi
  obtain ⟨hct, hft⟩ := ht i hi
  exact Nat.ModEq.eq_of_lt_of_lt ((ZMod.natCast_eq_natCast_iff _ _ 12289).mp (hfs.trans hft.symm)) hcs hct

section Composition
variable {n : Nat} {f f' f'' : Nat → ResidueB} {ms ms' : List MicroB}

theorem ComputesB.congr (h : ComputesB n ms f f') (he : ∀ i, i < n → f' i = f'' i) : ComputesB n ms f f'' := fun s hs =>
  let ⟨hval, hother, hdraws⟩ := h s hs
  ⟨fun i hi => ⟨(hval i hi).1, (hval i hi).2.trans (he i hi)⟩, hother, hdraws⟩

theorem ComputesB.append (h : ComputesB n ms f f') (h' : ComputesB n ms' f' f'') : ComputesB n (ms ++ ms') f f'' := by
  intro s hs
  obtain ⟨hval, hother, hdraws⟩ := h s hs
  obtain ⟨hval', hother', hdraws'⟩ := h' _ hval
  rw [runMicroB, List.foldl_append]
  exact ⟨hval', fun i hi => (hother' i hi).trans (hother i hi), hdraws'.trans hdraws⟩

theorem computesB_passes {pass : Nat → List MicroB} {fs : Nat → Nat → ResidueB} (k : Nat)
    (h : ∀ d, d < k → ComputesB n (pass d) (fs d) (fs (d + 1))) :
    ComputesB n ((List.range k).flatMap pass) (fs 0) (fs k) := by
  induction k with
  | zero => exact fun s hs => ⟨hs, fun _ _ => rfl, rfl⟩
  | succ k ih =>
    rw [List.range_succ, List.flatMap_append, List.flatMap_singleton]
    exact (ih fun d hd => h d (Nat.lt_succ_of_lt hd)).append (h k (Nat.lt_succ_self k))

/-- The residues once the micro-operations below `p` have written the entries they own. -/
def written (owner : Nat → Nat) (f f' : Nat → ResidueB) (p i : Nat) : ResidueB := if owner i < p then f' i else f i

/-- A pass in which micro-operation `p` writes the entries that `p` owns, from those entries alone, computes them all at once
(R189): it finds them as they were before the pass. -/
theorem computesB_pass {owner : Nat → Nat} {m : Nat → MicroB} {k : Nat} (howner : ∀ i, i < n → owner i < k)
    (h : ∀ p, p < k → ∀ g, (∀ i, owner i = p → g i = f i) →
      ComputesB n [m p] g fun i => if owner i = p then f' i else g i) :
    ComputesB n ((List.range k).map m) f f' := by
  have hpass : ComputesB n ((List.range k).flatMap fun p => [m p]) (written owner f f' 0) (written owner f f' k) := by
    refine computesB_passes k fun p hp => (h p hp _ fun i hi => if_neg hi.not_lt).congr fun i _ => ?_
    grind [written]
  have hstart : written owner f f' 0 = f := funext fun i => if_neg (Nat.not_lt_zero _)
  rw [hstart, ← List.map_eq_flatMap] at hpass
  exact hpass.congr fun i hi => if_pos (howner i hi)

end Composition

/-! ### Stores -/

section Stores
variable {n : Nat} (hn : n ≤ 1024) {f f' : Nat → ResidueB} {s : State} (hs : HoldsB n f s)
include hn hs

/-- A pair of results stored on canonical operands. -/
theorem storePairB_leaves {j lg x y : Nat} (hp : partner j lg < n) (hx : x < QB) (hy : y < QB) (hfj : (x : ResidueB) = f' j)
    (hfp : (y : ResidueB) = f' (partner j lg)) (hf : ∀ i, i ≠ j → i ≠ partner j lg → f' i = f i) :
    LeavesB n f' s (storePairB j lg x y s) := by
  have hj : j < n := (lt_partner j lg).trans hp
  have hstore : storePairB j lg x y s = (s.putB j (u16 x)).putB (partner j lg) (u16 y) :=
    if_pos ⟨(hs j hj).1, (hs _ hp).1⟩
  obtain ⟨hlo, hhi, hother⟩ := entryB_putB_pair (congrArg State.bufB hstore) (hj.trans_le hn) (hp.trans_le hn)
    (partner_ne j lg)
  refine ⟨fun i hi => ?_, fun i hi => hother i (hj.trans_le hi).ne' (hp.trans_le hi).ne', (congrArg State.draws hstore :)⟩
  by_cases hij : i = j
  · rw [hij, coefB_of_entryB hlo hx]
    exact ⟨hx, hfj⟩
  by_cases hip : i = partner j lg
  · rw [hip, coefB_of_entryB hhi hy]
    exact ⟨hy, hfp⟩
  · rw [State.coefB, hother i hij hip, hf i hij hip]
    exact hs i hi

/-- One coefficient scaled by the inverse of the size. -/
theorem nscaleBOp_leaves {j l : Nat} (hj : j < n) (hfj : f j * ninvB l = f' j) (hf : ∀ i, i ≠ j → f' i = f i) :
    LeavesB n f' s (nscaleBOp j l s) := by
  obtain ⟨hc, hr⟩ := hs j hj
  have hstore : nscaleBOp j l s = s.putB j (u16 (mqMul (s.coefB j) (ninvB l))) := if_pos hc
  rw [hstore]
  refine ⟨fun i hi => ?_, fun i hi => entryB_putB_ne s (hj.trans_le hi).ne _, rfl⟩
  by_cases hij : i = j
  · rw [hij, coefB_of_entryB (entryB_putB_same s (hj.trans_le hn) _) (mqMul_lt _ _), mqMul_residue, hr]
    exact ⟨mqMul_lt _ _, hfj⟩
  · rw [State.coefB, entryB_putB_ne s (Ne.symm hij), hf i hij]
    exact hs i hi

end Stores

/-! ### Layers -/

theorem low_butterflyOf (e i : Nat) : low e (butterflyOf e i) = 2 * 2 ^ e * (i / (2 * 2 ^ e)) + i % 2 ^ e := by
  obtain ⟨hdiv, hmod⟩ : butterflyOf e i / 2 ^ e = i / (2 * 2 ^ e) ∧ butterflyOf e i % 2 ^ e = i % 2 ^ e :=
    (Nat.div_mod_unique (Nat.two_pow_pos e)).mpr ⟨Nat.add_comm _ _, Nat.mod_lt i (Nat.two_pow_pos e)⟩
  rw [low, hdiv, hmod]

/-- Every entry is touched by its butterfly. -/
theorem eq_low_or_high (e i : Nat) : i = low e (butterflyOf e i) ∨ i = high e (butterflyOf e i) := by
  have hi := Nat.div_add_mod i (2 * 2 ^ e)
  rw [Nat.mul_comm 2 (2 ^ e), Nat.mod_mul, Nat.mul_comm (2 ^ e) 2] at hi
  rw [high_eq, low_butterflyOf]
  rcases Nat.mod_two_eq_zero_or_one (i / 2 ^ e) with h0 | h1
  · rw [h0] at hi
    exact .inl (by omega)
  · rw [h1] at hi
    exact .inr (by omega)

theorem butterflyOf_eq_iff {e i p : Nat} : butterflyOf e i = p ↔ i = low e p ∨ i = high e p :=
  ⟨fun h => h ▸ eq_low_or_high e i, butterflyOf_touched e p⟩

/-- The butterflies of a layer of a transform of size `2^l` are those of the first `2^l` entries. -/
theorem butterflyOf_lt {e l i : Nat} (he : e < l) (hi : i < 2 ^ l) : butterflyOf e i < 2 ^ (l - 1) := by
  have hlayer : 2 ^ (l - 1 - e) * 2 ^ e = 2 ^ (l - 1) := (Nat.mul_comm _ _).trans (two_pow_layer he)
  have hsize : 2 ^ (l - 1 - e) * (2 * 2 ^ e) = 2 ^ l := by
    rw [Nat.mul_left_comm, hlayer, mul_pow_sub_one (Nat.ne_zero_of_lt he)]
  have hblock : i / (2 * 2 ^ e) + 1 ≤ 2 ^ (l - 1 - e) := block_lt (hsize.symm ▸ hi)
  calc butterflyOf e i < 2 ^ e * (i / (2 * 2 ^ e) + 1) := Nat.add_lt_add_left (Nat.mod_lt i (Nat.two_pow_pos e)) _
    _ ≤ 2 ^ e * 2 ^ (l - 1 - e) := Nat.mul_le_mul_left _ hblock
    _ = 2 ^ (l - 1) := two_pow_layer he

/-- `m` is a butterfly on pair `p` at distance `2^e` that takes the residues `f` of the pair to `f'`. -/
def PairStepB (e p : Nat) (m : MicroB) (f f' : Nat → ResidueB) : Prop :=
  ∀ s : State, (s.coefB (low e p) : ResidueB) = f (low e p) → (s.coefB (high e p) : ResidueB) = f (high e p) →
    ∃ x y, microB m s = storePairB (low e p) e x y s ∧ x < QB ∧ y < QB ∧
      (x : ResidueB) = f' (low e p) ∧ (y : ResidueB) = f' (high e p)

/-- A layer of butterflies computes what each of them computes on its pair. -/
theorem computesB_layer {l e : Nat} (h10 : l ≤ 10) (he : e < l) {m : Nat → MicroB} {f f' : Nat → ResidueB}
    (h : ∀ p, p < 2 ^ (l - 1) → PairStepB e p (m p) f f') :
    ComputesB (2 ^ l) ((List.range (2 ^ (l - 1))).map m) f f' := by
  have hn : 2 ^ l ≤ 1024 := Nat.pow_le_pow_right Nat.two_pos h10
  refine computesB_pass (owner := butterflyOf e) (fun i hi => butterflyOf_lt he hi) fun p hp g hg s hs => ?_
  have hhigh : high e p < 2 ^ l := inverseB_within he hp
  have hlow : low e p < 2 ^ l := (lt_partner _ _).trans hhigh
  obtain ⟨x, y, hstore, hx, hy, hfx, hfy⟩ := h p hp s ((hs _ hlow).2.trans (hg _ (butterflyOf_low e p)))
    ((hs _ hhigh).2.trans (hg _ (butterflyOf_high e p)))
  have hrun : runMicroB [m p] s = storePairB (low e p) e x y s := hstore
  rw [hrun]
  refine storePairB_leaves hn hs hhigh hx hy ?_ ?_ fun i hilow hihigh => ?_
  · rw [if_pos (butterflyOf_low e p), hfx]
  · exact hfy.trans (if_pos (butterflyOf_high e p)).symm
  · exact if_neg fun hi => (butterflyOf_eq_iff.mp hi).elim hilow hihigh

/-- What layer `d` of R180, at distance `2^e`, makes of the residues `f`: the entry in half-block `q` takes the remainder of its
block by `X^(2^e) − g^brv_11(2^(d+1)+q)`. -/
def forwardPassB (d e : Nat) (f : Nat → ResidueB) (i : Nat) : ResidueB :=
  f (low e (butterflyOf e i)) + genB ^ brv 11 (2 ^ (d + 1) + i / 2 ^ e) * f (high e (butterflyOf e i))

section Passes
variable (d e p : Nat) (f : Nat → ResidueB)

theorem forwardPassB_low :
    forwardPassB d e f (low e p) = f (low e p) + genB ^ brv 10 (2 ^ d + p / 2 ^ e) * f (high e p) := by
  rw [forwardPassB, butterflyOf_low, (low_half e p).1, Nat.pow_succ', ← Nat.mul_add, brv_even]

theorem forwardPassB_high :
    forwardPassB d e f (high e p) = f (low e p) - genB ^ brv 10 (2 ^ d + p / 2 ^ e) * f (high e p) := by
  rw [forwardPassB, butterflyOf_high, (high_half e p).1, Nat.pow_succ', ← Nat.add_assoc, ← Nat.mul_add, brv_odd, pow_add,
    show 2 ^ 10 = 1024 from rfl, genB_pow_1024, neg_one_mul, neg_mul, sub_eq_add_neg]

/-- A butterfly of `ntt.b` (R171). -/
theorem forwardB_pairStep (l : Nat) : PairStepB (l - 1 - d) p (forwardB l d p) f (forwardPassB d (l - 1 - d) f) := by
  intro s hlow hhigh
  refine ⟨_, _, rfl, mqAdd_lt _ _, mqSub_lt _ _, ?_, ?_⟩
  · rw [mqAdd_residue, mqMul_residue, wB_residue, forwardPassB_low, ← hlow, ← hhigh, mul_comm (genB ^ _)]
    rfl
  · rw [mqSub_residue, mqMul_residue, wB_residue, forwardPassB_high, ← hlow, ← hhigh, mul_comm (genB ^ _)]
    rfl

/-- A butterfly of `intt.b` takes back the butterfly of `ntt.b` on the same pair, but for a factor 2 (R172, R181). -/
theorem inverseB_pairStep {l : Nat} (h10 : l ≤ 10) (he : e < l) (hp : p < 2 ^ (l - 1)) :
    PairStepB e p (inverseB l e p) (fun i => 2 ^ e * forwardPassB (l - 1 - e) e f i) fun i => 2 ^ (e + 1) * f i := by
  intro s hlow hhigh
  have hblock : p / 2 ^ e < 2 ^ (l - 1 - e) := block_lt (by rwa [Nat.mul_comm, two_pow_layer he])
  have hmirror := genB_mirror (by omega) hblock
  simp only [forwardPassB_low, forwardPassB_high] at hlow hhigh
  refine ⟨_, _, rfl, mqAdd_lt _ _, mqMul_lt _ _, ?_, ?_⟩
  · refine (mqAdd_residue _ _).trans ((congrArg₂ (· + ·) hlow hhigh).trans ?_)
    ring
  · rw [mqMul_residue, mqSub_residue, negW_residue]
    refine (congrArg₂ (fun u v => (u - v) * _) hlow hhigh).trans ?_
    linear_combination (2 ^ (e + 1) * f (high e p)) * hmirror

end Passes

/-! ### The loop nests -/

/-- The loop nest of `ntt.b` is its layers (R180). -/
theorem loopNttB_eq (l : Nat) :
    loopNttB l = (List.range l).flatMap fun d => (List.range (2 ^ (l - 1))).map (forwardB l d) := by
  simpa [loopNttB] using forwardLoopB_eq l 0 (Nat.zero_add l)

/-- The loop nest of `intt.b` is its layers, then the scalings (R181). -/
theorem loopInttB_eq (l : Nat) :
    loopInttB l = ((List.range l).flatMap fun d => (List.range (2 ^ (l - 1))).map (inverseB l d)) ++
      (List.range (2 ^ l)).map fun j => .nscale j l := by
  simpa [loopInttB] using inverseLoopB_eq l 0 (Nat.zero_add l)

/-- The residues after the first `d` layers of `ntt.b l`. -/
def forwardCoefsB (l : Nat) : Nat → (Nat → ResidueB) → Nat → ResidueB
  | 0, c => c
  | d + 1, c => forwardPassB d (l - 1 - d) (forwardCoefsB l d c)

section Loops
variable {l : Nat} (h10 : l ≤ 10) (c : Nat → ResidueB)
include h10

theorem computesB_loopNttB : ComputesB (2 ^ l) (loopNttB l) c (forwardCoefsB l l c) := by
  rw [loopNttB_eq]
  exact computesB_passes (fs := fun d => forwardCoefsB l d c) l fun d hd =>
    computesB_layer h10 (show l - 1 - d < l by omega) fun p _ => forwardB_pairStep d p _ l

/-- The layers of `intt.b` take back those of `ntt.b`, the last one first. -/
theorem computesB_inverseLayers :
    ComputesB (2 ^ l) ((List.range l).flatMap fun d => (List.range (2 ^ (l - 1))).map (inverseB l d)) (forwardCoefsB l l c)
      fun i => 2 ^ l * c i := by
  have hpasses := computesB_passes (n := 2 ^ l) (pass := fun d => (List.range (2 ^ (l - 1))).map (inverseB l d))
    (fs := fun d i => 2 ^ d * forwardCoefsB l (l - d) c i) l fun d hd => ?_
  · simpa [forwardCoefsB] using hpasses
  · have hlayers : l - d = l - 1 - d + 1 := by omega
    have hdistance : l - 1 - (l - 1 - d) = d := by omega
    rw [hlayers, forwardCoefsB, hdistance, show l - (d + 1) = l - 1 - d by omega]
    exact computesB_layer h10 hd fun p hp => inverseB_pairStep d p _ h10 hd hp

/-- The last pass of `intt.b` takes the size out of every entry. -/
theorem computesB_nscales :
    ComputesB (2 ^ l) ((List.range (2 ^ l)).map fun j => .nscale j l) (fun i => 2 ^ l * c i) c := by
  have hn : 2 ^ l ≤ 1024 := Nat.pow_le_pow_right Nat.two_pos h10
  refine computesB_pass (owner := id) (fun _ hi => hi) fun p hp g hg s hs => ?_
  refine nscaleBOp_leaves hn hs hp ?_ fun i hi => if_neg hi
  rw [hg p rfl, id_eq, if_pos rfl, mul_right_comm, ninvB_residue h10, one_mul]

theorem computesB_loopInttB : ComputesB (2 ^ l) (loopInttB l) (forwardCoefsB l l c) c := by
  rw [loopInttB_eq]
  exact (computesB_inverseLayers h10 c).append (computesB_nscales h10 c)

end Loops

/-! ### Whole runs -/

section Runs
variable {logn : BitVec 4} (h1 : 1 ≤ logn.toNat) (h10 : logn.toNat ≤ 10) {s : State} (hs : RunningB 0 s)
  {c : Nat → ResidueB}
include h1 h10 hs

/-- `ntt.b`, run from its acceptance on canonical entries. -/
theorem execTimes_nttB (h : HoldsB (2 ^ logn.toNat) c s) :
    ∃ t, execTimes (.nttB logn) (stepsNttB logn.toNat) s = .next t ∧
      LeavesB (2 ^ logn.toNat) (forwardCoefsB logn.toNat logn.toNat c) s t := by
  obtain ⟨hrun, -⟩ := ringBMacrosRunTheirLoopNests logn s _ _ h1 h10 rfl rfl hs
  obtain ⟨hval, hother, hdraws⟩ := computesB_loopNttB h10 c s h
  rw [stepsNttB_eq h1]
  exact ⟨_, hrun, hval, hother, hdraws⟩

/-- `intt.b`, run from its acceptance on what `ntt.b` leaves. -/
theorem execTimes_inttB (h : HoldsB (2 ^ logn.toNat) (forwardCoefsB logn.toNat logn.toNat c) s) :
    ∃ t, execTimes (.inttB logn) (stepsInttB logn.toNat) s = .next t ∧ LeavesB (2 ^ logn.toNat) c s t := by
  obtain ⟨-, hrun⟩ := ringBMacrosRunTheirLoopNests logn s _ _ h1 h10 rfl rfl hs
  obtain ⟨hval, hother, hdraws⟩ := computesB_loopInttB h10 c s h
  rw [stepsInttB_eq h1]
  exact ⟨_, hrun, hval, hother, hdraws⟩

end Runs

/-- What a buffer holds does not depend on the rest of the state. -/
theorem HoldsB.of_bufB {n : Nat} {f : Nat → ResidueB} {s t : State} (hs : HoldsB n f s) (h : t.bufB = s.bufB) :
    HoldsB n f t := by
  intro i hi
  rw [State.coefB, entryB_congr h]
  exact hs i hi

/-- Settles O42: the layers of `intt.b` and the scaling leave the residues of the input, and canonical entries are determined by
their residues. -/
theorem roundTripB : Obligations.RoundTripB := by
  intro logn s h1 h10 hs h
  obtain ⟨t, ht, hval, hother, hdraws⟩ := execTimes_nttB h1 h10 hs h.holds
  refine ⟨t, ht, hdraws, fun u hu hus => ?_⟩
  obtain ⟨v, hv, hval', hother', hdraws'⟩ := execTimes_inttB h1 h10 hus (hval.of_bufB hu)
  refine ⟨v, hv, hdraws', bufB_ext fun i _ => ?_⟩
  rcases Nat.lt_or_ge i (2 ^ logn.toNat) with hi | hi
  · exact BitVec.eq_of_toNat_eq (hval'.coefB_eq h.holds hi)
  · exact (hother' i hi).trans ((entryB_congr hu i).trans (hother i hi))

end Sys2Proof.Machine

/-! The meaning of `ntt.b`: after each layer every block of the buffer agrees with the input polynomial at the roots of the
block, so that at the end entry `i` is its value at `g_n^(2·brv_logn(i)+1)` (44_ring_b_transforms.md R183, R184). -/

namespace Sys2Proof.Machine

/-! ### Roots -/

/-- The reversal of a word of `b` bits in `b + k` bits. -/
theorem brv_add_of_lt {b x : Nat} (h : x < 2 ^ b) (k : Nat) : brv (b + k) x = 2 ^ k * brv b x := by
  induction k with
  | zero => rw [Nat.add_zero, pow_zero, Nat.one_mul]
  | succ k ih =>
    rw [← Nat.add_assoc, brv_succ_of_lt (h.trans_le (Nat.pow_le_pow_right Nat.two_pos (Nat.le_add_right b k))), ih,
      Nat.pow_succ', Nat.mul_assoc]

/-- The root of a block is the square of the roots of its two halves. -/
theorem genB_pow_brv_sq {y : Nat} (h : y < 2 ^ 11) : (genB ^ brv 11 y) ^ 2 = genB ^ brv 11 (y / 2) := by
  have hone : (genB ^ 2 ^ 10) ^ 2 = 1 := by rw [show 2 ^ 10 = 1024 from rfl, genB_pow_1024, neg_one_sq]
  rw [brv_succ_of_lt (show y / 2 < 2 ^ 10 by omega), brv, pow_add, mul_pow, mul_comm (y % 2), pow_mul genB (2 ^ 10),
    pow_right_comm, hone, one_pow, one_mul, ← pow_mul, mul_comm]

/-- The root of the block that entry `i` is at the end (R183, R184). -/
theorem genB_pow_brv_last {l i : Nat} (h10 : l ≤ 10) (hi : i < 2 ^ l) :
    genB ^ brv 11 (2 ^ l + i) = (rootB l : ResidueB) ^ (2 * brv l i + 1) := by
  have hroot : (rootB l : ResidueB) = genB ^ 2 ^ (10 - l) := (ZMod.natCast_mod _ 12289).trans (Nat.cast_pow _ _)
  have hbrv : brv 11 (2 ^ l + i) = 2 ^ (10 - l) * (2 * brv l i + 1) := by
    rw [← brv_succ_two_pow_add hi, ← brv_add_of_lt (by rw [Nat.pow_succ]; omega), show l + 1 + (10 - l) = 11 by omega]
  rw [hroot, hbrv, pow_mul]

/-! ### The blocks of a buffer -/

/-- After `d` layers of a transform of size `2^l`: each block of `f`, read as a polynomial, has the values of the input polynomial
`c` at the roots of `X^(2^(l−d)) − g^brv_11(2^d+b)`, with `b` the block. -/
def BlocksEvaluate (l d : Nat) (c f : Nat → ResidueB) : Prop :=
  ∀ b x, b < 2 ^ d → x ^ 2 ^ (l - d) = genB ^ brv 11 (2 ^ d + b) →
    ∑ t ∈ Finset.range (2 ^ (l - d)), f (b * 2 ^ (l - d) + t) * x ^ t = ∑ t ∈ Finset.range (2 ^ l), c t * x ^ t

/-- The entry at offset `t` of half-block `q`, from the two halves of its block. -/
theorem forwardPassB_block (d : Nat) {e t : Nat} (q : Nat) (ht : t < 2 ^ e) (f : Nat → ResidueB) :
    forwardPassB d e f (q * 2 ^ e + t) =
      f (q / 2 * (2 * 2 ^ e) + t) + genB ^ brv 11 (2 ^ (d + 1) + q) * f (q / 2 * (2 * 2 ^ e) + (2 ^ e + t)) := by
  obtain ⟨hdiv, hmod⟩ : (q * 2 ^ e + t) / 2 ^ e = q ∧ (q * 2 ^ e + t) % 2 ^ e = t :=
    (Nat.div_mod_unique (Nat.two_pow_pos e)).mpr ⟨by ring, ht⟩
  have hlow : low e (butterflyOf e (q * 2 ^ e + t)) = q / 2 * (2 * 2 ^ e) + t := by
    rw [low_butterflyOf, Nat.mul_comm 2 (2 ^ e), ← Nat.div_div_eq_div_mul, hdiv, hmod, Nat.mul_comm (q / 2)]
  rw [forwardPassB, high_eq, hlow, hdiv, Nat.add_assoc, Nat.add_comm t]

/-- At a root of a half-block the layer's remainder agrees with the whole block. -/
theorem BlocksEvaluate.step {l d : Nat} (h10 : l ≤ 10) (hd : d < l) {c f : Nat → ResidueB} (h : BlocksEvaluate l d c f) :
    BlocksEvaluate l (d + 1) c (forwardPassB d (l - 1 - d) f) := by
  intro q x hq hx
  have hsize : l - d = l - 1 - d + 1 := by omega
  have hhalf : l - (d + 1) = l - 1 - d := by omega
  have hpow : 2 ^ (d + 1) ≤ 2 ^ 10 := Nat.pow_le_pow_right Nat.two_pos (by omega)
  have hparent : (2 ^ (d + 1) + q) / 2 = 2 ^ d + q / 2 := by omega
  have hroot : x ^ 2 ^ (l - d) = genB ^ brv 11 (2 ^ d + q / 2) := by
    rw [hsize, pow_succ, pow_mul, ← hhalf, hx, genB_pow_brv_sq (by omega), hparent]
  have hblock := h (q / 2) x (by omega) hroot
  rw [hhalf] at hx ⊢
  rw [hsize, pow_succ' 2 (l - 1 - d), two_mul (2 ^ (l - 1 - d)), Finset.sum_range_add, ← Finset.sum_add_distrib] at hblock
  rw [← hblock]
  refine Finset.sum_congr rfl fun t ht => ?_
  rw [forwardPassB_block d q (Finset.mem_range.mp ht), ← hx, two_mul (2 ^ (l - 1 - d))]
  ring

theorem forwardCoefsB_evaluates {l : Nat} (h10 : l ≤ 10) (c : Nat → ResidueB) {d : Nat} (hd : d ≤ l) :
    BlocksEvaluate l d c (forwardCoefsB l d c) := by
  induction d with
  | zero =>
    intro b x hb _
    obtain rfl : b = 0 := Nat.lt_one_iff.mp hb
    simp only [Nat.zero_mul, Nat.zero_add, Nat.sub_zero, forwardCoefsB]
  | succ d ih => exact (ih (Nat.le_of_succ_le hd)).step h10 hd

/-- With all layers done a block is one entry: the value of the polynomial at the block's root. -/
theorem forwardCoefsB_last {l i : Nat} (h10 : l ≤ 10) (hi : i < 2 ^ l) (p : Nat → Int) :
    forwardCoefsB l l (fun t => (p t : ResidueB)) i =
      ((evalPoly p (2 ^ l) ((rootB l : Int) ^ (2 * brv l i + 1)) : Int) : ResidueB) := by
  have hblock := forwardCoefsB_evaluates h10 (fun t => (p t : ResidueB)) le_rfl i
    ((rootB l : ResidueB) ^ (2 * brv l i + 1)) hi (by rw [genB_pow_brv_last h10 hi, Nat.sub_self, pow_zero, pow_one])
  simp only [Nat.sub_self, pow_zero, Finset.sum_range_one, Nat.add_zero, mul_one] at hblock
  rw [hblock, evalPoly]
  push_cast
  rfl

/-- Settles O40: the residues after the last layer, and a canonical entry is its own residue. -/
theorem nttBOutputOrder : Obligations.NttBOutputOrder := by
  intro logn s h1 h10 hs h
  obtain ⟨t, ht, hval, hother, -⟩ := execTimes_nttB h1 h10 hs h.holds
  refine ⟨t, ht, fun i hi => ?_, hother⟩
  obtain ⟨hcanonical, hres⟩ := hval i hi
  have hpoly := forwardCoefsB_last h10 hi fun i => (s.coefB i : Int)
  simp only [Int.cast_natCast] at hpoly
  have hmod := (ZMod.intCast_eq_intCast_iff' (t.coefB i : Int) _ 12289).mp
    ((Int.cast_natCast _).trans (hres.trans hpoly))
  exact (Int.emod_eq_of_lt (Int.natCast_nonneg _) (Int.ofNat_lt.mpr hcanonical)).symm.trans hmod

end Sys2Proof.Machine

/-! The system commands `nop.a` and `nop.b` (45_system_commands.md R200, R201). -/

namespace Sys2Proof

/-- A command without operands leaves no field free: the check of its word compares all of it (R92). -/
theorem and_mask_of_format_z {o : Opcode} (hz : o.format = .z) (w : Word) : w &&& o.format.mask = w := by
  rw [hz]
  exact BitVec.and_allOnes

theorem encode_nopA : encode .nopA = 0x00 := by decide

theorem encode_nopB : encode .nopB = 0x80 := by decide

end Sys2Proof

namespace Sys2Proof.Machine

/-- Beside the opcode of a command without operands, any other field that is not 0 is rejected (R98, R104). -/
theorem presentCommand_nonzeroField {x : Eng} {w : Word} {o : Opcode} {s : State} (hz : o.format = .z)
    (hopc : opcField w = o.code) (hne : w ≠ o.code.setWidth 32) (hu : unitField w = x) (hb : s.busy x = false) :
    presentCommand w s = .next (s.raise x .illegalField) := by
  subst hu
  refine presentCommand_illegalField hb (hopc ▸ opcodeOf_code o) ?_
  rwa [and_mask_of_format_z hz]

/-- Settles O24: a no-operation is a single-step command whose micro-operation does nothing, and its word is its opcode. -/
theorem nopsComplete : Obligations.NopsComplete := by
  have hdecodeA : decode 0x00 = .ok .nopA := encode_nopA ▸ decode_encode .nopA
  have hdecodeB : decode 0x80 = .ok .nopB := encode_nopB ▸ decode_encode .nopB
  refine ⟨congrArg BitVec.toNat encode_nopA, congrArg BitVec.toNat encode_nopB, rfl, rfl,
    fun s hs => exec_single_a (m := .nothing) rfl rfl hs, fun s hs => exec_single_b (m := .nothing) rfl rfl hs,
    fun s => ⟨fun hb => ?acceptA, fun hb => ?acceptB, fun hb => ?busyA, fun hb => ?busyB,
      fun w hopc hne hb => ?fieldA, fun w hopc hne hb => ?fieldB⟩⟩
  case acceptA => exact presentCommand_accepted_a rfl hb hdecodeA rfl
  case acceptB => exact presentCommand_accepted_b rfl hb hdecodeB rfl
  case busyA => exact presentCommand_busy (w := 0x00) hb
  case busyB => exact presentCommand_busy (w := 0x80) hb
  case fieldA =>
    have hu : unitField w = .a := by rw [unitField_eq, hopc]; rfl
    exact presentCommand_nonzeroField (o := .nopA) rfl hopc hne hu hb
  case fieldB =>
    have hu : unitField w = .b := by rw [unitField_eq, hopc]; rfl
    exact presentCommand_nonzeroField (o := .nopB) rfl hopc hne hu hb

end Sys2Proof.Machine

/-! The contents of the ROMs (46_twiddle_rom.md R210 to R215): an entry that is used is a unit, mirrored entries are inverse up to
sign, and the listings have the printed check sums. -/

namespace Sys2Proof.Machine

/-! ### ZETA_A -/

/-- Every entry but the first is a unit modulo QA (R210), for the radix and the root are. -/
theorem isCoprime_zetaA {k : Nat} (hk : 1 ≤ k) : IsCoprime (zetaA k) 8380417 := by
  have hradix : IsCoprime (2 : Int) 8380417 := by decide
  have hroot : IsCoprime (1753 : Int) 8380417 := by decide
  have hscaled : IsCoprime (2 ^ 32 * 1753 ^ brv 8 k : Int) 8380417 := hradix.pow_left.mul_left hroot.pow_left
  rwa [Int.isCoprime_iff_gcd_eq_one, ← Int.gcd_emod, (zetaA_modEq hk).eq, Int.gcd_emod, ← Int.isCoprime_iff_gcd_eq_one]

theorem zetaA_emod_ne_zero {k : Nat} (hk : 1 ≤ k) : zetaA k % 8380417 ≠ 0 := fun h =>
  absurd ((isCoprime_zetaA hk).isUnit_of_dvd' (Int.dvd_of_emod_eq_zero h) dvd_rfl) (by decide)

/-- In the residues a twiddle is a power of ζ times the radix. -/
theorem cast_zetaA {k : Nat} (hk : 1 ≤ k) : (zetaA k : ResidueA) = 2 ^ 32 * zeta ^ brv 8 k := by
  have h := congruentMod_iff_cast.mp (congruentMod_iff_modEq.mpr (zetaA_modEq hk))
  rwa [Int.cast_mul, Int.cast_pow, Int.cast_pow] at h

/-- Negated at the mirrored index, a twiddle is the radix over the forward power of ζ (R214). -/
theorem neg_zetaA_mirror {l b : Nat} (hl : l < 8) (hb : b < 2 ^ l) :
    CongruentMod (-zetaA (2 * 2 ^ l - 1 - b) * 1753 ^ brv 8 (2 ^ l + b)) (2 ^ 32) 8380417 := by
  have hk : 1 ≤ 2 * 2 ^ l - 1 - b := by omega
  rw [congruentMod_iff_cast]
  push_cast
  calc -(zetaA (2 * 2 ^ l - 1 - b) : ResidueA) * zeta ^ brv 8 (2 ^ l + b)
      = 2 ^ 32 * (-zeta ^ brv 8 (2 * 2 ^ l - 1 - b) * zeta ^ brv 8 (2 ^ l + b)) := by rw [cast_zetaA hk]; ring
    _ = 2 ^ 32 := by rw [zeta_mirror hl hb, mul_one]

theorem root_a_pow_256 : CongruentMod (1753 ^ 256) (-1) 8380417 := by
  rw [congruentMod_iff_cast, Int.cast_pow, Int.cast_neg, Int.cast_one]
  exact zeta_pow_256

/-! ### W_B -/

theorem negW_eq (x : Nat) : negW x = 12289 - wB x := Nat.mod_eq_of_lt (Nat.sub_lt QB_pos (wB_pos x))

/-- Negated at the mirrored index, a twiddle is the inverse of the forward one (R214). -/
theorem negW_mirror {e i : Nat} (he : e < 10) (hi : i < 2 ^ e) :
    negW (2 * 2 ^ e - 1 - i) * wB (2 ^ e + i) % 12289 = 1 := by
  refine (ZMod.natCast_eq_natCast_iff' _ 1 12289).mp ?_
  rw [Nat.cast_mul, negW_residue, wB_residue, genB_mirror he hi, Nat.cast_one]

theorem root_b_pow_1024 : CongruentMod (7 ^ 1024) (-1) 12289 := by
  refine congruentMod_iff_modEq.mpr ((ZMod.intCast_eq_intCast_iff _ _ 12289).mp ?_)
  rw [Int.cast_pow, Int.cast_neg, Int.cast_one]
  exact genB_pow_1024

/-! ### The statements -/

/-- Settles O15: the entries are read off the definitions; none but the first of ZETA_A is 0, for they are units. -/
theorem romContents : Obligations.RomContents :=
  ⟨rfl, fun _ hk _ => ⟨congruentMod_iff_modEq.mpr (zetaA_modEq hk), abs_zetaA_le _, zetaA_emod_ne_zero hk⟩,
    fun x _ => ⟨rfl, wB_pos x, Nat.le_of_lt_succ (wB_lt x)⟩, rfl, rfl, ninvB_mul_two_pow⟩

/-- Settles O16: reversed mirrored indices add up to half the order of the root, whose power there is -1. -/
theorem mirrorIdentity : Obligations.MirrorIdentity := by
  refine ⟨fun l b hl hb => ⟨neg_zetaA_mirror hl hb, ?_⟩, fun e i he hi => ⟨?_, ?_⟩, root_a_pow_256, root_b_pow_1024⟩
  · exact Nat.eq_sub_of_add_eq (brv_mirror hl hb)
  · exact negW_eq _ ▸ negW_mirror he hi
  · exact Nat.eq_sub_of_add_eq (brv_mirror he hi)

/-- Settles O17: the check sums have no law behind them; the kernel evaluates both ROMs. -/
theorem romListingChecks : Obligations.RomListingChecks :=
  ⟨by decide +kernel, by decide +kernel, by decide +kernel, by decide +kernel, by decide +kernel, by decide +kernel⟩

end Sys2Proof.Machine

/-! Taking a command fault (60_exceptions.md R224, R226): the oldest uncleared cause is the one that stays. -/

namespace Sys2Proof.Machine

/-- While a fault is uncleared, a later one is lost (R226). -/
theorem Engine.raise_of_err {w : Nat} {e : Engine w} (h : e.err = true) (c : Cause) : e.raise c = e := by
  cases e
  cases h
  rfl

/-- Of two faults of one unit only the first leaves a trace (R226). -/
theorem raise_raise (x : Eng) (c c' : Cause) (s : State) : (s.raise x c).raise x c' = s.raise x c := by
  cases x with
  | a => exact congrArg (fun e => { s with a := e }) (Engine.raise_of_err (s.a.raise_err c) c')
  | b => exact congrArg (fun e => { s with b := e }) (Engine.raise_of_err (s.b.raise_err c) c')

theorem busy_reply (x : Eng) (r : Option Reply) (s : State) : State.busy x { s with reply := r } = s.busy x := by
  cases x <;> rfl

/-- A CMD write to a busy unit is answered ok, and UNIT_BUSY is all it leaves (R104, R224). -/
theorem transact_cmd_busy {w : Word} {s : State} (hb : s.busy (unitField w) = true) :
    transact (.write 0x0004 4 w) s = .next (State.raise (unitField w) .unitBusy { s with reply := some .written }) :=
  calc transact (.write 0x0004 4 w) s
    _ = presentCommand w { s with reply := some .written } := transact_cmd w s
    _ = .next (State.raise (unitField w) .unitBusy { s with reply := some .written }) :=
      presentCommand_busy ((busy_reply _ _ s).trans hb)

/-- Settles O8: fault entry read off field by field, twice in a row, and by way of a CMD write to a busy unit. -/
theorem faultEntryKeepsTheOldestCause : Obligations.FaultEntryKeepsTheOldestCause :=
  ⟨fun s c c' => ⟨rfl, rfl, raise_raise .a c c' s, raise_raise .b c c' s⟩, fun _ _ => transact_cmd_busy⟩

end Sys2Proof.Machine
